-- ==== Sys2Proof/Word.lean ====
section
/-! DEFINITION. The word types and the names of the general registers (00_scope.md section 6, 10_state.md R6, R21, R70). -/

namespace Sys2Proof

/-- One byte of memory or of an instruction (20_memory.md R80: PRESUMED there, "general knowledge"). -/
abbrev Byte := BitVec 8

/-- A 32-bit register, linear address or control register (10_state.md R21). -/
abbrev Word := BitVec 32

/-- The eight general registers, in the order of their numbers 0 to 7 (10_state.md R70). -/
inductive Reg where
  | eax | ecx | edx | ebx | esp | ebp | esi | edi
  deriving DecidableEq, Repr, Inhabited

end Sys2Proof
end

