-- ==== Sys2Proof/Syntax.lean ====
section
/-! DEFINITION. The instructions: one constructor per row of spec/opcode_table.json (30_encoding.md). -/

namespace Sys2Proof

/-- A memory operand as its bytes give it: the ModR/M fields `mod` and `rm`, the SIB byte (0 when there is none) and
the displacement bytes read as one little-endian number (0 when there is none). 30_encoding.md R110 and R111 name
the parts; their lengths are the family's 32-bit forms (PRESUMED, log 8). -/
structure MemOperand where
  md : BitVec 2
  rm : BitVec 3
  sib : Byte
  disp : Word
  deriving DecidableEq, Repr, Inhabited

/-- How many SIB bytes follow the ModR/M byte (PRESUMED, log 8). -/
def MemOperand.sibSize (m : MemOperand) : Nat := if m.rm = 4#3 then 1 else 0

/-- How many displacement bytes follow (PRESUMED, log 8). -/
def MemOperand.dispSize (m : MemOperand) : Nat :=
  if m.md = 1#2 then 1
  else if m.md = 2#2 then 4
  else if m.rm = 5#3 then 4
  else if m.rm = 4#3 ∧ m.sib.extractLsb' 0 3 = 5#3 then 4
  else 0

/-- The bytes of the operand after the ModR/M byte. -/
def MemOperand.size (m : MemOperand) : Nat := m.sibSize + m.dispSize

/-- The second operand field of an x87 instruction: a register form (`mod` = 11b) or a memory operand
(30_encoding.md R111, R116). -/
inductive RmOperand where
  | reg (rm : BitVec 3)
  | mem (m : MemOperand)
  deriving DecidableEq, Repr, Inhabited

/-- The 38 rows of spec/opcode_table.json. `md` is the ModR/M field that MOV to and from CRn and DRn ignore
(30_encoding.md R112, R113, R118); it is kept so that no encoding is lost. -/
inductive Instr where
  | movR32Cr0 (md : BitVec 2) (r : Reg)
  | movR32Cr1 (md : BitVec 2) (r : Reg)
  | movR32Cr2 (md : BitVec 2) (r : Reg)
  | movR32Cr3 (md : BitVec 2) (r : Reg)
  | movR32Cr4 (md : BitVec 2) (r : Reg)
  | movR32Cr5 (md : BitVec 2) (r : Reg)
  | movR32Cr6 (md : BitVec 2) (r : Reg)
  | movR32Cr7 (md : BitVec 2) (r : Reg)
  | movCr0R32 (md : BitVec 2) (r : Reg)
  | movCr1R32 (md : BitVec 2) (r : Reg)
  | movCr2R32 (md : BitVec 2) (r : Reg)
  | movCr3R32 (md : BitVec 2) (r : Reg)
  | movCr4R32 (md : BitVec 2) (r : Reg)
  | movCr5R32 (md : BitVec 2) (r : Reg)
  | movCr6R32 (md : BitVec 2) (r : Reg)
  | movCr7R32 (md : BitVec 2) (r : Reg)
  | clts
  | wait
  | x87 (op : BitVec 3) (ext : BitVec 3) (rm : RmOperand)
  | rdtsc
  | rdpmc
  | cpuid
  | movR32Dr4 (md : BitVec 2) (r : Reg)
  | movR32Dr5 (md : BitVec 2) (r : Reg)
  | movDr4R32 (md : BitVec 2) (r : Reg)
  | movDr5R32 (md : BitVec 2) (r : Reg)
  | fxsave (m : MemOperand)
  | fxrstor (m : MemOperand)
  | pause
  | prefetchnta (m : MemOperand)
  | prefetcht0 (m : MemOperand)
  | prefetcht1 (m : MemOperand)
  | prefetcht2 (m : MemOperand)
  | sfence
  | lfence
  | mfence
  | movnti (m : MemOperand) (g : Reg)
  | clflush (m : MemOperand)
  deriving DecidableEq, Repr

/-- The classes of 42_fpu_simd_gating.md R180 (the parameter `insn_class` of 00_scope.md R4). -/
inductive InsnClass where
  | x87Fp | wait | mmx | sse | sse2 | exempt | other
  deriving DecidableEq, Repr, Inhabited

end Sys2Proof
end

