-- ==== Sys2Proof/Config.lean ====
section
/-! DEFINITION. What an implementation fixes (00_scope.md R4) and the free values of the model: the parameters as plain
data, and the opaque constants to which nothing in Lean can give a value. -/

namespace Sys2Proof

/-! ### Parameters (00_scope.md R4) -/

/-- `proc`: the processor the registers are in. -/
inductive Proc where
  | intel386 | intel486 | pentium | p6 | pentium4
  deriving DecidableEq, Repr, Inhabited

/-- `has_x87`: whether an x87 FPU exists and where. -/
inductive HasX87 where
  | none | internal | external
  deriving DecidableEq, Repr, Inhabited

/-- What stands at a range of physical addresses: memory, or something of the platform (a hole, a read-only memory, a
device), of which the spec says nothing (20_memory.md R89, D33; log 36). -/
inductive RegionKind where
  | ram | platform
  deriving DecidableEq, Repr, Inhabited

/-- One range of the address map (20_memory.md R89). -/
structure Region where
  base : Nat
  size : Nat
  kind : RegionKind
  deriving DecidableEq, Repr, Inhabited

/-- The parameters of 00_scope.md R4 that are plain data. They are constant: no step changes them (log 1). `etHardwired`,
`wb_cache` and `phys_addr_bits` are computed (Machine/Flags.lean). `addressMap` is the map of 20_memory.md R89 ("a parameter of the model", D33, U39; log 36). The last
two are open in the same way and the model's
own parameters: whether an access to DR4 or DR5 needs privilege level 0 (43_cr4_gated.md R212: "nor what privilege the
access needs"; log 15), and the boundary the alignment check tests for the FXSAVE image (R190: "alignment of the
image ... not in the source"; log 21). -/
structure Params where
  proc : Proc
  cr4Present : BitVec 11
  cpuidMmx : Bool
  cpuidSse : Bool
  cpuidSse2 : Bool
  hasX87 : HasX87
  resetCr0 : Word
  resetCr2 : Word
  resetCr3 : Word
  resetCr4 : Word
  paeCr3Base : Word
  addressMap : List Region
  fxGate : Bool
  drGate : Bool
  fxAlign : Nat
  deriving DecidableEq, Repr

/-- The configuration 95_test_vectors.md takes "unless a line says otherwise", with the reset defaults of 10_state.md
R76, the CR3 layout of D23 and the gate of D36 (all marked general knowledge there: PRESUMED, log 1, 2), and memory at every
physical address (DESIGN CHOICE, log 36). -/
def Params.default : Params where
  proc := .pentium4
  cr4Present := 0x7FF#11
  cpuidMmx := true
  cpuidSse := true
  cpuidSse2 := true
  hasX87 := .internal
  resetCr0 := 0x60000010#32
  resetCr2 := 0#32
  resetCr3 := 0#32
  resetCr4 := 0#32
  paeCr3Base := 0xFFFFFFE0#32
  addressMap := [⟨0, 2 ^ 36, .ram⟩]
  fxGate := true
  drGate := true
  fxAlign := 16

/-! ### Register files of the units (10_state.md R70, R72; layout log 3, 10) -/

/-- The general registers (10_state.md R70). -/
structure Regs where
  eax : Word
  ecx : Word
  edx : Word
  ebx : Word
  esp : Word
  ebp : Word
  esi : Word
  edi : Word
  deriving DecidableEq, Repr, Inhabited

/-- The context of the x87 FPU and of MMX (10_state.md R72). `st` holds the eight 80-bit data registers in the order the
save image has them; MM0 to MM7 are the low 64 bits of the same registers (PRESUMED, log 10). -/
structure Fpu where
  control : BitVec 16
  status : BitVec 16
  tag : BitVec 8
  opcode : BitVec 16
  instrPtr : Word
  instrSel : BitVec 16
  dataPtr : Word
  dataSel : BitVec 16
  st : Vector (BitVec 80) 8
  deriving DecidableEq, Repr, Inhabited

/-- The context of SSE and SSE2: XMM0 to XMM7 and MXCSR (10_state.md R72, 42_fpu_simd_gating.md R190, R191; widths
PRESUMED, log 10). -/
structure Sse where
  xmm : Vector (BitVec 128) 8
  mxcsr : Word
  deriving DecidableEq, Repr, Inhabited

/-! ### Exceptions and memory -/

/-- What a step can raise (60_exceptions.md R230 to R239), with the error code where the exception has one. -/
inductive Exc where
  /-- general protection, with its error code (R231) -/
  | gp (code : Word)
  /-- device not available (R232) -/
  | nm
  /-- invalid opcode (R233) -/
  | ud
  /-- SIMD floating-point exception (R234) -/
  | xf
  /-- page fault; its address is in CR2 (R236) -/
  | pf
  /-- machine check (R237) -/
  | mc
  /-- alignment check, with its error code (R238; the name is PRESUMED there and in 20_memory.md R92, log 21) -/
  | ac (code : Word)
  /-- x87 error reported by the internal mechanism (R239; the name is PRESUMED there, log 20) -/
  | mf
  /-- the interrupt of the PC-style x87 error mechanism (R239, 42_fpu_simd_gating.md R192), raised by the core without the path
  over FERR# and external logic, the model's choice (log 20) -/
  | fpuInterrupt
  deriving DecidableEq, Repr, Inhabited

/-- Memory: the bytes at physical addresses, in one canonical form (State.lean, `Memory.wf`). -/
abbrev Memory := List Host.Cell

/-- What an access to memory is for (the access kind of 20_memory.md R86). -/
inductive AccessKind where
  | fetch | read | write
  deriving DecidableEq, Repr, Inhabited

/-- The arguments of `translate` (20_memory.md R86), and in `pc` the address of the instruction, on which `pf_addr` may
depend: whether CR2 receives that address or the address of the access is open (N18, D12; log 7). -/
structure TranslateRequest where
  pc : Word
  cr3 : Word
  pse : Bool
  pae : Bool
  pge : Bool
  wp : Bool
  cpl : BitVec 2
  kind : AccessKind
  linear : Word
  deriving DecidableEq, Repr, Inhabited

/-- A page as the translation finds it: the physical address, and the two properties 20_memory.md R87 speaks of. -/
structure Page where
  phys : BitVec 36
  user : Bool
  readOnly : Bool
  deriving DecidableEq, Repr, Inhabited

/-- What the translation answers: the page, or none for a page fault, and the address CR2 receives if the access ends
in a page fault (`pf_addr`, D12). -/
structure Translation where
  page : Option Page
  pfAddr : Word
  deriving DecidableEq, Repr, Inhabited

/-! ### Records the free values fill -/

/-- What the delivery of an exception, or a task switch, leaves behind: where control goes and what is saved are not in
the spec (60_exceptions.md R245, 41_ts_clts.md R170, 40_mov_cr.md R157), so all of it is open. State that this record
does not name is kept, which is the model's choice (log 6, 18). -/
structure Transfer where
  regs : Regs
  pc : Word
  eflags : Word
  cpl : BitVec 2
  stores : List (BitVec 36 × Byte)
  taskSwitch : Bool
  deriving DecidableEq, Repr, Inhabited

/-- What an x87, MMX, SSE or SSE2 instruction does once its gate passes: not in the spec (42_fpu_simd_gating.md R180,
U28), so all of it is open: the contexts, an integer destination, the status flags, the bytes it reads or stores at
its memory operand with the boundary they must lie on, and whether an x87 instruction ends a pending x87 error (log 12,
20, 21). -/
structure NumericEffect where
  fpu : Fpu
  sse : Sse
  gpr : Option (Reg × Word)
  status : Option Word
  read : Nat
  stores : List Byte
  boundary : Nat
  endsError : Bool
  deriving DecidableEq, Repr, Inhabited

/-- The four registers CPUID answers in (43_cr4_gated.md R214, 93 G5). -/
structure CpuidAnswer where
  eax : Word
  ebx : Word
  ecx : Word
  edx : Word
  deriving DecidableEq, Repr, Inhabited

/-- What `insn_class` says of the bytes of an instruction that is no row of the table: its class, and its memory operand if it
has one (00_scope.md R4, D13; log 13). -/
structure ClassInfo where
  cls : InsnClass
  operand : Option MemOperand
  deriving DecidableEq, Repr, Inhabited

/-! ### Free values: opaque constants, applied to what they depend on and to the counter `State.draws`

That each depends on its arguments and on nothing else of the state is the model's choice (log 38), but for what the spec says:
`insn_class` is a function of the instruction (00_scope.md R4; of its own bytes, and how these are found is log 13), `translate` one of its arguments (20_memory.md R86). -/

/-- The status flags after a MOV to or from CRn (40_mov_cr.md R153, D21; log 9). -/
opaque Config.freeFlags : Nat → Word

/-- The count RDTSC reads (43_cr4_gated.md R210, D30; log 16). -/
opaque Config.freeTsc : Nat → BitVec 64

/-- The count RDPMC reads from the counter whose number is in ECX (43_cr4_gated.md R211, D30; log 16). -/
opaque Config.freePmc : Word → Nat → BitVec 64

/-- The answer of CPUID for the values of EAX and ECX, before the named bits are put in (R214; log 17). -/
opaque Config.freeCpuid : Word → Word → Nat → CpuidAnswer

/-- What a read gives at a physical address that is no memory of the model, from the address (20_memory.md R89, R93; log 36,
37). -/
opaque Config.platformRead : Nat → Nat → Byte

/-- Whether an x87 instruction waits for a pending error, from its bytes: the spec speaks of "the next waiting x87
instruction" and lists none (60_exceptions.md R239; log 20). -/
opaque Config.x87Waits : List Byte → Bool

/-- The bytes of an FXSAVE image that hold no register the spec names, by their offset (R190, U30; log 10). -/
opaque Config.freeByte : Nat → Nat → Byte

/-- What a read of a debug register gives, from its number and what it holds (43_cr4_gated.md R212: "what is read is not
in the source"; log 15). -/
opaque Config.debugRead : BitVec 3 → Word → Nat → Word

/-- What a debug register holds after a write, from its number, its old value and the value written (R213: "what is
written is not in the source"; log 15). -/
opaque Config.debugImage : BitVec 3 → Word → Word → Word

/-- The effect of a numeric instruction, from its bytes (R180, U28, D13; log 12). -/
opaque Config.numericEffect : List Byte → Nat → NumericEffect

/-- `simd_fp_unmasked`: whether this execution detects an unmasked SIMD floating-point exception (R185, D26). The spec leaves it
open for each execution and does not say what it depends on: that it depends on the bytes and a draw only, and not on MXCSR, the
registers or memory, is the model's choice (log 14). -/
opaque Config.simdFpUnmasked : List Byte → Nat → Bool

/-- Whether an SSE or SSE2 instruction operates on floating-point numbers, from its bytes: only those that do can raise #XF, or the
#UD in its place (60_exceptions.md R234, R185). Which do the spec does not list (log 14). -/
opaque Config.operatesOnFloats : List Byte → Bool

/-- `insn_class` for an instruction that is no row of the table, from its own bytes (R180, D13, U38; log 13). -/
opaque Config.insnClass : List Byte → ClassInfo

/-- Whether bytes that match no row are a whole instruction. How many bytes such an instruction has is not in the spec: that a test of
the bytes so far finds its end, without a look at the bytes after it, is the model's choice (log 13). -/
opaque Config.insnWhole : List Byte → Bool

/-- `translate` (20_memory.md R86, D32). It may also depend on memory, where the tables are (log 7). -/
opaque Config.translate : TranslateRequest → Memory → Translation

/-- The delivery of an exception raised by the instruction at an address (60_exceptions.md R245, D11). That its outcome depends on
these and a draw only, and not on registers or memory before, is the model's choice (log 6). -/
opaque Config.deliver : Exc → Word → Nat → Transfer

/-- What a task switch changes besides CR0.TS (41_ts_clts.md R170, D29). That it depends on a draw only is the model's choice (log
18). -/
opaque Config.taskSwitch : Nat → Transfer

end Sys2Proof
end

