-- ==== Sys2Proof/WellFormed.lean ====
section
/-! DEFINITION. Which instruction terms have an encoding (30_encoding.md R111, section 1; log 8). -/

namespace Sys2Proof

/-- A memory operand has `mod` other than 11b, no SIB byte unless its form has one, and a displacement that fits the
bytes its form has. -/
abbrev MemOperand.WellFormed (m : MemOperand) : Prop :=
  m.md ≠ 3#2 ∧ (m.rm ≠ 4#3 → m.sib = 0#8) ∧ m.disp.toNat < 256 ^ m.dispSize

/-- A register form is any `rm`; a memory form is a well-formed memory operand. -/
abbrev RmOperand.WellFormed (o : RmOperand) : Prop :=
  match o with
  | .reg _ => True
  | .mem m => m.WellFormed

/-- The memory operand of an instruction, where it has one. -/
def Instr.operand : Instr → Option MemOperand
  | .x87 _ _ (.mem m) => some m
  | .fxsave m | .fxrstor m | .prefetchnta m | .prefetcht0 m | .prefetcht1 m | .prefetcht2 m | .clflush m => some m
  | .movnti m _ => some m
  | _ => none

/-- An instruction is well-formed when its memory operand, if any, is. -/
abbrev Instr.WellFormed (i : Instr) : Prop :=
  ∀ m ∈ i.operand, m.WellFormed

end Sys2Proof
end

