-- ==== Sys2Proof/Decode.lean ====
section
/-! DEFINITION. Decoding the bytes of an instruction, and the encoder (30_encoding.md; every encoding there is marked
general knowledge, 93 G1, D31). -/

namespace Sys2Proof

/-! ### Register numbers and the ModR/M byte (30_encoding.md R111) -/

/-- The general register a number names (10_state.md R70). -/
def Reg.ofBits (n : BitVec 3) : Reg :=
  if n = 0#3 then .eax else if n = 1#3 then .ecx else if n = 2#3 then .edx else if n = 3#3 then .ebx
  else if n = 4#3 then .esp else if n = 5#3 then .ebp else if n = 6#3 then .esi else .edi

/-- The number of a general register. -/
def Reg.toBits : Reg → BitVec 3
  | .eax => 0#3 | .ecx => 1#3 | .edx => 2#3 | .ebx => 3#3 | .esp => 4#3 | .ebp => 5#3 | .esi => 6#3 | .edi => 7#3

/-- `mod`, bits 7:6. -/
def modField (b : Byte) : BitVec 2 := b.extractLsb' 6 2

/-- `reg`, bits 5:3. -/
def regField (b : Byte) : BitVec 3 := b.extractLsb' 3 3

/-- `rm`, bits 2:0. -/
def rmField (b : Byte) : BitVec 3 := b.extractLsb' 0 3

/-- The ModR/M byte of three fields. -/
def modRM (md : BitVec 2) (reg rm : BitVec 3) : Byte := (md ++ reg) ++ rm

/-! ### Little-endian numbers (20_memory.md R90, D9) -/

/-- A number of four bytes, the first least significant. -/
def leWord (b0 b1 b2 b3 : Byte) : Word := ((b3 ++ b2) ++ b1) ++ b0

/-- The four bytes of a word, the least significant first. -/
def wordBytes (w : Word) : List Byte :=
  [w.extractLsb' 0 8, w.extractLsb' 8 8, w.extractLsb' 16 8, w.extractLsb' 24 8]

/-! ### Results -/

/-- Why bytes are refused by name. -/
inductive DecodeRefusal where
  /-- a form with a prefix byte, other than PAUSE's F3 and the 66, F2 or F3 that belong to an SSE or SSE2 opcode (R125,
  U21) -/
  | prefixedForm
  /-- LMSW or SMSW (U20) -/
  | machineStatusWord
  /-- a MOV to or from a debug register other than DR4 and DR5 (R118) -/
  | otherDebugRegister
  deriving DecidableEq, Repr

/-- What the decoder reads from a list of bytes. -/
inductive Decoded where
  /-- a row of the table, and its length in bytes -/
  | instr (i : Instr) (len : Nat)
  /-- the bytes end inside the instruction -/
  | truncated
  /-- bytes the spec says to refuse -/
  | refused (why : DecodeRefusal)
  /-- bytes that match no row: left to `insn_class` (U38) -/
  | unlisted
  deriving DecidableEq, Repr

/-! ### Memory operands (R110, R111; lengths log 8) -/

/-- The SIB byte, if the form has one, and the rest. -/
def takeSib (rm : BitVec 3) : List Byte → Option (Byte × List Byte)
  | bs => if rm = 4#3 then (match bs with | [] => none | b :: rest => some (b, rest)) else some (0#8, bs)

/-- A displacement of 0, 1 or 4 bytes as one little-endian number. -/
def takeDisp (n : Nat) (bs : List Byte) : Option Word :=
  if n = 0 then some 0#32
  else if n = 1 then (match bs with | b :: _ => some (b.setWidth 32) | _ => none)
  else (match bs with | b0 :: b1 :: b2 :: b3 :: _ => some (leWord b0 b1 b2 b3) | _ => none)

/-- The memory operand that follows a ModR/M byte. -/
def takeOperand (md : BitVec 2) (rm : BitVec 3) (bs : List Byte) : Option MemOperand :=
  match takeSib rm bs with
  | none => none
  | some (sib, rest) =>
    match takeDisp (MemOperand.dispSize ⟨md, rm, sib, 0#32⟩) rest with
    | none => none
    | some disp => some ⟨md, rm, sib, disp⟩

/-- A form of OP2_M: `mod` is not 11b (R111; the table's `constraint`). -/
def memoryForm (mk : MemOperand → Instr) (md : BitVec 2) (rm : BitVec 3) (bs : List Byte) : Decoded :=
  if md = 3#2 then .unlisted
  else match takeOperand md rm bs with
    | none => .truncated
    | some m => .instr (mk m) (3 + m.size)

/-! ### The rows by opcode -/

/-- `0F 20`: MOV from a control register (R112). -/
def movFromCr (md : BitVec 2) (n : BitVec 3) (r : Reg) : Instr :=
  if n = 0#3 then .movR32Cr0 md r else if n = 1#3 then .movR32Cr1 md r
  else if n = 2#3 then .movR32Cr2 md r else if n = 3#3 then .movR32Cr3 md r
  else if n = 4#3 then .movR32Cr4 md r else if n = 5#3 then .movR32Cr5 md r
  else if n = 6#3 then .movR32Cr6 md r else .movR32Cr7 md r

/-- `0F 22`: MOV to a control register (R113). -/
def movToCr (md : BitVec 2) (n : BitVec 3) (r : Reg) : Instr :=
  if n = 0#3 then .movCr0R32 md r else if n = 1#3 then .movCr1R32 md r
  else if n = 2#3 then .movCr2R32 md r else if n = 3#3 then .movCr3R32 md r
  else if n = 4#3 then .movCr4R32 md r else if n = 5#3 then .movCr5R32 md r
  else if n = 6#3 then .movCr6R32 md r else .movCr7R32 md r

/-- `0F 21`: MOV from a debug register (R118). -/
def movFromDr (md : BitVec 2) (n : BitVec 3) (r : Reg) : Decoded :=
  if n = 4#3 then .instr (.movR32Dr4 md r) 3
  else if n = 5#3 then .instr (.movR32Dr5 md r) 3
  else .refused .otherDebugRegister

/-- `0F 23`: MOV to a debug register (R118). -/
def movToDr (md : BitVec 2) (n : BitVec 3) (r : Reg) : Decoded :=
  if n = 4#3 then .instr (.movDr4R32 md r) 3
  else if n = 5#3 then .instr (.movDr5R32 md r) 3
  else .refused .otherDebugRegister

/-- `0F 18`: the prefetch hints (R120). -/
def prefetchForm (md : BitVec 2) (n rm : BitVec 3) (bs : List Byte) : Decoded :=
  if n = 0#3 then memoryForm .prefetchnta md rm bs
  else if n = 1#3 then memoryForm .prefetcht0 md rm bs
  else if n = 2#3 then memoryForm .prefetcht1 md rm bs
  else if n = 3#3 then memoryForm .prefetcht2 md rm bs
  else .unlisted

/-- `0F AE`: FXSAVE, FXRSTOR, CLFLUSH and, with `mod` = 11b, the fences (R119, R120). -/
def groupAE (md : BitVec 2) (n rm : BitVec 3) (bs : List Byte) : Decoded :=
  if md = 3#2 then
    if n = 7#3 ∧ rm = 0#3 then .instr .sfence 3
    else if n = 5#3 ∧ rm = 0#3 then .instr .lfence 3
    else if n = 6#3 ∧ rm = 0#3 then .instr .mfence 3
    else .unlisted
  else if n = 0#3 then memoryForm .fxsave md rm bs
  else if n = 1#3 then memoryForm .fxrstor md rm bs
  else if n = 7#3 then memoryForm .clflush md rm bs
  else .unlisted

/-- The forms `0F op modrm`. The spec refuses LMSW and SMSW (U20) and gives no encoding of them: that they are `0F 01` with `reg`
6 and 4, any `mod`, is PRESUMED (log 25). -/
def decodeModRM (op : Byte) (md : BitVec 2) (n rm : BitVec 3) (bs : List Byte) : Decoded :=
  if op = 0x20#8 then .instr (movFromCr md n (Reg.ofBits rm)) 3
  else if op = 0x22#8 then .instr (movToCr md n (Reg.ofBits rm)) 3
  else if op = 0x21#8 then movFromDr md n (Reg.ofBits rm)
  else if op = 0x23#8 then movToDr md n (Reg.ofBits rm)
  else if op = 0xAE#8 then groupAE md n rm bs
  else if op = 0x18#8 then prefetchForm md n rm bs
  else if op = 0xC3#8 then memoryForm (fun m => .movnti m (Reg.ofBits n)) md rm bs
  else if op = 0x01#8 ∧ (n = 4#3 ∨ n = 6#3) then .refused .machineStatusWord
  else .unlisted

/-- The second opcode bytes that a ModR/M byte must follow before anything can be said. -/
def needsModRM (op : Byte) : Bool :=
  op == 0x20#8 || op == 0x22#8 || op == 0x21#8 || op == 0x23#8 || op == 0xAE#8 || op == 0x18#8 || op == 0xC3#8
    || op == 0x01#8

/-- The opcodes after the escape byte 0Fh (R110). -/
def decodeEscape : List Byte → Decoded
  | [] => .truncated
  | op :: rest =>
    if op = 0x06#8 then .instr .clts 2
    else if op = 0x31#8 then .instr .rdtsc 2
    else if op = 0x33#8 then .instr .rdpmc 2
    else if op = 0xA2#8 then .instr .cpuid 2
    else if needsModRM op then
      match rest with
      | [] => .truncated
      | b :: bs => decodeModRM op (modField b) (regField b) (rmField b) bs
    else .unlisted

/-- The x87 class: first byte D8 to DF, then a ModR/M byte (R116). -/
def decodeX87 (op : BitVec 3) : List Byte → Decoded
  | [] => .truncated
  | b :: bs =>
    if modField b = 3#2 then .instr (.x87 op (regField b) (.reg (rmField b))) 2
    else match takeOperand (modField b) (rmField b) bs with
      | none => .truncated
      | some m => .instr (.x87 op (regField b) (.mem m)) (2 + m.size)

/-- PAUSE: F3 90 (R120). -/
def decodeF3 : List Byte → Decoded
  | [] => .truncated
  | b :: _ => if b = 0x90#8 then .instr .pause 2 else .unlisted

/-- The rows of the table, without regard to prefix bytes other than PAUSE's. -/
def decodeRow : List Byte → Decoded
  | [] => .truncated
  | b :: rest =>
    if b = 0x0F#8 then decodeEscape rest
    else if b = 0x9B#8 then .instr .wait 1
    else if b = 0xF3#8 then decodeF3 rest
    else if b.extractLsb' 3 5 = 0x1B#5 then decodeX87 (b.extractLsb' 0 3) rest
    else .unlisted

/-! ### Prefix bytes (R110, R125, U21; which bytes are prefixes is PRESUMED, log 25) -/

/-- LOCK, REPNE, REP, the size prefixes and the segment prefixes. -/
def isPrefixByte (b : Byte) : Bool :=
  b == 0xF0#8 || b == 0xF2#8 || b == 0xF3#8 || b == 0x66#8 || b == 0x67#8 || b == 0x2E#8 || b == 0x36#8
    || b == 0x3E#8 || b == 0x26#8 || b == 0x64#8 || b == 0x65#8

/-- What follows the prefix bytes. -/
def decodeAfterPrefixes : List Byte → Decoded
  | [] => .truncated
  | b :: rest =>
    match decodeRow (b :: rest) with
    | .unlisted => if isPrefixByte b then decodeAfterPrefixes rest else .unlisted
    | d => d

/-- The prefix bytes that can belong to the opcode of an SSE or SSE2 instruction (U21). -/
def isOpcodePrefix (b : Byte) : Bool := b == 0x66#8 || b == 0xF2#8 || b == 0xF3#8

/-- Bytes that are no row as they stand. A prefixed form of a row is refused (D31), and so is every other prefixed form (U21) but
for one 66, F2 or F3, which may belong to an SSE or SSE2 opcode: those bytes, and bytes without a prefix, are unlisted. -/
def decodePrefixed : List Byte → Decoded
  | [] => .truncated
  | b :: rest =>
    if isPrefixByte b then
      match decodeAfterPrefixes rest with
      | .instr _ _ => .refused .prefixedForm
      | .unlisted => if isOpcodePrefix b && !(rest.take 1).any isPrefixByte then .unlisted else .refused .prefixedForm
      | d => d
    else .unlisted

/-- The decoder: total on any bytes, refusing by name. -/
def decode (bs : List Byte) : Decoded :=
  match decodeRow bs with
  | .unlisted => decodePrefixed bs
  | d => d

/-! ### Classes of instructions (42_fpu_simd_gating.md R180; D13) -/

/-- The class of a row of the table. FXSAVE and FXRSTOR have rules of their own and are in no gated class. -/
def Instr.insnClass : Instr → InsnClass
  | .x87 _ _ _ => .x87Fp
  | .wait => .wait
  | .pause | .prefetchnta _ | .prefetcht0 _ | .prefetcht1 _ | .prefetcht2 _ | .sfence | .lfence | .mfence
  | .movnti _ _ | .clflush _ => .exempt
  | _ => .other

/-- PXOR xmm0,xmm0 (30_encoding.md R121). -/
def pxorBytes : List Byte := [0x66#8, 0x0F#8, 0xEF#8, 0xC0#8]

/-- The three instructions without a row whose bytes the spec gives (30_encoding.md R121, general knowledge there): EMMS, XORPS
xmm0,xmm0 and PXOR xmm0,xmm0, each with its class (log 13). -/
def classExamples : List (List Byte × InsnClass) :=
  [([0x0F#8, 0x77#8], .mmx), ([0x0F#8, 0x57#8, 0xC0#8], .sse), (pxorBytes, .sse2)]

/-- `insn_class` for an instruction that is no row, from its own bytes: the examples of R121, and the open parameter for all
others (log 13). -/
def classify (bs : List Byte) : ClassInfo :=
  match classExamples.find? fun e => e.1 == bs with
  | some e => ⟨e.2, none⟩
  | none => Config.insnClass bs

/-- Whether bytes that match no row are a whole instruction: an example of R121 is, no shorter part of one is, and of all other
bytes it is open. The spec does not say how the extent of such an instruction is found (the model's choice, log 13). -/
def isWhole (bs : List Byte) : Bool :=
  if classExamples.any fun e => bs.isPrefixOf e.1 then classExamples.any fun e => e.1 == bs else Config.insnWhole bs

/-- The first bytes, after those already read, that make a whole instruction. -/
def wholeAfter (read : List Byte) : List Byte → Option (List Byte)
  | [] => none
  | b :: rest => if isWhole (read ++ [b]) then some (read ++ [b]) else wholeAfter (read ++ [b]) rest

/-- The bytes of the instruction that stands first among bytes that match no row, if it ends among them: the fewest that are a whole
instruction. So what follows an instruction has no part in its extent, its class or its operand: `insn_class` is a "function from
an instruction" (00_scope.md R4). -/
def unlistedBytes (bs : List Byte) : Option (List Byte) := wholeAfter [] bs

/-- Whether an SSE or SSE2 instruction operates on floating-point numbers (60_exceptions.md R234): PXOR, an integer operation, does
not (PRESUMED, log 14), and of all others it is open. -/
def operatesOnFloats (bs : List Byte) : Bool := bs != pxorBytes && Config.operatesOnFloats bs

/-! ### Lengths and the encoder -/

/-- `len` of 00_scope.md section 6: the length in bytes (the table's `length`). -/
def Instr.length : Instr → Nat
  | .wait => 1
  | .clts | .rdtsc | .rdpmc | .cpuid | .pause => 2
  | .x87 _ _ (.reg _) => 2
  | .x87 _ _ (.mem m) => 2 + m.size
  | .fxsave m | .fxrstor m | .prefetchnta m | .prefetcht0 m | .prefetcht1 m | .prefetcht2 m | .clflush m => 3 + m.size
  | .movnti m _ => 3 + m.size
  | _ => 3

/-- The SIB and displacement bytes of an operand. -/
def MemOperand.tail (m : MemOperand) : List Byte :=
  (if m.sibSize = 1 then [m.sib] else []) ++ (wordBytes m.disp).take m.dispSize

/-- The bytes `0F op modrm` of a register form. -/
def encodeRR (op : Byte) (md : BitVec 2) (n : BitVec 3) (r : Reg) : List Byte :=
  [0x0F#8, op, modRM md n r.toBits]

/-- The bytes `0F op modrm [sib] [disp]` of a memory form. -/
def encodeM (op : Byte) (n : BitVec 3) (m : MemOperand) : List Byte :=
  0x0F#8 :: op :: modRM m.md n m.rm :: m.tail

/-- The encoder: the bytes of an instruction, by ascending address. -/
def encode : Instr → List Byte
  | .movR32Cr0 md r => encodeRR 0x20#8 md 0#3 r
  | .movR32Cr1 md r => encodeRR 0x20#8 md 1#3 r
  | .movR32Cr2 md r => encodeRR 0x20#8 md 2#3 r
  | .movR32Cr3 md r => encodeRR 0x20#8 md 3#3 r
  | .movR32Cr4 md r => encodeRR 0x20#8 md 4#3 r
  | .movR32Cr5 md r => encodeRR 0x20#8 md 5#3 r
  | .movR32Cr6 md r => encodeRR 0x20#8 md 6#3 r
  | .movR32Cr7 md r => encodeRR 0x20#8 md 7#3 r
  | .movCr0R32 md r => encodeRR 0x22#8 md 0#3 r
  | .movCr1R32 md r => encodeRR 0x22#8 md 1#3 r
  | .movCr2R32 md r => encodeRR 0x22#8 md 2#3 r
  | .movCr3R32 md r => encodeRR 0x22#8 md 3#3 r
  | .movCr4R32 md r => encodeRR 0x22#8 md 4#3 r
  | .movCr5R32 md r => encodeRR 0x22#8 md 5#3 r
  | .movCr6R32 md r => encodeRR 0x22#8 md 6#3 r
  | .movCr7R32 md r => encodeRR 0x22#8 md 7#3 r
  | .clts => [0x0F#8, 0x06#8]
  | .wait => [0x9B#8]
  | .x87 op n (.reg rm) => [(0x1B#5 ++ op : Byte), modRM 3#2 n rm]
  | .x87 op n (.mem m) => (0x1B#5 ++ op : Byte) :: modRM m.md n m.rm :: m.tail
  | .rdtsc => [0x0F#8, 0x31#8]
  | .rdpmc => [0x0F#8, 0x33#8]
  | .cpuid => [0x0F#8, 0xA2#8]
  | .movR32Dr4 md r => encodeRR 0x21#8 md 4#3 r
  | .movR32Dr5 md r => encodeRR 0x21#8 md 5#3 r
  | .movDr4R32 md r => encodeRR 0x23#8 md 4#3 r
  | .movDr5R32 md r => encodeRR 0x23#8 md 5#3 r
  | .fxsave m => encodeM 0xAE#8 0#3 m
  | .fxrstor m => encodeM 0xAE#8 1#3 m
  | .pause => [0xF3#8, 0x90#8]
  | .prefetchnta m => encodeM 0x18#8 0#3 m
  | .prefetcht0 m => encodeM 0x18#8 1#3 m
  | .prefetcht1 m => encodeM 0x18#8 2#3 m
  | .prefetcht2 m => encodeM 0x18#8 3#3 m
  | .sfence => [0x0F#8, 0xAE#8, 0xF8#8]
  | .lfence => [0x0F#8, 0xAE#8, 0xE8#8]
  | .mfence => [0x0F#8, 0xAE#8, 0xF0#8]
  | .movnti m g => encodeM 0xC3#8 g.toBits m
  | .clflush m => encodeM 0xAE#8 7#3 m

/-! ### Words numbered as the opcode table numbers them (log 29) -/

/-- The longest instruction of the table: MOVNTI and its like with a SIB byte and a 32-bit displacement. -/
def longestInstr : Nat := 8

/-- The first `n` bytes of an instruction whose bits are `w`. The table's `fixed` and `fields` read the bytes as ONE number
with the first byte most significant ("0F 06" is 0F06h = 3846, hi 15, lo 0). -/
def tableBytes : Nat → Nat → List Byte
  | 0, _ => []
  | n + 1, w => BitVec.ofNat 8 (w / 256 ^ n) :: tableBytes n w

/-- Those bytes, and zeros up to the longest instruction. -/
def paddedTableBytes (nbits w : Nat) : List Byte :=
  tableBytes (nbits / 8) w ++ List.replicate (longestInstr - nbits / 8) 0#8

/-- The instruction the decoder reads from an instruction whose bits are `w`. -/
def decodeTableWord (nbits w : Nat) : Option Instr :=
  match decode (paddedTableBytes nbits w) with
  | .instr i _ => some i
  | _ => none

end Sys2Proof
end

