-- ==== Sys2Proof/Machine/State.lean ====
section
/-! DEFINITION. The state of the machine as plain data, the reasons a step can stop, and the state after reset
(10_state.md; INVENTORY.md "State"). -/

namespace Sys2Proof.Machine

/-- Why the machine stops (`model_fault`, 92_eei_decisions.md D35: "an outcome of a step distinct from an exception").
All are safe: the model goes no further where the hardware may. -/
inductive Fault where
  /-- A MOV to CR0, CR3 or CR4 that changes a reserved bit (40_mov_cr.md R152, D5). Raised by execMovCr0R32,
  execMovCr3R32, execMovCr4R32. Safe. -/
  | reservedBitsChanged
  /-- A MOV to CR4 that sets PGE while paging is not enabled (40_mov_cr.md R149, D20). Raised by execMovCr4R32. Safe. -/
  | pgeBeforePg
  /-- An x87 instruction that passes its gate on a processor without an FPU (42_fpu_simd_gating.md R194, D34). Raised by
  execX87. Safe. -/
  | noFpu
  /-- A machine-check condition that arrives while CR4.MCE = 0: "not in the source" (60_exceptions.md R237). Raised by
  the arrival of the event, never by an instruction. Safe (log 19). -/
  | machineCheckDisabled
  deriving DecidableEq, Repr

/-- Why a step has no meaning. All are safe: the model says less than the hardware does. -/
inductive Refusal where
  /-- An instruction of the table without a meaning; raised by exec's arms only. Safe. -/
  | notModelled (mnemonic : String)
  /-- A prefixed form of a row of the table, or of an MMX, SSE or SSE2 instruction whose prefix is no part of its opcode
  (30_encoding.md R125, U21). Raised by the fetch. Safe. -/
  | prefixedForm
  /-- LMSW or SMSW (U20). Raised by the fetch. Safe. -/
  | machineStatusWord
  /-- A MOV to or from a debug register other than DR4 and DR5 (30_encoding.md R118). Raised by the fetch. Safe. -/
  | otherDebugRegister
  /-- An instruction that is no row and that `insn_class` puts in no gated class (U38). Raised by execUnlisted. Safe. -/
  | unlistedInstruction
  /-- 15 bytes without the end of an instruction (30_encoding.md R110). Raised by the fetch. Safe. -/
  | tooLong
  deriving DecidableEq, Repr

/-- What can arrive from outside the processor between instructions (41_ts_clts.md R170, 60_exceptions.md R237,
42_fpu_simd_gating.md R192; log 18, 19, 20). -/
inductive Event where
  | taskSwitch
  | machineCheck
  | fpuError
  /-- the input pin IGNNE# is driven to a level (60_exceptions.md R239) -/
  | ignne (asserted : Bool)
  deriving DecidableEq, Repr

/-- What unlisted memory reads as: 00h (DESIGN CHOICE, unsafe; log 5). -/
def unlistedByte : Byte := 0#8

/-- The canonical form of memory: addresses strictly rising and inside the physical space of 36 bits (20_memory.md R83),
and no entry equal to what an unlisted address reads as. -/
abbrev Memory.wf (m : Memory) : Prop :=
  m.Pairwise (fun c d => c.1 < d.1) ∧ ∀ c ∈ m, c.1 < 2 ^ 36 ∧ c.2 ≠ unlistedByte

/-- The state (10_state.md). CR1 holds no state (R37); the mode is computed (R68); caches and the TLB are not held (log
24). `params`, `raised`, `arrivals` and `draws` are the model's own. -/
structure State where
  /-- the parameters of 00_scope.md R4; constant -/
  params : Params
  /-- the general registers (R70) -/
  regs : Regs
  /-- the address of the instruction to be executed next (R71) -/
  pc : Word
  /-- EFLAGS: AC, VIF (R65), VM (R68), the status flags (40_mov_cr.md R153) -/
  eflags : Word
  /-- the current privilege level (R66) -/
  cpl : BitVec 2
  /-- CR0 (R24) -/
  cr0 : Word
  /-- CR2 (R38) -/
  cr2 : Word
  /-- CR3 (R39) -/
  cr3 : Word
  /-- CR4 (R45) -/
  cr4 : Word
  /-- DR4 (R73) -/
  dr4 : Word
  /-- DR5 (R73) -/
  dr5 : Word
  /-- the context of the x87 FPU and MMX (R72) -/
  fpu : Fpu
  /-- XMM and MXCSR (R72) -/
  sse : Sse
  /-- the time-stamp counter (R74) -/
  tsc : BitVec 64
  /-- the performance counter as last sampled (R74) -/
  pmc : BitVec 64
  /-- an unmasked x87 error is waiting to be reported (42_fpu_simd_gating.md R192) -/
  fpuError : Bool
  /-- the input pin IGNNE# is asserted (60_exceptions.md R239; log 20) -/
  ignne : Bool
  /-- the exception the last step ended with (60_exceptions.md R245; log 6) -/
  raised : Option Exc
  /-- what arrives from outside at the coming steps, `none` where nothing does (log 18) -/
  arrivals : List (Option Event)
  /-- memory, by physical address (20_memory.md R80) -/
  mem : Memory
  /-- the counter the free values are applied to (log 9) -/
  draws : Nat
  deriving DecidableEq, Repr

/-- The family's value of EDX after reset: the processor signature, its model and stepping digits 0 (PRESUMED, log 3). -/
def Proc.signature : Proc → Word
  | .intel386 => 0x00000300#32
  | .intel486 => 0x00000400#32
  | .pentium => 0x00000500#32
  | .p6 => 0x00000600#32
  | .pentium4 => 0x00000F00#32

/-- The x87 and MMX context after reset (PRESUMED, log 3). -/
def resetFpu : Fpu where
  control := 0x0040#16
  status := 0#16
  tag := 0xFF#8
  opcode := 0#16
  instrPtr := 0#32
  instrSel := 0#16
  dataPtr := 0#32
  dataSel := 0#16
  st := #v[0#80, 0#80, 0#80, 0#80, 0#80, 0#80, 0#80, 0#80]

/-- The SSE context after reset (PRESUMED, log 3). -/
def resetSse : Sse where
  xmm := #v[0#128, 0#128, 0#128, 0#128, 0#128, 0#128, 0#128, 0#128]
  mxcsr := 0x00001F80#32

/-- Reset of a processor with given parameters: the control registers at `reset_CRn` (10_state.md R76, D7), everything
else at the values the log names (log 2, 3, 4, 5). -/
def State.resetOf (p : Params) : State where
  params := p
  regs := ⟨0#32, 0#32, Proc.signature p.proc, 0#32, 0#32, 0#32, 0#32, 0#32⟩
  pc := 0xFFFFFFF0#32
  eflags := 0x00000002#32
  cpl := 0#2
  cr0 := p.resetCr0
  cr2 := p.resetCr2
  cr3 := p.resetCr3
  cr4 := p.resetCr4
  dr4 := 0xFFFF0FF0#32
  dr5 := 0x00000400#32
  fpu := resetFpu
  sse := resetSse
  tsc := 0#64
  pmc := 0#64
  fpuError := false
  ignne := false
  raised := none
  arrivals := []
  mem := []
  draws := 0

/-- The machine right after reset, with the parameters 95_test_vectors.md takes by default (log 1, 2). -/
def State.reset : State := State.resetOf Params.default

end Sys2Proof.Machine
end

