-- ==== Sys2Proof/Machine/Flags.lean ====
section
/-! DEFINITION. The flags of the control registers and of EFLAGS, and the formulas over them: mode, privilege, paging,
alignment checking, caching, reserved bits (10_state.md, 20_memory.md, 40_mov_cr.md). -/

namespace Sys2Proof.Machine

/-! ### Parameters computed from `proc` (00_scope.md R4) -/

/-- `et_hardwired`: CR0.ET is reserved and always set (10_state.md R31). -/
def etHardwired (p : Params) : Bool :=
  match p.proc with
  | .intel386 | .intel486 => false
  | .pentium | .p6 | .pentium4 => true

/-- A cache write policy. -/
inductive WritePolicy where
  | writeBack | writeThrough
  deriving DecidableEq, Repr

/-- `wb_cache`: the policy with CD = NW = 0 (10_state.md R27). The spec gives none for the Intel386. -/
def writePolicy (p : Params) : Option WritePolicy :=
  match p.proc with
  | .intel386 => none
  | .intel486 => some .writeThrough
  | .pentium | .p6 | .pentium4 => some .writeBack

/-! ### CR0 (10_state.md R24 to R35) -/

/-- CR0 as it reads: ET is 1 on a processor where it is hardwired, "whatever was written" (R31). -/
def State.readCr0 (s : State) : Word :=
  if etHardwired s.params then s.cr0 ||| 0x00000010#32 else s.cr0

/-- PG, bit 31 (R25). -/
def State.pg (s : State) : Bool := s.cr0.getLsbD 31
/-- CD, bit 30 (R26). -/
def State.cd (s : State) : Bool := s.cr0.getLsbD 30
/-- NW, bit 29 (R27). -/
def State.nw (s : State) : Bool := s.cr0.getLsbD 29
/-- AM, bit 18 (R28). -/
def State.am (s : State) : Bool := s.cr0.getLsbD 18
/-- WP, bit 16 (R29). -/
def State.wp (s : State) : Bool := s.cr0.getLsbD 16
/-- NE, bit 5 (R30). -/
def State.ne (s : State) : Bool := s.cr0.getLsbD 5
/-- TS, bit 3 (R32). -/
def State.ts (s : State) : Bool := s.cr0.getLsbD 3
/-- EM, bit 2 (R33). -/
def State.em (s : State) : Bool := s.cr0.getLsbD 2
/-- MP, bit 1 (R34). -/
def State.mp (s : State) : Bool := s.cr0.getLsbD 1
/-- PE, bit 0 (R35). -/
def State.pe (s : State) : Bool := s.cr0.getLsbD 0

/-! ### CR3 (10_state.md R39 to R43) -/

/-- PCD, bit 4 (R41). -/
def State.pcd (s : State) : Bool := s.cr3.getLsbD 4
/-- PWT, bit 3 (R42). -/
def State.pwt (s : State) : Bool := s.cr3.getLsbD 3

/-! ### CR4 (10_state.md R46 to R56) -/

/-- Flag `i` of a value of CR4: its bit, if the processor has the flag. An absent flag does not exist, whatever its reserved bit
holds (00_scope.md R5). -/
def cr4Flag (p : Params) (v : Word) (i : Nat) : Bool := p.cr4Present.getLsbD i && v.getLsbD i

/-- VME, bit 0 (R46). -/
def State.vme (s : State) : Bool := cr4Flag s.params s.cr4 0
/-- PVI, bit 1 (R47). -/
def State.pvi (s : State) : Bool := cr4Flag s.params s.cr4 1
/-- TSD, bit 2 (R48). -/
def State.tsd (s : State) : Bool := cr4Flag s.params s.cr4 2
/-- DE, bit 3 (R49). -/
def State.de (s : State) : Bool := cr4Flag s.params s.cr4 3
/-- PSE, bit 4 (R50). -/
def State.pse (s : State) : Bool := cr4Flag s.params s.cr4 4
/-- PAE, bit 5 (R51). -/
def State.pae (s : State) : Bool := cr4Flag s.params s.cr4 5
/-- MCE, bit 6 (R52). -/
def State.mce (s : State) : Bool := cr4Flag s.params s.cr4 6
/-- PGE, bit 7 (R53). -/
def State.pge (s : State) : Bool := cr4Flag s.params s.cr4 7
/-- PCE, bit 8 (R54). -/
def State.pce (s : State) : Bool := cr4Flag s.params s.cr4 8
/-- OSFXSR, bit 9 (R55). -/
def State.osfxsr (s : State) : Bool := cr4Flag s.params s.cr4 9
/-- OSXMMEXCPT, bit 10 (R56). -/
def State.osxmmexcpt (s : State) : Bool := cr4Flag s.params s.cr4 10

/-! ### EFLAGS (10_state.md R65, R68; positions log 9) -/

/-- VM, bit 17: the `vm` of R68. -/
def vmOf (eflags : Word) : Bool := eflags.getLsbD 17
/-- `vm` of R68. -/
def State.vm (s : State) : Bool := vmOf s.eflags
/-- AC, bit 18 (R65). -/
def State.ac (s : State) : Bool := s.eflags.getLsbD 18
/-- VIF, bit 19 (R65); no rule of the spec reads it. -/
def State.vif (s : State) : Bool := s.eflags.getLsbD 19

/-- OF, SF, ZF, AF, PF and CF (40_mov_cr.md R153; bits 11, 7, 6, 4, 2, 0, PRESUMED, log 9). -/
def statusMask : Word := 0x000008D5#32

/-- EFLAGS with the status flags taken from another word. -/
def withStatus (eflags status : Word) : Word := (eflags &&& ~~~statusMask) ||| (status &&& statusMask)

/-! ### Mode and privilege (10_state.md R68, 40_mov_cr.md R141) -/

/-- The operating mode. -/
inductive Mode where
  | realMode | protectedMode | v86Mode
  deriving DecidableEq, Repr

/-- `mode` (10_state.md R68). -/
def State.mode (s : State) : Mode :=
  if s.pe then (if s.vm then .v86Mode else .protectedMode) else .realMode

/-- `priv_ok` (40_mov_cr.md R141): real-address mode, or protected mode at privilege level 0. -/
def State.privOk (s : State) : Bool :=
  match s.mode with
  | .realMode => true
  | .protectedMode => s.cpl == 0#2
  | .v86Mode => false

/-- `mode != real and CPL != 0`: the level the gates of RDTSC and RDPMC shut out (43_cr4_gated.md R210, R211). -/
def State.outsideLevel0 (s : State) : Bool :=
  s.mode != .realMode && s.cpl != 0#2

/-! ### Reserved bits (40_mov_cr.md, the constants; 10_state.md R36, R44, R57) -/

/-- RSVD0: bits 28:19, 17 and 15:6 of CR0, and ET where it is hardwired. -/
def rsvd0 (p : Params) : Word := if etHardwired p then 0x1FFAFFD0#32 else 0x1FFAFFC0#32

/-- RSVD3: bits 11:5 and 2:0 of CR3; with CR4.PAE set, what `pae_cr3_layout` leaves (40_mov_cr.md R148, log 27). -/
def State.rsvd3 (s : State) : Word :=
  if s.pae then ~~~(s.params.paeCr3Base ||| 0x00000018#32) else 0x00000FE7#32

/-- RSVD4: bits 31:11 of CR4 and every absent flag (00_scope.md R5). -/
def rsvd4 (p : Params) : Word := 0xFFFFF800#32 ||| (~~~(p.cr4Present.setWidth 32) &&& 0x000007FF#32)

/-! ### Paging (20_memory.md R81 to R83) -/

/-- Paging is active (R81). -/
def State.pagingActive (s : State) : Bool := s.pg && s.pe

/-- `phys_addr_bits` (R83). -/
def State.physAddrBits (s : State) : Nat := if s.pae then 36 else 32

/-- The physical base of the top-level table: the page directory (R82), or with PAE the PDP table (R83, 10_state.md R43). -/
def State.tableBase (s : State) : Word :=
  if s.pae then s.cr3 &&& s.params.paeCr3Base else s.cr3 &&& 0xFFFFF000#32

/-- The page sizes paging may use, in bytes: PSE adds 4 megabytes to 4 kilobytes (R84, 90_conflicts.md C8). -/
def State.pageSizes (s : State) : List Nat := if s.pse then [4096, 4194304] else [4096]

/-- Global pages may be used (R85); what being global changes is not in the spec. -/
def State.globalPages (s : State) : Bool := s.pge

/-! ### Alignment checking and caching (20_memory.md R92, R95, R97) -/

/-- `alignment_check_active` (R92). -/
def State.alignmentCheckActive (s : State) : Bool :=
  s.am && s.ac && s.cpl == 3#2 && (s.mode == .protectedMode || s.mode == .v86Mode)

/-- Caching of all of memory is enabled (R95). -/
def State.cachingEnabled (s : State) : Bool := !s.cd && !s.nw

/-- The policy under which memory is cached while CD = NW = 0 (R95); the other pairs are in a table the source has lost. -/
def State.cachePolicy (s : State) : Option WritePolicy :=
  if s.cachingEnabled then writePolicy s.params else none

/-- `pd_attr_used` (R97): the processor heeds CR3.PCD and CR3.PWT. -/
def State.pdAttrUsed (s : State) : Bool := s.pg && !s.cd

/-- How the page directory is cached while the flags are heeded: not at all, or under a policy (R97). -/
def State.pdCaching (s : State) : Option (Option WritePolicy) :=
  if s.pdAttrUsed then
    some (if s.pcd then none else some (if s.pwt then .writeThrough else .writeBack))
  else none

end Sys2Proof.Machine
end

