-- ==== Sys2Proof/Machine/Ops.lean ====
section
/-! DEFINITION. The named operations over registers and memory: register access, advancing the program counter, raising
and delivering an exception, memory bytes, address translation, data accesses (10_state.md, 20_memory.md, 60_exceptions.md). -/

namespace Sys2Proof.Machine

/-! ### General registers (10_state.md R70) -/

/-- Read a register of a register file. -/
def regOf (r : Reg) (f : Regs) : Word :=
  match r with
  | .eax => f.eax | .ecx => f.ecx | .edx => f.edx | .ebx => f.ebx
  | .esp => f.esp | .ebp => f.ebp | .esi => f.esi | .edi => f.edi

/-- Write a register of a register file; none is hardwired. -/
def putReg (r : Reg) (v : Word) (f : Regs) : Regs :=
  match r with
  | .eax => { f with eax := v } | .ecx => { f with ecx := v }
  | .edx => { f with edx := v } | .ebx => { f with ebx := v }
  | .esp => { f with esp := v } | .ebp => { f with ebp := v }
  | .esi => { f with esi := v } | .edi => { f with edi := v }

/-- `x[i]` of 00_scope.md section 6. -/
def State.reg (s : State) (r : Reg) : Word := regOf r s.regs

/-- `x[i] <- v`. -/
def State.setReg (s : State) (r : Reg) (v : Word) : State := { s with regs := putReg r v s.regs }

/-! ### Program counter, draws, status flags -/

/-- `pc <- pc + len` (10_state.md R71); it wraps at 2^32 (log 4). -/
def State.advance (s : State) (len : Nat) : State := { s with pc := s.pc + BitVec.ofNat 32 len }

/-- The next free values are fresh. -/
def State.drawn (s : State) : State := { s with draws := s.draws + 1 }

/-- The status flags become undefined (40_mov_cr.md R153); every other flag of EFLAGS is kept. -/
def State.freeStatus (s : State) : State :=
  { s with eflags := withStatus s.eflags (Config.freeFlags s.draws), draws := s.draws + 1 }

/-! ### Taking an exception (60_exceptions.md R245) -/

/-- `raise X(info)`: the step ends with exception X; nothing is written, `pc` still addresses the instruction (R245,
00_scope.md section 6). The exception is recorded for the delivery (log 6). -/
def State.raise (s : State) (e : Exc) : State := { s with raised := some e }

/-- `on PageFault(pf_addr): CR2 <- pf_addr`, and the exception (R236). -/
def State.raisePageFault (s : State) (pfAddr : Word) : State :=
  { s with cr2 := pfAddr, raised := some .pf }

/-- The vector number of an exception (R235, general knowledge there); the PC-style interrupt has none in the spec. -/
def excVector : Exc → Option Nat
  | .ud => some 6
  | .nm => some 7
  | .gp _ => some 13
  | .pf => some 14
  | .mf => some 16
  | .ac _ => some 17
  | .mc => some 18
  | .xf => some 19
  | .fpuInterrupt => none

/-- The error code an exception carries: #GP and #AC one, #UD, #NM and #XF none (R231 to R233, R92, 93 G3: general knowledge
there). Whether #PF, the machine check #MC (R237) and the x87 error, #MF (R239) or the interrupt, carry one is not in the spec: that
they carry none is the model's choice (log 6). -/
def excErrorCode : Exc → Option Word
  | .gp c => some c
  | .ac c => some c
  | _ => none

/-! ### Memory bytes (20_memory.md R80) -/

/-- The byte at a physical address. -/
def Memory.read : Memory → Nat → Byte
  | [], _ => unlistedByte
  | (a, b) :: m, p => if a = p then b else Memory.read m p

/-- Put an entry before the first one with a higher address. -/
def Memory.insert (p : Nat) (v : Byte) : Memory → Memory
  | [] => [(p, v)]
  | (a, b) :: m => if p < a then (p, v) :: (a, b) :: m else (a, b) :: Memory.insert p v m

/-- Remove the entry of an address. -/
def Memory.erase (p : Nat) (m : Memory) : Memory := m.filter (fun c => !(c.1 == p))

/-- Write a byte and keep the canonical form. -/
def Memory.write (m : Memory) (p : Nat) (v : Byte) : Memory :=
  if v = unlistedByte then Memory.erase p m else Memory.insert p v (Memory.erase p m)

/-- Write bytes at addresses, in order. -/
def Memory.writeAll (m : Memory) : List (Nat × Byte) → Memory
  | [] => m
  | (p, v) :: rest => Memory.writeAll (Memory.write m p v) rest

/-! ### The address map (20_memory.md R89, R93; log 36, 37) -/

/-- The address map has memory at a physical address: the first range that holds the address decides; an address in no range is
the platform's. -/
def ramAt (p : Params) (a : Nat) : Bool :=
  match p.addressMap.find? fun r => decide (r.base ≤ a ∧ a < r.base + r.size) with
  | some r => r.kind == .ram
  | none => false

/-- The address map has memory at a physical address. -/
def State.isRam (s : State) (a : Nat) : Bool := ramAt s.params a

/-- Read the byte at a physical address: what memory holds, or what the platform answers, which is open. A read changes
nothing in the state: R93 has side effects on read "not in the source", and none is the model's choice (log 37). -/
def State.readByte (s : State) (a : Nat) : Byte :=
  if s.isRam a then Memory.read s.mem a else Config.platformRead a s.draws

/-- Memory after bytes are written at physical addresses, in order. A byte written where the map has no memory goes to the
platform and leaves nothing in the state (log 36). -/
def State.memAfter (s : State) (cells : List (Nat × Byte)) : Memory :=
  Memory.writeAll s.mem (cells.filter fun c => s.isRam c.1)

/-- Write bytes at physical addresses, in order. -/
def State.writeBytes (s : State) (cells : List (Nat × Byte)) : State := { s with mem := s.memAfter cells }

/-- A physical address has 36 bits with CR4.PAE set, else 32 (R80, R83). -/
def State.clipPhys (s : State) (p : BitVec 36) : Nat := p.toNat % 2 ^ s.physAddrBits

/-! ### Delivery and task switch (60_exceptions.md R245, R246; 41_ts_clts.md R170, R171) -/

/-- Put what a transfer leaves into the state: general registers, `pc`, EFLAGS, CPL, bytes of memory, at addresses of the width
in force (20_memory.md R83). In virtual-8086 mode CPL is 3 (40_mov_cr.md R141, D3; log 31). -/
def State.transfer (s : State) (t : Transfer) : State :=
  { s with
    regs := t.regs
    pc := t.pc
    eflags := t.eflags
    cpl := if vmOf t.eflags then 3#2 else t.cpl
    mem := s.memAfter (t.stores.map fun c => (s.clipPhys c.1, c.2)) }

/-- Set CR0.TS (41_ts_clts.md R170). -/
def State.setTs (s : State) : State := { s with cr0 := s.cr0 ||| 0x00000008#32 }

/-- The delivery of a raised exception: a parameter of the model (R245, D11). It writes no control register, but for TS
when it goes by a task switch (R246). That it always completes, and raises no exception of its own while it saves state, is the
model's choice: nesting is not in the source (R246; log 6). So is what the outcome depends on: the exception, the address of
the instruction and a fresh draw, not the rest of the state (R245 leaves it to whatever delivers; log 6). -/
def State.deliver (s : State) (e : Exc) : State :=
  let t := Config.deliver e s.pc s.draws
  let s' := { s.transfer t with raised := none, draws := s.draws + 1 }
  if t.taskSwitch then s'.setTs else s'

/-- `on TaskSwitch: CR0.TS <- 1` (41_ts_clts.md R170). The contexts of the units are not saved (R171); where control goes
and what the general registers, EFLAGS, CPL and memory become is open. What else a task switch changes is not in the source
(N9): that it keeps CR2, CR3, CR4, DR4, DR5, the two counters and a pending x87 error, that it always completes and raises
nothing itself, and that its outcome depends on a fresh draw only, is the model's choice (log 18). -/
def State.taskSwitch (s : State) : State :=
  ({ s.transfer (Config.taskSwitch s.draws) with draws := s.draws + 1 } : State).setTs

/-! ### Address translation (20_memory.md R81 to R88) -/

/-- The arguments of `translate` (R86), with the address of the instruction for `pf_addr` (D12). -/
def State.translateRequest (s : State) (k : AccessKind) (a : Word) : TranslateRequest where
  pc := s.pc
  cr3 := s.cr3
  pse := s.pse
  pae := s.pae
  pge := s.pge
  wp := s.wp
  cpl := s.cpl
  kind := k
  linear := a

/-- The write that CR0.WP forbids: by a supervisor-level procedure to a read-only user page (R87; that supervisor level is
CPL 0, 1 or 2 is general knowledge there). -/
def State.writeForbidden (s : State) (k : AccessKind) (p : Page) : Bool :=
  k == .write && s.wp && s.cpl != 3#2 && p.user && p.readOnly

/-- The physical address of a linear one, or the address a page fault leaves in CR2. Without paging the linear address is
used as physical (R81). -/
def State.translate (s : State) (k : AccessKind) (a : Word) : Except Word Nat :=
  if s.pagingActive then
    let t := Config.translate (s.translateRequest k a) s.mem
    match t.page with
    | none => .error t.pfAddr
    | some p => if s.writeForbidden k p then .error t.pfAddr else .ok (s.clipPhys p.phys)
  else .ok a.toNat

/-- The linear addresses of `n` bytes; they wrap at 2^32 (log 4). -/
def linearBytes (a : Word) : Nat → List Word
  | 0 => []
  | n + 1 => a :: linearBytes (a + 1#32) n

/-- Translate addresses in order, up to the first page fault. -/
def State.translateList (s : State) (k : AccessKind) : List Word → Except Word (List Nat)
  | [] => .ok []
  | a :: rest =>
    match s.translate k a with
    | .error pf => .error pf
    | .ok p =>
      match s.translateList k rest with
      | .error pf => .error pf
      | .ok ps => .ok (p :: ps)

/-! ### Data accesses (20_memory.md R92; 40_mov_cr.md R158) -/

/-- How the checks of a data access end: the physical addresses of its bytes, or the state after an exception. -/
inductive Access where
  | ok (phys : List Nat)
  | stop (s : State)
  deriving DecidableEq, Repr

/-- The checks of an access to `n` bytes at linear address `a`: the alignment check on `boundary` (R92; #AC(0), log 21),
then the translation of every byte (R86). Nothing is read or written before all have passed (R245). -/
def State.access (s : State) (k : AccessKind) (boundary n : Nat) (a : Word) : Access :=
  if s.alignmentCheckActive && a.toNat % boundary != 0 then .stop (s.raise (.ac 0#32))
  else if s.pagingActive then
    match s.translateList k (linearBytes a n) with
    | .error pf => .stop (s.raisePageFault pf)
    | .ok ps => .ok ps
  else .ok ((linearBytes a n).map BitVec.toNat)

/-- The bytes at physical addresses. Reading them changes nothing, and they are read as one: side effects on read and atomicity
are not in the source (R93), and both are the model's choice (log 37). -/
def State.readBytes (s : State) (ps : List Nat) : List Byte := ps.map s.readByte

end Sys2Proof.Machine
end

