-- ==== Sys2Proof/Machine/Operands.lean ====
section
/-! DEFINITION. The operand forms: the effective address of a memory operand, and the FXSAVE image (30_encoding.md R111,
R119, R122; 42_fpu_simd_gating.md R190, R191; log 8, 10). -/

namespace Sys2Proof.Machine

/-! ### Effective address (PRESUMED: the family's 32-bit addressing, log 8) -/

/-- The displacement as a number: one byte is sign-extended. -/
def dispValue (m : MemOperand) : Word :=
  if m.dispSize = 1 then (m.disp.setWidth 8).signExtend 32 else m.disp

/-- The base a SIB byte names: none for number 5 with `mod` = 00. -/
def State.sibBase (s : State) (m : MemOperand) : Word :=
  let b := m.sib.extractLsb' 0 3
  if b = 5#3 ∧ m.md = 0#2 then 0#32 else s.reg (Reg.ofBits b)

/-- The scaled index a SIB byte names: none for number 4. -/
def State.sibIndex (s : State) (m : MemOperand) : Word :=
  let x := m.sib.extractLsb' 3 3
  if x = 4#3 then 0#32 else s.reg (Reg.ofBits x) <<< (m.sib.extractLsb' 6 2).toNat

/-- The linear address of a memory operand: base, scaled index and displacement, modulo 2^32. -/
def State.effAddr (s : State) (m : MemOperand) : Word :=
  let base :=
    if m.rm = 4#3 then s.sibBase m + s.sibIndex m
    else if m.rm = 5#3 ∧ m.md = 0#2 then 0#32
    else s.reg (Reg.ofBits m.rm)
  base + dispValue m

/-! ### The FXSAVE image (PRESUMED: the family's layout, log 10) -/

/-- The first `n` bytes of a number, the least significant first. -/
def leBytes : Nat → Nat → List Byte
  | 0, _ => []
  | n + 1, v => BitVec.ofNat 8 v :: leBytes n (v / 256)

/-- The number that bytes make, the first least significant. -/
def leNat : List Byte → Nat
  | [] => 0
  | b :: bs => b.toNat + 256 * leNat bs

/-- `n` open bytes of the image, from offset `k` on (U30: "any value"). -/
def openBytes (draw k n : Nat) : List Byte := (List.range n).map fun j => Config.freeByte (k + j) draw

/-- The x87 environment, bytes 0 to 23. -/
def fpuHeader (f : Fpu) (draw : Nat) : List Byte :=
  leBytes 2 f.control.toNat ++ (leBytes 2 f.status.toNat ++ (leBytes 1 f.tag.toNat ++ (openBytes draw 5 1 ++
    (leBytes 2 f.opcode.toNat ++ (leBytes 4 f.instrPtr.toNat ++ (leBytes 2 f.instrSel.toNat ++ (openBytes draw 14 2 ++
      (leBytes 4 f.dataPtr.toNat ++ (leBytes 2 f.dataSel.toNat ++ openBytes draw 22 2)))))))))

/-- The data registers, one in each 16 bytes from offset 32 on. -/
def fpuData (f : Fpu) (draw : Nat) : List Byte :=
  (List.range 8).flatMap fun i => leBytes 10 (f.st.toList.getD i 0#80).toNat ++ openBytes draw (42 + 16 * i) 6

/-- XMM0 to XMM7, one in each 16 bytes from offset 160 on. -/
def sseData (x : Sse) : List Byte :=
  (List.range 8).flatMap fun i => leBytes 16 (x.xmm.toList.getD i 0#128).toNat

/-- The 512 bytes FXSAVE writes: the x87 and MMX context, and with CR4.OSFXSR set MXCSR and the XMM registers
(42_fpu_simd_gating.md R190). Every byte that holds no register is open. -/
def State.fxImage (s : State) : List Byte :=
  fpuHeader s.fpu s.draws ++
    ((if s.osfxsr then leBytes 4 s.sse.mxcsr.toNat else openBytes s.draws 24 4) ++
      (openBytes s.draws 28 4 ++ (fpuData s.fpu s.draws ++
        ((if s.osfxsr then sseData s.sse else openBytes s.draws 160 128) ++ openBytes s.draws 288 224))))

/-- The number in `n` bytes of an image from offset `k` on. -/
def imageNat (img : List Byte) (k n : Nat) : Nat := leNat ((img.drop k).take n)

/-- The x87 and MMX context an image holds (R191). -/
def fpuOfImage (img : List Byte) : Fpu where
  control := BitVec.ofNat 16 (imageNat img 0 2)
  status := BitVec.ofNat 16 (imageNat img 2 2)
  tag := BitVec.ofNat 8 (imageNat img 4 1)
  opcode := BitVec.ofNat 16 (imageNat img 6 2)
  instrPtr := BitVec.ofNat 32 (imageNat img 8 4)
  instrSel := BitVec.ofNat 16 (imageNat img 12 2)
  dataPtr := BitVec.ofNat 32 (imageNat img 16 4)
  dataSel := BitVec.ofNat 16 (imageNat img 20 2)
  st := Vector.ofFn fun i : Fin 8 => BitVec.ofNat 80 (imageNat img (32 + 16 * i.val) 10)

/-- The XMM registers and MXCSR an image holds (R191). -/
def sseOfImage (img : List Byte) : Sse where
  mxcsr := BitVec.ofNat 32 (imageNat img 24 4)
  xmm := Vector.ofFn fun i : Fin 8 => BitVec.ofNat 128 (imageNat img (160 + 16 * i.val) 16)

/-- How many bytes the image has (the table's "m512"; log 10). -/
def fxSize : Nat := 512

/-- MMi: the low 64 bits of data register i (PRESUMED, log 10). -/
def mmxReg (f : Fpu) (i : Fin 8) : BitVec 64 := f.st[i].setWidth 64

end Sys2Proof.Machine
end

