-- ==== Sys2Proof/Machine/Events.lean ====
section
/-! DEFINITION. What arrives from outside between instructions (41_ts_clts.md R170, R171; 60_exceptions.md R237; 42_fpu_simd_gating.md
R192; log 18, 19, 20). -/

namespace Sys2Proof.Machine

/-- A task switch sets TS; a machine check raises #MC if CR4.MCE enables it, and nothing is said of it otherwise; an unmasked
x87 error waits to be reported; the pin IGNNE# takes a level (60_exceptions.md R239). -/
def takeEvent (e : Event) (s : State) : Host.Outcome State Fault Refusal :=
  match e with
  | .taskSwitch => .next s.taskSwitch
  | .machineCheck => if s.mce then .next (s.raise .mc) else .fault .machineCheckDisabled
  | .fpuError => .next { s with fpuError := true }
  | .ignne asserted => .next { s with ignne := asserted }

end Sys2Proof.Machine
end

