-- ==== Sys2Proof/Machine/Clts.lean ====
section
/-! DEFINITION. CLTS (41_ts_clts.md R173). -/

namespace Sys2Proof.Machine

/-- CLTS: TS is cleared, nothing else of CR0 and no flag changes (R173). -/
def execClts (s : State) : Host.Outcome State Fault Refusal :=
  if s.privOk then .next (({ s with cr0 := s.cr0 &&& ~~~0x00000008#32 } : State).advance 2)
  else .next (s.raise (.gp 0#32))

end Sys2Proof.Machine
end

