-- ==== Sys2Proof/Machine/Cr4Gated.lean ====
section
/-! DEFINITION. RDTSC, RDPMC, MOV to and from DR4 and DR5, CPUID (43_cr4_gated.md R210 to R214). -/

namespace Sys2Proof.Machine

/-! ### Counters (R210, R211) -/

/-- A 64-bit count goes to EDX (high half) and EAX (low half) (R210; R211 likewise). -/
def State.setEdxEax (s : State) (v : BitVec 64) : State :=
  (s.setReg .edx (v.extractLsb' 32 32)).setReg .eax (v.extractLsb' 0 32)

/-- RDTSC (R210): the count is a draw (D30; log 16). -/
def execRdtsc (s : State) : Host.Outcome State Fault Refusal :=
  if s.tsd && s.outsideLevel0 then .next (s.raise (.gp 0#32))
  else
    let v := Config.freeTsc s.draws
    .next (((({ s with tsc := v } : State).setEdxEax v).drawn).advance 2)

/-- RDPMC (R211): PCE opens it to every level; the count is a draw (D30; log 16). -/
def execRdpmc (s : State) : Host.Outcome State Fault Refusal :=
  if !s.pce && s.outsideLevel0 then .next (s.raise (.gp 0#32))
  else
    let v := Config.freePmc (s.reg .ecx) s.draws
    .next (((({ s with pmc := v } : State).setEdxEax v).drawn).advance 2)

/-! ### Debug registers (R212, R213; log 15) -/

/-- The checks of an access to DR4 or DR5: #UD with CR4.DE set; the privilege it needs is a parameter. -/
def State.drStop (s : State) : Option Exc :=
  if s.de then some .ud
  else if s.params.drGate && !s.privOk then some (.gp 0#32)
  else none

/-- A read of debug register `n`, which holds `held`: the value read is open. -/
def moveFromDr (n : BitVec 3) (held : Word) (r : Reg) (s : State) : Host.Outcome State Fault Refusal :=
  match s.drStop with
  | some e => .next (s.raise e)
  | none => .next (((s.setReg r (Config.debugRead n held s.draws)).drawn).advance 3)

/-- MOV r32, DR4 (R212). -/
def execMovR32Dr4 (r : Reg) (s : State) : Host.Outcome State Fault Refusal := moveFromDr 4#3 s.dr4 r s

/-- MOV r32, DR5 (R212). -/
def execMovR32Dr5 (r : Reg) (s : State) : Host.Outcome State Fault Refusal := moveFromDr 5#3 s.dr5 r s

/-- MOV DR4, r32 (R213): what the register then holds is open. -/
def execMovDr4R32 (r : Reg) (s : State) : Host.Outcome State Fault Refusal :=
  match s.drStop with
  | some e => .next (s.raise e)
  | none => .next (({ s with dr4 := Config.debugImage 4#3 s.dr4 (s.reg r) } : State).advance 3)

/-- MOV DR5, r32 (R213): what the register then holds is open. -/
def execMovDr5R32 (r : Reg) (s : State) : Host.Outcome State Fault Refusal :=
  match s.drStop with
  | some e => .next (s.raise e)
  | none => .next (({ s with dr5 := Config.debugImage 5#3 s.dr5 (s.reg r) } : State).advance 3)

/-! ### CPUID (R214; bits 93 G5, general knowledge; log 17) -/

/-- The bits of EDX, for function 1, that stand for parameters: VME 1, DE 2, PSE 3, TSC 4, PAE 6, MCE 7, PGE 13, MMX 23, FXSR 24,
SSE 25, SSE2 26. -/
def featureMask : Word := 0x078020DE#32

/-- One feature bit. -/
def featureBit (b : Bool) (i : Nat) : Word := if b then 1#32 <<< i else 0#32

/-- Those bits of a processor (`cr4_present`, `cpuid_mmx`, `cpuid_sse`, `cpuid_sse2`). 93 G5 has bit 1, VME, cover PVI also, and bit
25, SSE, OSXMMEXCPT: that each shows the parameter it is named for, also where the other differs, is the model's choice (log 17).
CR4.PCE has no bit of its own there: it follows the family. -/
def features (p : Params) : Word :=
  featureBit (p.cr4Present.getLsbD 0) 1 ||| featureBit (p.cr4Present.getLsbD 3) 2 |||
    featureBit (p.cr4Present.getLsbD 4) 3 ||| featureBit (p.cr4Present.getLsbD 2) 4 |||
    featureBit (p.cr4Present.getLsbD 5) 6 ||| featureBit (p.cr4Present.getLsbD 6) 7 |||
    featureBit (p.cr4Present.getLsbD 7) 13 ||| featureBit p.cpuidMmx 23 |||
    featureBit (p.cr4Present.getLsbD 9) 24 ||| featureBit p.cpuidSse 25 ||| featureBit p.cpuidSse2 26

/-- The bits of EAX, for function 1, that hold the number of the processor family, which CR4.PCE follows (93 G5; the place is
PRESUMED, log 17). -/
def familyMask : Word := 0x00000F00#32

/-- What CPUID answers: function 1 shows the family in EAX and the parameters in EDX, all else is open. -/
def State.cpuidAnswer (s : State) : CpuidAnswer :=
  let a := Config.freeCpuid (s.reg .eax) (s.reg .ecx) s.draws
  if s.reg .eax = 1#32 then
    { a with
      eax := (a.eax &&& ~~~familyMask) ||| (Proc.signature s.params.proc &&& familyMask)
      edx := (a.edx &&& ~~~featureMask) ||| features s.params }
  else a

/-- CPUID (R214): no flag gates it; it answers in EAX, EBX, ECX and EDX. -/
def execCpuid (s : State) : Host.Outcome State Fault Refusal :=
  let a := s.cpuidAnswer
  .next (((((((s.setReg .eax a.eax).setReg .ebx a.ebx).setReg .ecx a.ecx).setReg .edx a.edx).drawn).advance 2))

end Sys2Proof.Machine
end

