-- ==== Sys2Proof/Machine/Exempt.lean ====
section
/-! DEFINITION. The seven exempt instructions: no gate tests them (42_fpu_simd_gating.md R187). PAUSE, PREFETCHh and the
fences do nothing on one in-order agent (D17; log 22); MOVNTI stores, CLFLUSH touches memory (log 23). -/

namespace Sys2Proof.Machine

/-- An instruction that only advances `pc` (D17, 30_encoding.md R124). -/
def noOperation (len : Nat) (s : State) : Host.Outcome State Fault Refusal := .next (s.advance len)

/-- PAUSE. -/
def execPause (s : State) : Host.Outcome State Fault Refusal := noOperation 2 s

/-- PREFETCHNTA. -/
def execPrefetchnta (m : MemOperand) (s : State) : Host.Outcome State Fault Refusal := noOperation (3 + m.size) s

/-- PREFETCHT0. -/
def execPrefetcht0 (m : MemOperand) (s : State) : Host.Outcome State Fault Refusal := noOperation (3 + m.size) s

/-- PREFETCHT1. -/
def execPrefetcht1 (m : MemOperand) (s : State) : Host.Outcome State Fault Refusal := noOperation (3 + m.size) s

/-- PREFETCHT2. -/
def execPrefetcht2 (m : MemOperand) (s : State) : Host.Outcome State Fault Refusal := noOperation (3 + m.size) s

/-- SFENCE. -/
def execSfence (s : State) : Host.Outcome State Fault Refusal := noOperation 3 s

/-- LFENCE. -/
def execLfence (s : State) : Host.Outcome State Fault Refusal := noOperation 3 s

/-- MFENCE. -/
def execMfence (s : State) : Host.Outcome State Fault Refusal := noOperation 3 s

/-- MOVNTI: "stores general register `reg` to memory" (30_encoding.md R120), 32 bits, least significant byte first
(20_memory.md R90, D9; log 23). -/
def execMovnti (m : MemOperand) (g : Reg) (s : State) : Host.Outcome State Fault Refusal :=
  match s.access .write 4 4 (s.effAddr m) with
  | .stop s' => .next s'
  | .ok ps => .next ((s.writeBytes (ps.zip (leBytes 4 (s.reg g).toNat))).advance (3 + m.size))

/-- CLFLUSH: one byte is accessed; without caches nothing else is seen of it (20_memory.md R99, U18; log 23). -/
def execClflush (m : MemOperand) (s : State) : Host.Outcome State Fault Refusal :=
  match s.access .read 1 1 (s.effAddr m) with
  | .stop s' => .next s'
  | .ok _ => .next (s.advance (3 + m.size))

end Sys2Proof.Machine
end

