-- ==== Sys2Proof/Machine/Fpu.lean ====
section
/-! DEFINITION. The x87 class, WAIT/FWAIT and the reporting of x87 errors; what a numeric instruction does past its gate
(42_fpu_simd_gating.md R181, R182, R192, R194; U28). -/

namespace Sys2Proof.Machine

/-! ### Past the gate: a numeric instruction (shared with MMX, SSE and SSE2; log 12) -/

/-- What the access at a memory operand is for: a write if the effect stores bytes, else a read (40_mov_cr.md R158). -/
def numericKind (e : NumericEffect) : AccessKind := if e.stores = [] then .read else .write

/-- How many bytes that access has. -/
def numericWidth (e : NumericEffect) : Nat := if e.stores = [] then e.read else e.stores.length

/-- The checks of the access a numeric instruction makes at its memory operand. A register form makes none. -/
def State.numericAccess (s : State) (m : Option MemOperand) (e : NumericEffect) : Access :=
  match m with
  | none => .ok []
  | some m => s.access (numericKind e) e.boundary (numericWidth e) (s.effAddr m)

/-- The units whose instructions run here. -/
inductive NumericUnit where
  | x87 | mmx | simd
  deriving DecidableEq, Repr

/-- The open effect: the x87/MMX context, the XMM context for SSE and SSE2, an integer register, the status flags, the bytes
stored, and for an x87 instruction the end of a pending error; then `pc <- pc + len`. No control register, no other flag, no
privilege changes. -/
def State.numericCommit (s : State) (ps : List Nat) (u : NumericUnit) (len : Nat) (e : NumericEffect) : State :=
  State.advance
    { s with
      fpu := e.fpu
      sse := if u = .simd then e.sse else s.sse
      regs := match e.gpr with | none => s.regs | some (r, v) => putReg r v s.regs
      eflags := match e.status with | none => s.eflags | some v => withStatus s.eflags v
      mem := s.memAfter (ps.zip e.stores)
      fpuError := s.fpuError && !(u = .x87 && e.endsError)
      draws := s.draws + 1 }
    len

/-- The x87 or MMX instruction that passed its gate. -/
def State.numeric (s : State) (m : Option MemOperand) (u : NumericUnit) (len : Nat) (e : NumericEffect) : State :=
  match s.numericAccess m e with
  | .stop s' => s'
  | .ok ps => s.numericCommit ps u len e

/-! ### Reporting a pending x87 error (R192, 60_exceptions.md R239; log 20) -/

/-- The pending error is reported: none is pending any more. -/
def State.endFpuError (s : State) : State := { s with fpuError := false }

/-- Run an x87 instruction or WAIT/FWAIT while an error may be pending: with NE = 1 the internal mechanism reports it in
place of an instruction that waits; with NE = 0 an interrupt is generated right after the instruction, unless the pin IGNNE#
suppresses it. Reporting ends the error; without a report it goes on waiting.

The path of that interrupt (which one, through what external logic) is not in the source (R192), and R239 gives FERR# and IRQ 13 as
general knowledge: that State holds no level of FERR# and no external logic, that nothing outside but IGNNE# can delay, mask or lose
the interrupt, and that the core raises it itself in the step of the instruction, is the model's choice (log 20). -/
def State.reportFpuError (s : State) (waits : Bool) (run : State → State) : State :=
  if s.fpuError then
    if s.ne then if waits then s.endFpuError.raise .mf else run s
    else if s.ignne || (run s).raised.isSome then run s
    else (run s).endFpuError.raise .fpuInterrupt
  else run s

/-! ### The instructions -/

/-- The memory operand of an x87 instruction, if it has one. -/
def rmOperand : RmOperand → Option MemOperand
  | .reg _ => none
  | .mem m => some m

/-- An x87 floating-point instruction (R181); without an FPU it stops (R194, D34). -/
def execX87 (op ext : BitVec 3) (o : RmOperand) (s : State) : Host.Outcome State Fault Refusal :=
  if s.em || s.ts then .next (s.raise .nm)
  else if s.params.hasX87 = .none then .fault .noFpu
  else
    .next (s.reportFpuError (Config.x87Waits (encode (.x87 op ext o))) fun s =>
      s.numeric (rmOperand o) .x87 (Instr.length (.x87 op ext o))
        (Config.numericEffect (encode (.x87 op ext o)) s.draws))

/-- WAIT/FWAIT (R182): it executes with no effect but on a pending error, for which it waits (R192, R239). -/
def execWait (s : State) : Host.Outcome State Fault Refusal :=
  if s.mp && s.ts then .next (s.raise .nm)
  else .next (s.reportFpuError true fun s => s.advance 1)

end Sys2Proof.Machine
end

