-- ==== Sys2Proof/Machine/FxSave.lean ====
section
/-! DEFINITION. FXSAVE and FXRSTOR (42_fpu_simd_gating.md R190, R191; `fx_gate` D36; image log 10). -/

namespace Sys2Proof.Machine

/-- `fx_gate`: whether CR0.TS or CR0.EM stops FXSAVE and FXRSTOR (D36). -/
def State.fxGated (s : State) : Bool := s.params.fxGate && (s.ts || s.em)

/-- FXSAVE (R190): the image is written at the memory operand; no register changes. Whether a CPUID bit governs it is open
(N21); that it runs on every processor is the model's choice (log 11). -/
def execFxsave (m : MemOperand) (s : State) : Host.Outcome State Fault Refusal :=
  if s.fxGated then .next (s.raise .nm)
  else match s.access .write s.params.fxAlign fxSize (s.effAddr m) with
    | .stop s' => .next s'
    | .ok ps => .next (((s.writeBytes (ps.zip s.fxImage)).drawn).advance (3 + m.size))

/-- The contexts an image gives: the x87 and MMX context always, XMM and MXCSR with CR4.OSFXSR set (R191). Whether loading the x87
context ends or starts a pending x87 error is not said there; that it does neither is the model's choice (log 20). -/
def State.restoreImage (s : State) (img : List Byte) : State :=
  { s with fpu := fpuOfImage img, sse := if s.osfxsr then sseOfImage img else s.sse }

/-- FXRSTOR (R191). Whether a CPUID bit governs it is open (N21); that it runs on every processor is the model's choice
(log 11). -/
def execFxrstor (m : MemOperand) (s : State) : Host.Outcome State Fault Refusal :=
  if s.fxGated then .next (s.raise .nm)
  else match s.access .read s.params.fxAlign fxSize (s.effAddr m) with
    | .stop s' => .next s'
    | .ok ps => .next (((s.restoreImage (s.readBytes ps)).drawn).advance (3 + m.size))

end Sys2Proof.Machine
end

