-- ==== Sys2Proof/Machine/MovCr.lean ====
section
/-! DEFINITION. MOV to and from a control register (40_mov_cr.md R140 to R155). -/

namespace Sys2Proof.Machine

/-! ### Shared operations -/

/-- A read: check (2) of R155, the move, the undefined status flags (R153), and `pc <- pc + 3`. -/
def moveFromCr (r : Reg) (v : Word) (s : State) : Host.Outcome State Fault Refusal :=
  if s.privOk then .next (((s.setReg r v).freeStatus).advance 3) else .next (s.raise (.gp 0#32))

/-- The value checks of a MOV to CR0 that raise #GP(0) (R146): PG without PE (D4), CD = 0 with NW = 1 (D8). -/
def cr0ValueForbidden (v : Word) : Bool :=
  (v.getLsbD 31 && !v.getLsbD 0) || (!v.getLsbD 30 && v.getLsbD 29)

/-- R152: the value would change a reserved bit of what the register holds. -/
def changesReserved (rsvd old v : Word) : Bool := (v &&& rsvd) != (old &&& rsvd)

/-- What follows a completed write: the undefined status flags (R153) and `pc <- pc + 3`. -/
def finishMovToCr (s : State) : Host.Outcome State Fault Refusal := .next (s.freeStatus.advance 3)

/-- A MOV naming CR1, CR5, CR6 or CR7: `raise UD` whatever the mode and CPL (R150, R151, D6). -/
def reservedCr (s : State) : Host.Outcome State Fault Refusal := .next (s.raise .ud)

/-! ### Reads -/

/-- MOV r32, CR0 (R142). -/
def execMovR32Cr0 (r : Reg) (s : State) : Host.Outcome State Fault Refusal := moveFromCr r s.readCr0 s

/-- MOV r32, CR1 (R150). -/
def execMovR32Cr1 (s : State) : Host.Outcome State Fault Refusal := reservedCr s

/-- MOV r32, CR2 (R143). -/
def execMovR32Cr2 (r : Reg) (s : State) : Host.Outcome State Fault Refusal := moveFromCr r s.cr2 s

/-- MOV r32, CR3 (R144). -/
def execMovR32Cr3 (r : Reg) (s : State) : Host.Outcome State Fault Refusal := moveFromCr r s.cr3 s

/-- MOV r32, CR4 (R145). -/
def execMovR32Cr4 (r : Reg) (s : State) : Host.Outcome State Fault Refusal := moveFromCr r s.cr4 s

/-- MOV r32, CR5 (R151). -/
def execMovR32Cr5 (s : State) : Host.Outcome State Fault Refusal := reservedCr s

/-- MOV r32, CR6 (R151). -/
def execMovR32Cr6 (s : State) : Host.Outcome State Fault Refusal := reservedCr s

/-- MOV r32, CR7 (R151). -/
def execMovR32Cr7 (s : State) : Host.Outcome State Fault Refusal := reservedCr s

/-! ### Writes -/

/-- MOV CR0, r32 (R146), its checks in the order of R155. -/
def execMovCr0R32 (r : Reg) (s : State) : Host.Outcome State Fault Refusal :=
  let v := s.reg r
  if !s.privOk then .next (s.raise (.gp 0#32))
  else if cr0ValueForbidden v then .next (s.raise (.gp 0#32))
  else if changesReserved (rsvd0 s.params) s.readCr0 v then .fault .reservedBitsChanged
  else finishMovToCr { s with cr0 := v }

/-- MOV CR1, r32 (R150). -/
def execMovCr1R32 (s : State) : Host.Outcome State Fault Refusal := reservedCr s

/-- MOV CR2, r32 (R147). -/
def execMovCr2R32 (r : Reg) (s : State) : Host.Outcome State Fault Refusal :=
  if !s.privOk then .next (s.raise (.gp 0#32))
  else finishMovToCr { s with cr2 := s.reg r }

/-- MOV CR3, r32 (R148). -/
def execMovCr3R32 (r : Reg) (s : State) : Host.Outcome State Fault Refusal :=
  let v := s.reg r
  if !s.privOk then .next (s.raise (.gp 0#32))
  else if changesReserved s.rsvd3 s.cr3 v then .fault .reservedBitsChanged
  else finishMovToCr { s with cr3 := v }

/-- MOV CR4, r32 (R149): the reserved bits, then the duty to enable paging before PGE (D20), on a
processor that has PGE (00_scope.md R5). -/
def execMovCr4R32 (r : Reg) (s : State) : Host.Outcome State Fault Refusal :=
  let v := s.reg r
  if !s.privOk then .next (s.raise (.gp 0#32))
  else if changesReserved (rsvd4 s.params) s.cr4 v then .fault .reservedBitsChanged
  else if cr4Flag s.params v 7 && !s.pge && !s.pg then .fault .pgeBeforePg
  else finishMovToCr { s with cr4 := v }

/-- MOV CR5, r32 (R151). -/
def execMovCr5R32 (s : State) : Host.Outcome State Fault Refusal := reservedCr s

/-- MOV CR6, r32 (R151). -/
def execMovCr6R32 (s : State) : Host.Outcome State Fault Refusal := reservedCr s

/-- MOV CR7, r32 (R151). -/
def execMovCr7R32 (s : State) : Host.Outcome State Fault Refusal := reservedCr s

end Sys2Proof.Machine
end

