-- ==== Sys2Proof/Machine/Dispatch.lean ====
section
/-! DEFINITION. One arm per instruction of the table, each one direct call of its meaning. -/

namespace Sys2Proof.Machine

def exec (i : Instr) (s : State) : Host.Outcome State Fault Refusal :=
  match i with
  | .movR32Cr0 _ r => Sys2Proof.Machine.execMovR32Cr0 r s
  | .movR32Cr1 _ _ => Sys2Proof.Machine.execMovR32Cr1 s
  | .movR32Cr2 _ r => Sys2Proof.Machine.execMovR32Cr2 r s
  | .movR32Cr3 _ r => Sys2Proof.Machine.execMovR32Cr3 r s
  | .movR32Cr4 _ r => Sys2Proof.Machine.execMovR32Cr4 r s
  | .movR32Cr5 _ _ => Sys2Proof.Machine.execMovR32Cr5 s
  | .movR32Cr6 _ _ => Sys2Proof.Machine.execMovR32Cr6 s
  | .movR32Cr7 _ _ => Sys2Proof.Machine.execMovR32Cr7 s
  | .movCr0R32 _ r => Sys2Proof.Machine.execMovCr0R32 r s
  | .movCr1R32 _ _ => Sys2Proof.Machine.execMovCr1R32 s
  | .movCr2R32 _ r => Sys2Proof.Machine.execMovCr2R32 r s
  | .movCr3R32 _ r => Sys2Proof.Machine.execMovCr3R32 r s
  | .movCr4R32 _ r => Sys2Proof.Machine.execMovCr4R32 r s
  | .movCr5R32 _ _ => Sys2Proof.Machine.execMovCr5R32 s
  | .movCr6R32 _ _ => Sys2Proof.Machine.execMovCr6R32 s
  | .movCr7R32 _ _ => Sys2Proof.Machine.execMovCr7R32 s
  | .clts => Sys2Proof.Machine.execClts s
  | .wait => Sys2Proof.Machine.execWait s
  | .x87 op ext o => Sys2Proof.Machine.execX87 op ext o s
  | .rdtsc => Sys2Proof.Machine.execRdtsc s
  | .rdpmc => Sys2Proof.Machine.execRdpmc s
  | .cpuid => Sys2Proof.Machine.execCpuid s
  | .movR32Dr4 _ r => Sys2Proof.Machine.execMovR32Dr4 r s
  | .movR32Dr5 _ r => Sys2Proof.Machine.execMovR32Dr5 r s
  | .movDr4R32 _ r => Sys2Proof.Machine.execMovDr4R32 r s
  | .movDr5R32 _ r => Sys2Proof.Machine.execMovDr5R32 r s
  | .fxsave m => Sys2Proof.Machine.execFxsave m s
  | .fxrstor m => Sys2Proof.Machine.execFxrstor m s
  | .pause => Sys2Proof.Machine.execPause s
  | .prefetchnta m => Sys2Proof.Machine.execPrefetchnta m s
  | .prefetcht0 m => Sys2Proof.Machine.execPrefetcht0 m s
  | .prefetcht1 m => Sys2Proof.Machine.execPrefetcht1 m s
  | .prefetcht2 m => Sys2Proof.Machine.execPrefetcht2 m s
  | .sfence => Sys2Proof.Machine.execSfence s
  | .lfence => Sys2Proof.Machine.execLfence s
  | .mfence => Sys2Proof.Machine.execMfence s
  | .movnti m g => Sys2Proof.Machine.execMovnti m g s
  | .clflush m => Sys2Proof.Machine.execClflush m s

end Sys2Proof.Machine
end

