-- ==== Sys2Proof/Machine/Simd.lean ====
section
/-! DEFINITION. The gates of the MMX, SSE and SSE2 classes, which have no row of the table: the step runs them on bytes that
`insn_class` puts in those classes (42_fpu_simd_gating.md R180, R183 to R186; log 13). -/

namespace Sys2Proof.Machine

/-- An MMX instruction (R183): #UD with EM set or without MMX (D16), then #NM with TS set. -/
def execMmx (m : Option MemOperand) (len : Nat) (e : NumericEffect) (s : State) : State :=
  if s.em then s.raise .ud
  else if !s.params.cpuidMmx then s.raise .ud
  else if s.ts then s.raise .nm
  else s.numeric m .mmx len e

/-- `simd_fp_unmasked` of this execution (R185, D26; log 14): only an instruction that operates on floating-point numbers can detect
an unmasked SIMD floating-point exception (60_exceptions.md R234). -/
def State.simdUnmasked (s : State) (bs : List Byte) : Bool := operatesOnFloats bs && Config.simdFpUnmasked bs s.draws

/-- R185: an unmasked SIMD floating-point exception during execution. -/
def State.raiseSimd (s : State) : State := s.raise (if s.osxmmexcpt then .xf else .ud)

/-- An SSE or SSE2 instruction other than the exempt ones (R184). `ext` is the CPUID bit of its own extension (D14);
`unmasked` says whether it detects an unmasked SIMD floating-point exception (R185, 60_exceptions.md R234, D26; log 14). -/
def execSse (ext unmasked : Bool) (m : Option MemOperand) (len : Nat) (e : NumericEffect) (s : State) : State :=
  if !s.osfxsr then s.raise .ud
  else if !ext then s.raise .ud
  else if s.em then s.raise .ud
  else if s.ts then s.raise .nm
  else
    match s.numericAccess m e with
    | .stop s' => s'
    | .ok ps => if unmasked then s.raiseSimd else s.numericCommit ps .simd len e

/-- Bytes that are no row of the table, by their class (R180): the three gated classes run, any other is refused (U38). -/
def execUnlisted (c : ClassInfo) (bs : List Byte) (s : State) : Host.Outcome State Fault Refusal :=
  match c.cls with
  | .mmx => .next (execMmx c.operand bs.length (Config.numericEffect bs s.draws) s)
  | .sse =>
    .next (execSse s.params.cpuidSse (s.simdUnmasked bs) c.operand bs.length (Config.numericEffect bs s.draws) s)
  | .sse2 =>
    .next (execSse s.params.cpuidSse2 (s.simdUnmasked bs) c.operand bs.length (Config.numericEffect bs s.draws) s)
  | .x87Fp | .wait | .exempt | .other => .refused .unlistedInstruction

end Sys2Proof.Machine
end

