-- ==== Sys2Proof/Machine/Fetch.lean ====
section
/-! DEFINITION. Fetching and decoding at the program counter, and running what was fetched (30_encoding.md R110, 20_memory.md
R81, R103). -/

namespace Sys2Proof.Machine

/-- The longest instruction: 15 bytes (30_encoding.md R110). -/
def maxInstrBytes : Nat := 15

/-- The bytes at linear addresses, up to the first page fault, and the address that fault leaves in CR2. The fetch reads memory as
the last step left it, so it sees at once what an earlier instruction stored: fetch coherence is not in the source (R103), and
this is the model's choice (log 35). -/
def State.fetchBytes (s : State) : List Word → List Byte × Option Word
  | [] => ([], none)
  | a :: rest =>
    match s.translate .fetch a with
    | .error pf => ([], some pf)
    | .ok p => (s.readByte p :: (s.fetchBytes rest).1, (s.fetchBytes rest).2)

/-- What stands at the program counter. -/
inductive Fetched where
  | instr (i : Instr)
  | unlisted (c : ClassInfo) (bs : List Byte)
  | pageFault (pfAddr : Word)
  | refused (r : Refusal)
  deriving DecidableEq, Repr

/-- The refusals of the decoder. -/
def decodeRefusal : DecodeRefusal → Refusal
  | .prefixedForm => .prefixedForm
  | .machineStatusWord => .machineStatusWord
  | .otherDebugRegister => .otherDebugRegister

/-- An MMX instruction after a prefix: 66, F2 and F3 belong to opcodes of SSE and SSE2 only (U21). -/
def prefixedMmx (c : ClassInfo) (bs : List Byte) : Bool := c.cls == .mmx && (bs.take 1).any isPrefixByte

/-- Bytes that are no row: the instruction is the fewest of them that are whole (how its extent is found is the model's choice, log
13), and `insn_class` gives the class of these bytes; a page fault is taken if no whole instruction stands before it. -/
def fetchedUnlisted (bs : List Byte) (pf : Option Word) : Fetched :=
  match unlistedBytes bs with
  | some is => if prefixedMmx (classify is) is then .refused .prefixedForm else .unlisted (classify is) is
  | none =>
    match pf with
    | some a => .pageFault a
    | none => .refused .tooLong

/-- Decode the fetched bytes; a page fault counts only if the instruction reaches it. -/
def fetchedOf (bs : List Byte) (pf : Option Word) : Fetched :=
  match decode bs with
  | .instr i _ => .instr i
  | .refused why => .refused (decodeRefusal why)
  | .unlisted => fetchedUnlisted bs pf
  | .truncated =>
    match pf with
    | some a => .pageFault a
    | none => .refused .tooLong

/-- Fetch at `pc`. -/
def State.fetch (s : State) : Fetched :=
  let w := s.fetchBytes (linearBytes s.pc maxInstrBytes)
  fetchedOf w.1 w.2

/-- Run the instruction at `pc`. -/
def runInstr (s : State) : Host.Outcome State Fault Refusal :=
  match s.fetch with
  | .instr i => exec i s
  | .unlisted c bs => execUnlisted c bs s
  | .pageFault pf => .next (s.raisePageFault pf)
  | .refused r => .refused r

/-- Put bytes where the fetch reads them: at the physical addresses of `pc` and on (translated for the fetch; an address the
translation refuses is passed over). -/
def State.placeCode (s : State) (code : List Byte) : State :=
  s.writeBytes (((linearBytes s.pc code.length).zip code).filterMap fun c =>
    match s.translate .fetch c.1 with
    | .ok p => some (p, c.2)
    | .error _ => none)

end Sys2Proof.Machine
end

