-- ==== Sys2Proof/Machine/Step.lean ====
section
/-! DEFINITION. One step: deliver a raised exception, or take what arrives from outside, or run the instruction at `pc`. -/

namespace Sys2Proof.Machine

/-- One step (00_scope.md section 5: one processor, one instruction per step, program order). An exception the last step
raised is delivered first (log 6); then the next arrival is taken (log 18); with none, the instruction at `pc` runs. -/
def step (s : State) : Host.Outcome State Fault Refusal :=
  match s.raised with
  | some e => .next (s.deliver e)
  | none =>
    match s.arrivals with
    | [] => runInstr s
    | none :: rest => runInstr { s with arrivals := rest }
    | some e :: rest => takeEvent e { s with arrivals := rest }

/-- The state with an instruction of the table stored where the next step fetches it, nothing raised and nothing arriving, so
that the very next step runs it (log 29). -/
def State.withFetchWord (s : State) (nbits w : Nat) : State :=
  ({ s with raised := none, arrivals := [] } : State).placeCode (paddedTableBytes nbits w)

end Sys2Proof.Machine
end

