-- ==== Sys2Proof/Safety.lean ====
section
/-! DEFINITION. What counts as a sound state and a safe step, in the terms the statements use. -/

namespace Sys2Proof.Machine

/-- The invariant of the machine: memory is in its canonical form; ET is set where it is hardwired (10_state.md R31); PG is
not set with PE clear (92 D4); NW is not set with CD clear (92 D8); virtual-8086 mode runs at CPL 3 (40_mov_cr.md R141). -/
def State.Inv (s : State) : Prop :=
  Memory.wf s.mem ∧
  (etHardwired s.params = true → s.cr0.getLsbD 4 = true) ∧
  (s.pg = true → s.pe = true) ∧
  (s.nw = true → s.cd = true) ∧
  (s.vm = true → s.cpl = 3#2)

/-- Parameters whose reset values do not contradict the invariant: `reset_CR0[4] = 1` when `et_hardwired` (10_state.md R76),
and no forbidden pair of flags. -/
def ResetSound (p : Params) : Prop :=
  (etHardwired p = true → p.resetCr0.getLsbD 4 = true) ∧
  (p.resetCr0.getLsbD 31 = true → p.resetCr0.getLsbD 0 = true) ∧
  (p.resetCr0.getLsbD 29 = true → p.resetCr0.getLsbD 30 = true)

/-- The duties of system software on EM and MP (42_fpu_simd_gating.md R194): EM set without an FPU, EM clear with MMX, SSE or SSE2,
MP set with MMX. No rule tests them. -/
def State.FpuDuties (s : State) : Prop :=
  (s.params.hasX87 = .none → s.em = true) ∧
  (s.params.cpuidMmx = true ∨ s.params.cpuidSse = true ∨ s.params.cpuidSse2 = true → s.em = false) ∧
  (s.params.cpuidMmx = true → s.mp = true)

/-- The setting of EM, MP and NE recommended by Table 4 (R193), by whether there is an FPU. Advice, which no rule tests. -/
def State.RecommendedFpuFlags (s : State) : Prop :=
  if s.params.hasX87 = .none then s.em = true ∧ s.mp = false ∧ s.ne = true else s.em = false ∧ s.mp = true

/-- A step that has a next state: no model fault (92 D35), no refusal. -/
def State.Runs (s : State) : Prop := ∃ t, step s = .next t

/-- No check stands between a data access and memory: paging is not active (20_memory.md R81) and no alignment check is made
(R92). -/
def State.PlainMemory (s : State) : Prop := s.pagingActive = false ∧ s.alignmentCheckActive = false

/-- A word that may differ from EFLAGS in OF, SF, ZF, AF, PF and CF only (40_mov_cr.md R153). -/
def State.SystemFlagsKept (s : State) (f : Word) : Prop := f &&& ~~~statusMask = s.eflags &&& ~~~statusMask

/-- The data access a meaning can make: at which operand, what for, the boundary the alignment check tests, how many bytes. -/
structure DataAccess where
  operand : MemOperand
  kind : AccessKind
  boundary : Nat
  width : Nat
  deriving DecidableEq, Repr

/-- The access a numeric instruction, of these bytes, makes at its memory operand. Past its gate the effect of the bytes decides
(log 12). -/
def State.numericData (s : State) (m : Option MemOperand) (bs : List Byte) : Option DataAccess :=
  let e := Config.numericEffect bs s.draws
  m.map fun m => ⟨m, numericKind e, e.boundary, numericWidth e⟩

/-- The data access of an instruction of the table (widths and boundaries: log 10, 21, 23). -/
def State.dataAccess (s : State) (i : Instr) : Option DataAccess :=
  match i with
  | .movnti m _ => some ⟨m, .write, 4, 4⟩
  | .clflush m => some ⟨m, .read, 1, 1⟩
  | .fxsave m => some ⟨m, .write, s.params.fxAlign, fxSize⟩
  | .fxrstor m => some ⟨m, .read, s.params.fxAlign, fxSize⟩
  | .x87 op ext o => s.numericData (rmOperand o) (encode (.x87 op ext o))
  | _ => none

/-- The alignment check lets an access through: it is not active, or the address is a multiple of the boundary (20_memory.md
R92; log 21). -/
def State.Aligned (s : State) (d : DataAccess) : Prop :=
  s.alignmentCheckActive = true → (s.effAddr d.operand).toNat % d.boundary = 0

/-- The bytes of an access are at these physical addresses: the linear ones with paging off (20_memory.md R81), those the
translation answers, for each byte, with paging active (R86); and the alignment check lets it through. No access, no bytes. -/
def State.Reaches (s : State) (a : Option DataAccess) (ps : List Nat) : Prop :=
  match a with
  | none => ps = []
  | some d =>
    s.Aligned d ∧
      if s.pagingActive then s.translateList d.kind (linearBytes (s.effAddr d.operand) d.width) = .ok ps
      else ps = (linearBytes (s.effAddr d.operand) d.width).map BitVec.toNat

/-- Memory after bytes were stored at physical addresses, in order: every other byte is as it was, and so is one where the
address map has no memory (20_memory.md R89, log 36); where one address is stored twice, the last byte stays (log 37). -/
def State.Stored (s : State) (cells : List (Nat × Byte)) (mem : Memory) : Prop :=
  (∀ p, p ∉ cells.map Prod.fst → Memory.read mem p = Memory.read s.mem p) ∧
  ∀ pre p b post, cells = pre ++ (p, b) :: post → p ∉ post.map Prod.fst →
    Memory.read mem p = if s.isRam p then b else Memory.read s.mem p

/-- What stands before the data access of an instruction of the table lets it through: the gate of an x87 instruction, with an FPU and
no error to report (42_fpu_simd_gating.md R181, R192, R194), and that of FXSAVE and FXRSTOR (D36). -/
def State.GateOpen (s : State) (i : Instr) : Prop :=
  match i with
  | .x87 _ _ _ => s.em = false ∧ s.ts = false ∧ s.params.hasX87 ≠ .none ∧ s.fpuError = false
  | .fxsave _ | .fxrstor _ => s.fxGated = false
  | _ => True

/-- An instruction takes `s` to `t`: one of the table, or bytes of a class that has no row (42_fpu_simd_gating.md R180). -/
def State.Executes (s t : State) : Prop := (∃ i, exec i s = .next t) ∨ ∃ c bs, execUnlisted c bs s = .next t

/-- A value of CR4 with the same flags as the state has, among those the processor has: it may differ in the reserved bits and
the absent flags (00_scope.md R5). -/
def State.SameFlags (s : State) (w : Word) : Prop := ∀ i < 11, cr4Flag s.params w i = cr4Flag s.params s.cr4 i

/-- Where 93 G5 puts CR4.PCE: on a Pentium with MMX and on the P6 family and later. -/
def pceByFamily (p : Params) : Bool :=
  match p.proc with
  | .intel386 | .intel486 => false
  | .pentium => p.cpuidMmx
  | .p6 | .pentium4 => true

/-- A processor that 93 G5 can describe: the two parameters of each shared bit agree, and PCE follows the family. -/
def CpuidTells (p : Params) : Prop :=
  p.cr4Present.getLsbD 1 = p.cr4Present.getLsbD 0 ∧ p.cr4Present.getLsbD 10 = p.cpuidSse ∧
    p.cr4Present.getLsbD 8 = pceByFamily p

/-- The flags of CR4, from VME up, as a program reads them from EAX and EDX after CPUID function 1 (93 G5). -/
def flagsFromCpuid (eax edx : Word) : List Bool :=
  let family := (eax.extractLsb' 8 4).toNat
  [edx.getLsbD 1, edx.getLsbD 1, edx.getLsbD 4, edx.getLsbD 2, edx.getLsbD 3, edx.getLsbD 6, edx.getLsbD 7, edx.getLsbD 13,
    decide (6 ≤ family) || (family == 5 && edx.getLsbD 23), edx.getLsbD 24, edx.getLsbD 25]

/-- Two states that may differ in TS, EM, MP, OSFXSR and OSXMMEXCPT only. -/
def SameButGates (s t : State) : Prop :=
  t = { s with cr0 := t.cr0, cr4 := t.cr4 } ∧
  t.cr0 &&& ~~~0x0000000E#32 = s.cr0 &&& ~~~0x0000000E#32 ∧
  t.cr4 &&& ~~~0x00000600#32 = s.cr4 &&& ~~~0x00000600#32

end Sys2Proof.Machine
end

