-- ==== Sys2Proof/Certificates/Slice0/Obligations.lean ====
section
/-! DEFINITION. The statements for the provers. Each docstring names the rule of spec/ it formalises, and the log entry where it
rests on a choice of the spec's or the model's. How an exception is recorded (`raised`) is log 6 throughout. -/

open Sys2Proof Sys2Proof.Machine

/-! ### Encoding -/

/-- 30_encoding.md R110 to R120: the bytes of every well-formed instruction decode to it, whatever follows them. -/
def Obligations.DecodeOfEncode : Prop :=
  ∀ (i : Instr) (rest : List Byte), i.WellFormed → decode (encode i ++ rest) = .instr i (encode i).length

/-- The other direction: what the decoder reads as an instruction is well-formed, has the length R71 adds to `pc`, and its
bytes are the encoder's. No two instructions share bytes and no bit of an encoding is dropped. -/
def Obligations.EncodeOfDecode : Prop :=
  ∀ (bs : List Byte) (i : Instr) (n : Nat), decode bs = .instr i n →
    i.WellFormed ∧ n = i.length ∧ n ≤ bs.length ∧ bs.take n = encode i

/-- Words written out from the examples of the spec (40_mov_cr.md R142 to R151, 41_ts_clts.md R173, 42_fpu_simd_gating.md R181, R182,
R187, R190, 43_cr4_gated.md R210 to R214), and the three encodings 30_encoding.md R121 gives of the classes without a row (EMMS,
XORPS xmm0,xmm0, PXOR xmm0,xmm0: general knowledge there, log 13): no row of the table, a whole instruction whatever follows, and of
their class. PXOR operates on no floating-point number (log 14). -/
def Obligations.SpecExamplesDecode : Prop :=
  (decode [0x0F#8, 0x20#8, 0xD3#8] = .instr (.movR32Cr2 3#2 .ebx) 3 ∧
    decode [0x0F#8, 0x22#8, 0xC3#8] = .instr (.movCr0R32 3#2 .ebx) 3 ∧
    decode [0x0F#8, 0x06#8] = .instr .clts 2 ∧
    decode [0x9B#8] = .instr .wait 1 ∧
    decode [0xD9#8, 0xE8#8] = .instr (.x87 1#3 5#3 (.reg 0#3)) 2 ∧
    decode [0x0F#8, 0x31#8] = .instr .rdtsc 2 ∧
    decode [0x0F#8, 0x23#8, 0xE8#8] = .instr (.movDr5R32 3#2 .eax) 3 ∧
    decode [0x0F#8, 0xAE#8, 0x00#8] = .instr (.fxsave ⟨0#2, 0#3, 0#8, 0#32⟩) 3 ∧
    decode [0x0F#8, 0xAE#8, 0xF8#8] = .instr .sfence 3 ∧
    decode [0xF3#8, 0x90#8] = .instr .pause 2) ∧
  ∀ rest : List Byte,
    (∀ e ∈ [([0x0F#8, 0x77#8], InsnClass.mmx), ([0x0F#8, 0x57#8, 0xC0#8], .sse), ([0x66#8, 0x0F#8, 0xEF#8, 0xC0#8], .sse2)],
      decode (e.1 ++ rest) = .unlisted ∧ unlistedBytes (e.1 ++ rest) = some e.1 ∧ classify e.1 = ⟨e.2, none⟩) ∧
    operatesOnFloats [0x66#8, 0x0F#8, 0xEF#8, 0xC0#8] = false

/-- The forms the spec has refused. 30_encoding.md R110, R125, D31, U21 (the spec's own choice; which bytes are prefixes is log
25): a row of the table after one or more prefix bytes; and bytes that begin with a prefix byte other than 66, F2 and F3 are
never an instruction, nor left to `insn_class`: they are refused, or end inside the instruction. 30_encoding.md R118: a MOV to or
from a debug register other than DR4 and DR5. 40_mov_cr.md R140, U20: LMSW and SMSW (which bytes spell them is log 25). -/
def Obligations.ExcludedFormsRefused : Prop :=
  (∀ (ps : List Byte) (i : Instr) (rest : List Byte), ps ≠ [] → (∀ p ∈ ps, isPrefixByte p = true) → i.WellFormed →
    decode (ps ++ (encode i ++ rest)) = .refused .prefixedForm) ∧
  (∀ (p : Byte) (bs : List Byte), isPrefixByte p = true → p ∉ [0x66#8, 0xF2#8, 0xF3#8] →
    decode (p :: bs) = .truncated ∨ ∃ why, decode (p :: bs) = .refused why) ∧
  (∀ (op b : Byte) (rest : List Byte), op ∈ [0x21#8, 0x23#8] → regField b ∉ [4#3, 5#3] →
    decode (0x0F#8 :: op :: b :: rest) = .refused .otherDebugRegister) ∧
  (∀ (b : Byte) (rest : List Byte), regField b ∈ [4#3, 6#3] →
    decode (0x0F#8 :: 0x01#8 :: b :: rest) = .refused .machineStatusWord)

/-! ### The step -/

/-- A step runs what is decoded from the bytes fetched at `pc`, with nothing raised and nothing arriving (00_scope.md section 5;
what the step adds around it is log 6, 18): `exec i` if they decode to `i`; if they are no row of the table and begin with a whole
instruction, the gates of its class (42_fpu_simd_gating.md R180), or a refusal if it is MMX with a prefix (U21); a refusal if the
decoder refuses. An instruction without a row is the first of those bytes, and the same whatever bytes follow it, so that its
class is of it alone (00_scope.md R4; how its extent is found is the model's choice, log 13). The bytes
fetched are those at `pc` and on: with paging off at the linear addresses, with paging active at the addresses the translation
answers, as far as it does (20_memory.md R81, R86): what memory holds where the address map has memory, and open elsewhere (R89;
log 35, 36). -/
def Obligations.StepRunsDecoded : Prop :=
  ∀ s u : State, s.raised = none →
    (s.arrivals = [] ∧ u = s ∨ ∃ rest, s.arrivals = none :: rest ∧ u = { s with arrivals := rest }) →
    let bs := (s.fetchBytes (linearBytes s.pc maxInstrBytes)).1
    (∀ i n, decode bs = .instr i n → step s = exec i u) ∧
    (∀ is, decode bs = .unlisted → unlistedBytes bs = some is →
      is ≠ [] ∧ is <+: bs ∧ (∀ rest, unlistedBytes (is ++ rest) = some is) ∧
      step s = if prefixedMmx (classify is) is then .refused .prefixedForm else execUnlisted (classify is) is u) ∧
    (∀ why, decode bs = .refused why → step s = .refused (decodeRefusal why)) ∧
    (s.pagingActive = false →
      s.fetchBytes (linearBytes s.pc maxInstrBytes) =
        ((linearBytes s.pc maxInstrBytes).map fun a =>
          if s.isRam a.toNat then Memory.read s.mem a.toNat else Config.platformRead a.toNat s.draws, none)) ∧
    ∀ n ps, n ≤ maxInstrBytes → s.translateList .fetch (linearBytes s.pc n) = .ok ps →
      bs.take n = ps.map fun p => if s.isRam p then Memory.read s.mem p else Config.platformRead p s.draws

/-- An instruction of the table placed for the fetch, where the address map has memory, is what the next step runs (log 29, 36). -/
def Obligations.PlacedWordRuns : Prop :=
  ∀ (s : State) (nbits w : Nat) (i : Instr), s.pagingActive = false → nbits ≤ 64 →
    (∀ a ∈ linearBytes s.pc longestInstr, s.isRam a.toNat = true) →
    decodeTableWord nbits w = some i → step (s.withFetchWord nbits w) = exec i (s.withFetchWord nbits w)

/-- A raised exception is delivered by the next step (60_exceptions.md R245, R246, D11; log 6): control registers keep their
values but for TS, and so do the contexts of the units and the debug registers. -/
def Obligations.DeliveryKeepsControlRegisters : Prop :=
  ∀ (s : State) (e : Exc), s.raised = some e →
    ∃ t, step s = .next t ∧ t.raised = none ∧
      (t.cr0 = s.cr0 ∨ t.cr0 = s.cr0 ||| 0x00000008#32) ∧ t.cr2 = s.cr2 ∧ t.cr3 = s.cr3 ∧ t.cr4 = s.cr4 ∧
      t.fpu = s.fpu ∧ t.sse = s.sse ∧ t.dr4 = s.dr4 ∧ t.dr5 = s.dr5 ∧ t.params = s.params

/-- A page fault at the first byte of the instruction (60_exceptions.md R236): CR2 receives the address, nothing else changes
but the record of the exception. Whether there is one is the translation's answer, which is open (log 7). -/
def Obligations.FetchPageFault : Prop :=
  ∀ s : State, s.raised = none → s.arrivals = [] →
    (∃ p, s.translate .fetch s.pc = .ok p) ∨
    (∃ pf, s.translate .fetch s.pc = .error pf ∧ step s = .next { s with cr2 := pf, raised := some .pf })

/-! ### Reset and invariants -/

/-- 10_state.md R76, D7, and the defaults given there as general knowledge (log 2): the control registers are the parameters
`reset_CRn`; by default the machine is in real-address mode at FFFFFFF0h with CR0 = 60000010h. -/
def Obligations.ResetState : Prop :=
  (∀ p : Params, (State.resetOf p).cr0 = p.resetCr0 ∧ (State.resetOf p).cr2 = p.resetCr2 ∧
    (State.resetOf p).cr3 = p.resetCr3 ∧ (State.resetOf p).cr4 = p.resetCr4 ∧ (State.resetOf p).cpl = 0#2) ∧
  State.reset = State.resetOf Params.default ∧ State.reset.cr0 = 0x60000010#32 ∧ State.reset.mode = .realMode ∧
  State.reset.pc = 0xFFFFFFF0#32 ∧ State.reset.mem = []

/-- The invariant holds at reset, for all parameters that meet the constraint of 10_state.md R76 and set no forbidden pair. -/
def Obligations.InvAtReset : Prop :=
  ResetSound Params.default ∧ ∀ p : Params, ResetSound p → (State.resetOf p).Inv

/-- Every step keeps the invariant: canonical memory, ET set where hardwired (R31), no PG without PE (D4), no NW without CD
(D8), CPL 3 in virtual-8086 mode (D3). -/
def Obligations.StepKeepsInv : Prop :=
  ∀ s t : State, s.Inv → step s = .next t → t.Inv

/-- 10_state.md R62 and 93 U2: reserved bits are "constant, because no permitted write changes them" (D5, the spec's own
choice): no step changes a reserved bit of CR0, CR3 or CR4, the parameters, or the layout they give. -/
def Obligations.ReservedBitsConstant : Prop :=
  ∀ s t : State, s.Inv → step s = .next t →
    t.params = s.params ∧
    t.cr0 &&& rsvd0 s.params = s.cr0 &&& rsvd0 s.params ∧
    t.cr3 &&& s.rsvd3 = s.cr3 &&& s.rsvd3 ∧
    t.cr4 &&& rsvd4 s.params = s.cr4 &&& rsvd4 s.params

/-- 10_state.md R63 (an inference the spec marks as its own): the writers of each control register, over every step. -/
def Obligations.ControlRegisterWriters : Prop :=
  ∀ s t : State, step s = .next t →
    (t.cr0 ≠ s.cr0 → s.raised ≠ none ∨ (∃ rest, s.arrivals = some .taskSwitch :: rest) ∨ s.fetch = .instr .clts ∨
      ∃ md r, s.fetch = .instr (.movCr0R32 md r)) ∧
    (t.cr2 ≠ s.cr2 → s.raised = none ∧ (t.raised = some .pf ∨ ∃ md r, s.fetch = .instr (.movCr2R32 md r))) ∧
    (t.cr3 ≠ s.cr3 → s.raised = none ∧ ∃ md r, s.fetch = .instr (.movCr3R32 md r)) ∧
    (t.cr4 ≠ s.cr4 → s.raised = none ∧ ∃ md r, s.fetch = .instr (.movCr4R32 md r))

/-- 60_exceptions.md R245 (D11, the spec's own choice): an instruction that ends in an exception has written nothing: the next
state differs in the record of the exception, and in CR2 for a page fault (R236). The report of a pending x87 error also ends
that error (log 20); the PC-style interrupt comes after its instruction and is left out. An instruction is one of the table, or
bytes of the classes `mmx`, `sse` and `sse2`. -/
def Obligations.ExceptionsArePrecise : Prop :=
  ∀ (s t : State) (e : Exc), s.raised = none → s.Executes t → t.raised = some e → e ≠ .fpuInterrupt →
    t = { s with raised := some e, cr2 := t.cr2, fpuError := t.fpuError } ∧
    (e ≠ .pf → t.cr2 = s.cr2) ∧ (e ≠ .mf → t.fpuError = s.fpuError)

/-- 10_state.md R66: no instruction writes CPL. That none writes a flag of EFLAGS other than the status flags is the model's: the
source does not say who writes them (R65), a rule that names no flag changes none (log 33), what a numeric instruction reaches is
log 12, and where the flags lie is log 9. An instruction is one of the table, or bytes of the classes `mmx`, `sse` and `sse2`. -/
def Obligations.ExecKeepsPrivilege : Prop :=
  ∀ s t : State, s.Executes t →
    t.cpl = s.cpl ∧ t.params = s.params ∧ t.arrivals = s.arrivals ∧ s.SystemFlagsKept t.eflags

/-- 40_mov_cr.md R141 over all instructions, of the table or of the classes `mmx`, `sse` and `sse2`: where `priv_ok` fails, none
changes CR0, CR3 or CR4, and CR2 only by a page fault. -/
def Obligations.UnprivilegedCannotWrite : Prop :=
  ∀ s t : State, s.privOk = false → s.raised = none → s.Executes t →
    t.cr0 = s.cr0 ∧ t.cr3 = s.cr3 ∧ t.cr4 = s.cr4 ∧ (t.cr2 = s.cr2 ∨ t.raised = some .pf)

/-! ### MOV to and from a control register -/

/-- 40_mov_cr.md R142 to R145, R153: where `priv_ok` holds, the register receives the control register, `pc` advances by 3, the
status flags are open, and nothing else changes. ET reads 1 where hardwired (10_state.md R31). -/
def Obligations.MovFromCrResult : Prop :=
  ∀ (md : BitVec 2) (r : Reg) (s : State), s.privOk = true →
    ∃ f d, s.SystemFlagsKept f ∧
      exec (.movR32Cr0 md r) s =
        .next { s with regs := putReg r s.readCr0 s.regs, pc := s.pc + 3#32, eflags := f, draws := d } ∧
      exec (.movR32Cr2 md r) s =
        .next { s with regs := putReg r s.cr2 s.regs, pc := s.pc + 3#32, eflags := f, draws := d } ∧
      exec (.movR32Cr3 md r) s =
        .next { s with regs := putReg r s.cr3 s.regs, pc := s.pc + 3#32, eflags := f, draws := d } ∧
      exec (.movR32Cr4 md r) s =
        .next { s with regs := putReg r s.cr4 s.regs, pc := s.pc + 3#32, eflags := f, draws := d } ∧
      (etHardwired s.params = true → s.readCr0.getLsbD 4 = true) ∧
      (etHardwired s.params = false → s.readCr0 = s.cr0)

/-- 40_mov_cr.md R141 and 41_ts_clts.md R173 (the outcome is D1, D3, the spec's own choice): where `priv_ok` fails, MOV to and from
CR0, CR2, CR3, CR4 and CLTS raise #GP(0), and `priv_ok` fails exactly outside real-address mode and level 0 of protected mode. -/
def Obligations.PrivilegeViolation : Prop :=
  ∀ (md : BitVec 2) (r : Reg) (s : State),
    (s.privOk = true ↔ s.mode = .realMode ∨ (s.mode = .protectedMode ∧ s.cpl = 0#2)) ∧
    (s.privOk = false → ∀ i ∈ [Instr.movR32Cr0 md r, .movR32Cr2 md r, .movR32Cr3 md r, .movR32Cr4 md r, .movCr0R32 md r,
        .movCr2R32 md r, .movCr3R32 md r, .movCr4R32 md r, .clts],
      exec i s = .next { s with raised := some (.gp 0#32) })

/-- 40_mov_cr.md R150, R151, R155 (D6, D27, the spec's own choice): a MOV naming CR1, CR5, CR6 or CR7 raises #UD whatever the mode and CPL. -/
def Obligations.ReservedCrNumberRaisesUd : Prop :=
  ∀ (md : BitVec 2) (r : Reg) (s : State),
    ∀ i ∈ [Instr.movR32Cr1 md r, .movR32Cr5 md r, .movR32Cr6 md r, .movR32Cr7 md r, .movCr1R32 md r, .movCr5R32 md r,
        .movCr6R32 md r, .movCr7R32 md r],
      exec i s = .next { s with raised := some .ud }

/-- 40_mov_cr.md R146: a permitted value goes into CR0; `pc` advances by 3, the status flags are open, nothing else changes. -/
def Obligations.MovToCr0Result : Prop :=
  ∀ (md : BitVec 2) (r : Reg) (s : State), s.privOk = true →
    ¬ ((s.reg r).getLsbD 31 = true ∧ (s.reg r).getLsbD 0 = false) →
    ¬ ((s.reg r).getLsbD 30 = false ∧ (s.reg r).getLsbD 29 = true) →
    s.reg r &&& rsvd0 s.params = s.readCr0 &&& rsvd0 s.params →
    ∃ f d, s.SystemFlagsKept f ∧
      exec (.movCr0R32 md r) s = .next { s with cr0 := s.reg r, pc := s.pc + 3#32, eflags := f, draws := d }

/-- 40_mov_cr.md R146: a value with PG = 1 and PE = 0 raises #GP (the source's sentence; on the written value, D4; code 0 is
general knowledge), and so does one with CD = 0 and NW = 1 (D8), whatever CR0 holds. -/
def Obligations.MovToCr0ForbiddenValue : Prop :=
  ∀ (md : BitVec 2) (r : Reg) (s : State),
    ((s.reg r).getLsbD 31 = true ∧ (s.reg r).getLsbD 0 = false) ∨
      ((s.reg r).getLsbD 30 = false ∧ (s.reg r).getLsbD 29 = true) →
    exec (.movCr0R32 md r) s = .next { s with raised := some (.gp 0#32) }

/-- 40_mov_cr.md R147: any value goes into CR2. -/
def Obligations.MovToCr2Result : Prop :=
  ∀ (md : BitVec 2) (r : Reg) (s : State), s.privOk = true →
    ∃ f d, s.SystemFlagsKept f ∧
      exec (.movCr2R32 md r) s = .next { s with cr2 := s.reg r, pc := s.pc + 3#32, eflags := f, draws := d }

/-- 40_mov_cr.md R148: a value that keeps the reserved bits goes into CR3; RSVD3 is 00000FE7h with PAE clear, and with PAE set
what `pae_cr3_layout` leaves (log 27). -/
def Obligations.MovToCr3Result : Prop :=
  ∀ (md : BitVec 2) (r : Reg) (s : State), s.privOk = true → s.reg r &&& s.rsvd3 = s.cr3 &&& s.rsvd3 →
    (s.pae = false → s.rsvd3 = 0x00000FE7#32) ∧
    ∃ f d, s.SystemFlagsKept f ∧
      exec (.movCr3R32 md r) s = .next { s with cr3 := s.reg r, pc := s.pc + 3#32, eflags := f, draws := d }

/-- 40_mov_cr.md R149: a value that keeps the reserved bits and absent flags, and sets PGE, where the processor has it, only with
PGE or PG already set, goes into CR4. -/
def Obligations.MovToCr4Result : Prop :=
  ∀ (md : BitVec 2) (r : Reg) (s : State), s.privOk = true →
    s.reg r &&& rsvd4 s.params = s.cr4 &&& rsvd4 s.params →
    (cr4Flag s.params (s.reg r) 7 = true → s.pge = true ∨ s.pg = true) →
    ∃ f d, s.SystemFlagsKept f ∧
      exec (.movCr4R32 md r) s = .next { s with cr4 := s.reg r, pc := s.pc + 3#32, eflags := f, draws := d }

/-- 40_mov_cr.md R152, R149 (D5, D20, D35, the spec's own choice): a write that would change a reserved bit, and one that sets PGE before
PG, are model faults; the reserved bits are tested first (R155). -/
def Obligations.SoftwareDutyFaults : Prop :=
  ∀ (md : BitVec 2) (r : Reg) (s : State), s.privOk = true →
    (cr0ValueForbidden (s.reg r) = false → s.reg r &&& rsvd0 s.params ≠ s.readCr0 &&& rsvd0 s.params →
      exec (.movCr0R32 md r) s = .fault .reservedBitsChanged) ∧
    (s.reg r &&& s.rsvd3 ≠ s.cr3 &&& s.rsvd3 → exec (.movCr3R32 md r) s = .fault .reservedBitsChanged) ∧
    (s.reg r &&& rsvd4 s.params ≠ s.cr4 &&& rsvd4 s.params → exec (.movCr4R32 md r) s = .fault .reservedBitsChanged) ∧
    (s.reg r &&& rsvd4 s.params = s.cr4 &&& rsvd4 s.params → cr4Flag s.params (s.reg r) 7 = true →
      s.pge = false → s.pg = false → exec (.movCr4R32 md r) s = .fault .pgeBeforePg)

/-- 40_mov_cr.md R154, R156: a write governs the next instruction and moves 32 bits unchanged: a MOV that reads the register just
written gets the value written. -/
def Obligations.WriteThenReadCr : Prop :=
  ∀ (md md' : BitVec 2) (r r' : Reg) (s t u : State), s.raised = none → u.raised = none →
    (exec (.movCr0R32 md r) s = .next t → exec (.movR32Cr0 md' r') t = .next u → t.raised = none → u.reg r' = s.reg r) ∧
    (exec (.movCr2R32 md r) s = .next t → exec (.movR32Cr2 md' r') t = .next u → t.raised = none → u.reg r' = s.reg r) ∧
    (exec (.movCr3R32 md r) s = .next t → exec (.movR32Cr3 md' r') t = .next u → t.raised = none → u.reg r' = s.reg r) ∧
    (exec (.movCr4R32 md r) s = .next t → exec (.movR32Cr4 md' r') t = .next u → t.raised = none → u.reg r' = s.reg r)

/-- 10_state.md R35, R68: PE of the value written to CR0 decides the mode after the write: real-address mode when clear, protected or
virtual-8086 mode, by `vm`, when set. -/
def Obligations.ModeFollowsPe : Prop :=
  ∀ (md : BitVec 2) (r : Reg) (s t : State), s.raised = none → exec (.movCr0R32 md r) s = .next t → t.raised = none →
    t.mode = (if (s.reg r).getLsbD 0 then (if s.eflags.getLsbD 17 then .v86Mode else .protectedMode) else .realMode)

/-! ### TS -/

/-- 41_ts_clts.md R173: CLTS clears TS and nothing else of CR0, changes no flag, and `pc` advances by 2. -/
def Obligations.CltsResult : Prop :=
  ∀ s : State, s.privOk = true →
    exec .clts s = .next { s with cr0 := s.cr0 &&& 0xFFFFFFF7#32, pc := s.pc + 2#32 }

/-- 41_ts_clts.md R172: the processor never clears TS by itself; CLTS and MOV to CR0 can. -/
def Obligations.TsClearedBySoftwareOnly : Prop :=
  (∀ s t : State, step s = .next t → s.ts = true → t.ts = false →
    s.raised = none ∧ (s.fetch = .instr .clts ∨ ∃ md r, s.fetch = .instr (.movCr0R32 md r))) ∧
  (∀ s : State, s.privOk = true → ∃ t, exec .clts s = .next t ∧ t.ts = false) ∧
  (∃ (md : BitVec 2) (r : Reg) (s t : State), s.ts = true ∧ exec (.movCr0R32 md r) s = .next t ∧ t.ts = false)

/-- 41_ts_clts.md R170 and R171: a task switch sets TS and saves no context: the x87 FPU (and MMX) registers, XMM and MXCSR keep
their values. -/
def Obligations.TaskSwitchSetsTs : Prop :=
  ∀ (s : State) (rest : List (Option Event)), s.raised = none → s.arrivals = some .taskSwitch :: rest →
    ∃ t, step s = .next t ∧ t.ts = true ∧ t.fpu = s.fpu ∧ t.sse = s.sse

/-! ### The gates -/

/-- 42_fpu_simd_gating.md R181: `if CR0.EM = 1 or CR0.TS = 1 then raise NM`, and otherwise an x87 instruction does not raise it. -/
def Obligations.X87GateRaisesNm : Prop :=
  ∀ (op ext : BitVec 3) (o : RmOperand) (s : State), s.raised = none →
    ((∃ t, exec (.x87 op ext o) s = .next t ∧ t.raised = some .nm) ↔ s.em = true ∨ s.ts = true)

/-- 42_fpu_simd_gating.md R182: `if CR0.MP = 1 and CR0.TS = 1 then raise NM`, and otherwise WAIT/FWAIT does not raise it. -/
def Obligations.WaitGateRaisesNm : Prop :=
  ∀ s : State, s.raised = none →
    ((∃ t, exec .wait s = .next t ∧ t.raised = some .nm) ↔ s.mp = true ∧ s.ts = true)

/-- 42_fpu_simd_gating.md R181: an x87 instruction raises #NM when EM or TS is set; else it passes its gate, and with an FPU, no pending
error and the bytes of its memory operand, if it has one, within reach (paging off, or translated; 20_memory.md R81, R86, R92), it
completes, advancing `pc` by its length. It may change the x87/MMX context, one general register, the status flags, and the bytes
it stores at its operand (log 12), nothing else. -/
def Obligations.X87GateAndResult : Prop :=
  ∀ (op ext : BitVec 3) (o : RmOperand) (s : State),
    (s.em = true ∨ s.ts = true → exec (.x87 op ext o) s = .next { s with raised := some .nm }) ∧
    (s.em = false → s.ts = false → s.params.hasX87 ≠ .none → s.fpuError = false →
      ∀ ps, s.Reaches (s.dataAccess (.x87 op ext o)) ps →
        ∃ fpu regs f mem,
          exec (.x87 op ext o) s =
            .next { s with
              fpu := fpu, regs := regs, eflags := f, mem := mem, draws := s.draws + 1,
              pc := s.pc + BitVec.ofNat 32 (Instr.length (.x87 op ext o)) } ∧
          s.SystemFlagsKept f ∧ (regs = s.regs ∨ ∃ r v, regs = putReg r v s.regs) ∧
          (∀ rm, o = .reg rm → mem = s.mem) ∧
          s.Stored (ps.zip (Config.numericEffect (encode (.x87 op ext o)) s.draws).stores) mem)

/-- 42_fpu_simd_gating.md R194 (D34, the spec's own choice): past the gate without an FPU, a model fault. -/
def Obligations.X87WithoutFpu : Prop :=
  ∀ (op ext : BitVec 3) (o : RmOperand) (s : State), s.em = false → s.ts = false → s.params.hasX87 = .none →
    exec (.x87 op ext o) s = .fault .noFpu

/-- 42_fpu_simd_gating.md R182 and R192: past its gate WAIT/FWAIT with no x87 error pending only advances `pc` by 1 (that it does
nothing else is log 20); at its gate it raises #NM and does nothing else. EM does not enter. -/
def Obligations.WaitGateAndResult : Prop :=
  ∀ s : State,
    (s.mp = true ∧ s.ts = true → exec .wait s = .next { s with raised := some .nm }) ∧
    (¬ (s.mp = true ∧ s.ts = true) → s.fpuError = false → exec .wait s = .next { s with pc := s.pc + 1#32 })

/-- 42_fpu_simd_gating.md R192 and 60_exceptions.md R239 (how it is recorded and ended is log 20), past the gate of each, where the
bytes of its memory operand, if it has one, are within reach: with NE = 1 a pending x87 error is reported in place of WAIT/FWAIT or of an x87
instruction that waits (which do is open), and an x87 instruction that does not wait completes; with NE = 0 an interrupt comes
right after the instruction, `pc` on the next one, unless IGNNE# suppresses it. That the core raises it itself in that step, without
a path over FERR# and external logic, is the model's choice (log 20). -/
def Obligations.FpuErrorReported : Prop :=
  ∀ s : State, s.raised = none → s.fpuError = true →
    (¬ (s.mp = true ∧ s.ts = true) →
      (s.ne = true → exec .wait s = .next { s with fpuError := false, raised := some .mf }) ∧
      (s.ne = false → s.ignne = true → exec .wait s = .next { s with pc := s.pc + 1#32 }) ∧
      (s.ne = false → s.ignne = false →
        exec .wait s = .next { s with pc := s.pc + 1#32, fpuError := false, raised := some .fpuInterrupt })) ∧
    (s.ts = false → s.em = false → s.params.hasX87 ≠ .none → ∀ op ext o,
      let next := s.pc + BitVec.ofNat 32 (Instr.length (.x87 op ext o))
      let reached := ∃ ps, s.Reaches (s.dataAccess (.x87 op ext o)) ps
      let completes := ∃ t, exec (.x87 op ext o) s = .next t ∧ t.pc = next ∧ t.raised = none
      (s.ne = true →
        if Config.x87Waits (encode (.x87 op ext o)) then
          exec (.x87 op ext o) s = .next { s with fpuError := false, raised := some .mf }
        else reached → completes) ∧
      (s.ne = false → s.ignne = true → reached → completes) ∧
      (s.ne = false → s.ignne = false → reached →
        ∃ t, exec (.x87 op ext o) s = .next t ∧ t.pc = next ∧ t.fpuError = false ∧ t.raised = some .fpuInterrupt))

/-- 42_fpu_simd_gating.md R183, R186 (D15, D16): bytes of class `mmx` raise #UD with EM set or without MMX, else #NM with TS set; else
they complete (a memory form where its bytes are within reach), and may change the x87/MMX context, one general register, the
status flags and the bytes stored at their operand (log 12), nothing else. MP does not enter. Which bytes are of the class is log 13. -/
def Obligations.MmxGateAndResult : Prop :=
  ∀ (c : ClassInfo) (bs : List Byte) (s : State), c.cls = .mmx →
    (s.em = true ∨ s.params.cpuidMmx = false → execUnlisted c bs s = .next { s with raised := some .ud }) ∧
    (s.em = false → s.params.cpuidMmx = true → s.ts = true → execUnlisted c bs s = .next { s with raised := some .nm }) ∧
    (s.em = false → s.params.cpuidMmx = true → s.ts = false →
      ∀ ps, s.Reaches (s.numericData c.operand bs) ps → ∃ fpu regs f mem,
        execUnlisted c bs s =
          .next { s with
            fpu := fpu, regs := regs, eflags := f, mem := mem, draws := s.draws + 1, pc := s.pc + BitVec.ofNat 32 bs.length } ∧
        s.SystemFlagsKept f ∧ (regs = s.regs ∨ ∃ r v, regs = putReg r v s.regs) ∧ (c.operand = none → mem = s.mem) ∧
        s.Stored (ps.zip (Config.numericEffect bs s.draws).stores) mem)

/-- 42_fpu_simd_gating.md R184, R185, R186 (D14, D15): bytes of class `sse` or `sse2` raise #UD with OSFXSR clear, without their own
extension, or with EM set; else #NM with TS set; else, on an unmasked SIMD floating-point exception (open, log 14), #XF or #UD
by OSXMMEXCPT; else they complete (a memory form where its bytes are within reach), and may change the x87/MMX and SSE
contexts, one general register, the status flags and the bytes stored at their operand (log 12), nothing else. Only instructions
that operate on floating-point numbers detect that exception (60_exceptions.md R234; which do is open), and a step, of whatever
kind, ends in #XF only with OSXMMEXCPT set, at such an instruction that the gate let through. -/
def Obligations.SseGateAndResult : Prop :=
  (∀ (c : ClassInfo) (bs : List Byte) (s : State) (ext : Bool),
    (c.cls = .sse ∧ ext = s.params.cpuidSse) ∨ (c.cls = .sse2 ∧ ext = s.params.cpuidSse2) →
    (s.osfxsr = false ∨ ext = false ∨ s.em = true → execUnlisted c bs s = .next { s with raised := some .ud }) ∧
    (s.osfxsr = true → ext = true → s.em = false →
      (s.ts = true → execUnlisted c bs s = .next { s with raised := some .nm }) ∧
      (s.ts = false → ∀ ps, s.Reaches (s.numericData c.operand bs) ps →
        ∃ fpu sse regs f mem,
          execUnlisted c bs s = .next
            (if operatesOnFloats bs && Config.simdFpUnmasked bs s.draws then { s with raised := some (if s.osxmmexcpt then .xf else .ud) }
            else
              { s with
                fpu := fpu, sse := sse, regs := regs, eflags := f, mem := mem, draws := s.draws + 1,
                pc := s.pc + BitVec.ofNat 32 bs.length }) ∧
          s.SystemFlagsKept f ∧ (regs = s.regs ∨ ∃ r v, regs = putReg r v s.regs) ∧ (c.operand = none → mem = s.mem) ∧
          s.Stored (ps.zip (Config.numericEffect bs s.draws).stores) mem))) ∧
  ∀ s t : State, step s = .next t →
    t.raised ≠ some .xf ∨
      (s.osxmmexcpt = true ∧ s.osfxsr = true ∧ s.em = false ∧ s.ts = false ∧
        ∃ c bs, s.fetch = .unlisted c bs ∧ operatesOnFloats bs = true ∧
          ((c.cls = .sse ∧ s.params.cpuidSse = true) ∨ (c.cls = .sse2 ∧ s.params.cpuidSse2 = true)))

/-- 42_fpu_simd_gating.md R187: no test of TS, EM, MP, OSFXSR or OSXMMEXCPT: an exempt instruction does the same in two states that differ
in those flags only, and where the bytes of its data access, if it makes one, are within reach it executes. -/
def Obligations.ExemptInstructionsUngated : Prop :=
  ∀ (i : Instr) (s t : State), i.insnClass = .exempt → SameButGates s t →
    (∃ s', exec i s = .next s' ∧ exec i t = .next { s' with cr0 := t.cr0, cr4 := t.cr4 }) ∧
    (∀ ps, s.Reaches (s.dataAccess i) ps → ∃ s', exec i s = .next s' ∧ s'.raised = s.raised ∧ s'.pc = s.pc + BitVec.ofNat 32 i.length)

/-- 41_ts_clts.md R175 (an inference the spec marks as its own): no other instruction depends on TS. An instruction of class `other`
that neither is FXSAVE or FXRSTOR (D36) nor reads or writes CR0 does the same with TS set. -/
def Obligations.TsGatesNothingElse : Prop :=
  ∀ (i : Instr) (s t : State), i.insnClass = .other → (∀ m, i ≠ .fxsave m ∧ i ≠ .fxrstor m) → i ≠ .clts →
    (∀ md r, i ≠ .movR32Cr0 md r ∧ i ≠ .movCr0R32 md r) → exec i s = .next t → exec i s.setTs = .next t.setTs

/-! ### The exempt instructions -/

/-- 42_fpu_simd_gating.md R187, D17 (log 22): PAUSE, PREFETCHh and the fences only advance `pc`. -/
def Obligations.HintsAndFencesAreNoOps : Prop :=
  ∀ (m : MemOperand) (s : State),
    exec .pause s = .next { s with pc := s.pc + 2#32 } ∧
    (∀ i ∈ [Instr.sfence, .lfence, .mfence], exec i s = .next { s with pc := s.pc + 3#32 }) ∧
    (∀ i ∈ [Instr.prefetchnta m, .prefetcht0 m, .prefetcht1 m, .prefetcht2 m],
      exec i s = .next { s with pc := s.pc + BitVec.ofNat 32 (3 + m.size) })

/-- 30_encoding.md R120, 20_memory.md R90 (log 8, 23): MOVNTI stores the register at the effective address, least significant byte
first, at the addresses the translation answers if paging is active (R81, R86), where the address map has memory; no other byte and
no register changes (log 36). An active alignment check does not stop it at a multiple of 4 (R92, log 21). -/
def Obligations.MovntiStores : Prop :=
  ∀ (m : MemOperand) (g : Reg) (s : State) (ps : List Nat), s.Reaches (s.dataAccess (.movnti m g)) ps →
    ∃ mem, exec (.movnti m g) s = .next { s with mem := mem, pc := s.pc + BitVec.ofNat 32 (3 + m.size) } ∧
      s.Stored (ps.zip ([0, 8, 16, 24].map fun i => (s.reg g).extractLsb' i 8)) mem

/-- 20_memory.md R99, 93 U18 (log 23, 24): CLFLUSH only advances `pc` in a model without caches, where its byte is within reach. -/
def Obligations.ClflushCompletes : Prop :=
  ∀ (m : MemOperand) (s : State) (ps : List Nat), s.Reaches (s.dataAccess (.clflush m)) ps →
    exec (.clflush m) s = .next { s with pc := s.pc + BitVec.ofNat 32 (3 + m.size) }

/-! ### FXSAVE and FXRSTOR -/

/-- 42_fpu_simd_gating.md R190: FXSAVE writes its image of 512 bytes at its operand, at the addresses the translation answers if
paging is active; no other byte and no register changes. The image holds the x87 and MMX context; with OSFXSR set it holds MXCSR
and the XMM registers, and with OSFXSR clear their bytes are open (U30). Size and layout are log 10; a byte where the map has no
memory goes to the platform (log 36); that it completes on every processor, whatever CPUID shows, is the model's choice (N21; log
11). -/
def Obligations.FxsaveResult : Prop :=
  ∀ (m : MemOperand) (s : State) (ps : List Nat), s.fxGated = false → s.Reaches (s.dataAccess (.fxsave m)) ps →
    (∃ mem, exec (.fxsave m) s =
        .next { s with mem := mem, draws := s.draws + 1, pc := s.pc + BitVec.ofNat 32 (3 + m.size) } ∧
      s.Stored (ps.zip s.fxImage) mem) ∧
    ps.length = 512 ∧ s.fxImage.length = 512 ∧ fpuOfImage s.fxImage = s.fpu ∧
    (s.osfxsr = true → sseOfImage s.fxImage = s.sse) ∧
    (s.osfxsr = false → ∀ k, 24 ≤ k ∧ k < 28 ∨ 160 ≤ k ∧ k < 288 →
      s.fxImage[k]? = some (Config.freeByte k s.draws))

/-- 42_fpu_simd_gating.md R191: FXRSTOR loads the x87 and MMX context from the 512 bytes at its operand, at the addresses the
translation answers if paging is active, and with OSFXSR set MXCSR and the XMM registers; with OSFXSR clear these keep their
values. No byte of memory and no other register changes (size and layout log 10; the bytes read are those of memory where the map
has it, and open elsewhere, log 36). That it completes on every processor, whatever CPUID shows, is the model's choice (N21; log
11), and so is that a pending x87 error stays as it was (log 20). -/
def Obligations.FxrstorResult : Prop :=
  ∀ (m : MemOperand) (s : State) (ps : List Nat), s.fxGated = false → s.Reaches (s.dataAccess (.fxrstor m)) ps →
    let image := ps.map fun p => if s.isRam p then Memory.read s.mem p else Config.platformRead p s.draws
    exec (.fxrstor m) s =
      .next { s with
        fpu := fpuOfImage image
        sse := if s.osfxsr then sseOfImage image else s.sse
        draws := s.draws + 1
        pc := s.pc + BitVec.ofNat 32 (3 + m.size) }

/-- 42_fpu_simd_gating.md R190 and R191 together: what FXSAVE saved, FXRSTOR from the same memory and the same physical bytes restores:
the x87 and MMX context always, XMM and MXCSR if OSFXSR was set both times, where the bytes of the image are distinct bytes of
memory (where each part lies in the image is log 10; the map is log 36). -/
def Obligations.FxrstorRestoresSaved : Prop :=
  ∀ (m m' : MemOperand) (s t s' t' : State) (ps : List Nat),
    s.raised = none → exec (.fxsave m) s = .next t → t.raised = none → s.Reaches (s.dataAccess (.fxsave m)) ps →
    s'.mem = t.mem → s'.Reaches (s'.dataAccess (.fxrstor m')) ps → s'.raised = none →
    ps.Nodup → (∀ p ∈ ps, s.isRam p = true ∧ s'.isRam p = true) →
    exec (.fxrstor m') s' = .next t' → t'.raised = none →
    t'.fpu = s.fpu ∧ (s.osfxsr = true → s'.osfxsr = true → t'.sse = s.sse) ∧ (s'.osfxsr = false → t'.sse = s'.sse)

/-- 42_fpu_simd_gating.md R190, R191, D36: with `fx_gate`, TS or EM stops both by #NM before any access. -/
def Obligations.FxGateRaisesNm : Prop :=
  ∀ (m : MemOperand) (s : State), s.params.fxGate = true → s.ts = true ∨ s.em = true →
    exec (.fxsave m) s = .next { s with raised := some .nm } ∧ exec (.fxrstor m) s = .next { s with raised := some .nm }

/-! ### Instructions gated by CR4, CPUID -/

/-- 43_cr4_gated.md R210: RDTSC with TSD set, outside real-address mode and level 0, raises #GP(0) (D18); else it puts the count into
EDX:EAX (which count is open, D30; log 16). -/
def Obligations.RdtscGateAndResult : Prop :=
  ∀ s : State,
    (s.tsd = true → s.mode ≠ .realMode → s.cpl ≠ 0#2 → exec .rdtsc s = .next { s with raised := some (.gp 0#32) }) ∧
    (s.tsd = false ∨ s.mode = .realMode ∨ s.cpl = 0#2 →
      ∃ (hi lo : Word), exec .rdtsc s =
        .next { s with
          tsc := hi ++ lo, regs := putReg .eax lo (putReg .edx hi s.regs), draws := s.draws + 1, pc := s.pc + 2#32 })

/-- 43_cr4_gated.md R211: RDPMC with PCE clear, outside real-address mode and level 0, raises #GP(0) (D18); else it puts a count into
EDX:EAX (open, D30; log 16). -/
def Obligations.RdpmcGateAndResult : Prop :=
  ∀ s : State,
    (s.pce = false → s.mode ≠ .realMode → s.cpl ≠ 0#2 → exec .rdpmc s = .next { s with raised := some (.gp 0#32) }) ∧
    (s.pce = true ∨ s.mode = .realMode ∨ s.cpl = 0#2 →
      ∃ (hi lo : Word), exec .rdpmc s =
        .next { s with
          pmc := hi ++ lo, regs := putReg .eax lo (putReg .edx hi s.regs), draws := s.draws + 1, pc := s.pc + 2#32 })

/-- 43_cr4_gated.md R212, R213, 10_state.md R49: with DE set an access to DR4 or DR5 raises #UD at every level. With DE clear it
completes, and only the register written and `pc` change: what is read and what is written is open. Which privilege the access
needs is open too (R212): where the parameter `drGate` asks for that of R141 and it is missing, #GP(0) (log 15). R212 and R213
say of the flags only "none specified": that all of EFLAGS is kept is log 33. -/
def Obligations.DebugRegisterAccess : Prop :=
  ∀ (md : BitVec 2) (r : Reg) (s : State),
    (s.de = true → ∀ i ∈ [Instr.movR32Dr4 md r, .movR32Dr5 md r, .movDr4R32 md r, .movDr5R32 md r],
      exec i s = .next { s with raised := some .ud }) ∧
    (s.de = false → s.params.drGate = true → s.privOk = false →
      ∀ i ∈ [Instr.movR32Dr4 md r, .movR32Dr5 md r, .movDr4R32 md r, .movDr5R32 md r],
        exec i s = .next { s with raised := some (.gp 0#32) }) ∧
    (s.de = false → s.params.drGate = false ∨ s.privOk = true →
      (∃ v, exec (.movR32Dr4 md r) s =
        .next { s with regs := putReg r v s.regs, draws := s.draws + 1, pc := s.pc + 3#32 }) ∧
      (∃ v, exec (.movR32Dr5 md r) s =
        .next { s with regs := putReg r v s.regs, draws := s.draws + 1, pc := s.pc + 3#32 }) ∧
      (∃ v, exec (.movDr4R32 md r) s = .next { s with dr4 := v, pc := s.pc + 3#32 }) ∧
      (∃ v, exec (.movDr5R32 md r) s = .next { s with dr5 := v, pc := s.pc + 3#32 }))

/-- 43_cr4_gated.md R214 (bits 93 G5, general knowledge; log 17): nothing gates CPUID; function 1 shows the parameters in the named bits
of EDX and the family in EAX, everything else it answers is open. A bit that G5 gives to two parameters shows the one it is named
for, VME and SSE (the model's choice, log 17). On a processor G5 can describe, the program reads every flag of `cr4_present` from
the answer. -/
def Obligations.CpuidResult : Prop :=
  ∀ s : State, ∃ a b c d, exec .cpuid s =
      .next { s with regs := ⟨a, c, d, b, s.regs.esp, s.regs.ebp, s.regs.esi, s.regs.edi⟩, draws := s.draws + 1,
                     pc := s.pc + 2#32 } ∧
    (s.regs.eax = 1#32 →
      d.getLsbD 1 = s.params.cr4Present.getLsbD 0 ∧ d.getLsbD 25 = s.params.cpuidSse ∧
      d.getLsbD 2 = s.params.cr4Present.getLsbD 3 ∧ d.getLsbD 3 = s.params.cr4Present.getLsbD 4 ∧
      d.getLsbD 4 = s.params.cr4Present.getLsbD 2 ∧ d.getLsbD 6 = s.params.cr4Present.getLsbD 5 ∧
      d.getLsbD 7 = s.params.cr4Present.getLsbD 6 ∧ d.getLsbD 13 = s.params.cr4Present.getLsbD 7 ∧
      d.getLsbD 23 = s.params.cpuidMmx ∧ d.getLsbD 24 = s.params.cr4Present.getLsbD 9 ∧
      d.getLsbD 26 = s.params.cpuidSse2 ∧
      a.extractLsb' 8 4 = (Proc.signature s.params.proc).extractLsb' 8 4 ∧
      (CpuidTells s.params → ∀ i < 11, (flagsFromCpuid a d)[i]? = some (s.params.cr4Present.getLsbD i)))

/-! ### Paging, alignment, formulas -/

/-- 20_memory.md R81 (90_conflicts.md C1): paging is active exactly when PG and PE are set; when it is not, every linear address is used
as physical. When it is, the translation, given CR3, answers a page fault or a page, whose address has 32 bits with PAE clear: this
clause is the model's form of R86 and D32 (log 7). -/
def Obligations.PagingOffIsIdentity : Prop :=
  ∀ (s : State) (k : AccessKind) (a : Word),
    (s.pagingActive = true ↔ s.cr0.getLsbD 31 = true ∧ s.cr0.getLsbD 0 = true) ∧
    (s.pagingActive = false → s.translate k a = .ok a.toNat) ∧
    (s.pagingActive = true → (s.translateRequest k a).cr3 = s.cr3 ∧ (s.translateRequest k a).linear = a ∧
      ((∃ pf, s.translate k a = .error pf) ∨
        ∃ pg, (Config.translate (s.translateRequest k a) s.mem).page = some pg ∧
          s.translate k a = .ok (if s.pae then pg.phys.toNat else pg.phys.toNat % 2 ^ 32)))

/-- 20_memory.md R87: with paging active and WP set, a write at CPL 0, 1 or 2 to a read-only user page is forbidden (it raises a
page fault: general knowledge there); with WP clear it is allowed. That the translation answers with a page and its two
properties, and that no other page it finds is refused, is the model's choice (log 7). -/
def Obligations.WriteProtectRule : Prop :=
  ∀ (s : State) (a : Word), s.pagingActive = true → s.cpl ≠ 3#2 →
    (∀ pg : Page, s.writeForbidden .write pg = true ↔ s.wp = true ∧ pg.user = true ∧ pg.readOnly = true) ∧
    match (Config.translate (s.translateRequest .write a) s.mem).page with
    | none => ∃ pf, s.translate .write a = .error pf
    | some pg => (∃ pf, s.translate .write a = .error pf) ↔ s.wp = true ∧ pg.user = true ∧ pg.readOnly = true

/-- 60_exceptions.md R236, 20_memory.md R88: a step that ends in a page fault leaves in CR2 the address that the translation gave
(`pf_addr`, D12; log 7) of a byte of its own fetch, or of a byte of the data access of its instruction, of that access's kind and
width (log 10, 12, 23); and that happens only while paging is active. Where the gate is open and the alignment check lets it through,
an instruction of the table with a data access ends in the page fault the translation gives of a byte of it, if there is one: CR2
has that address and nothing else changes; else it completes. -/
def Obligations.PageFaultLoadsCr2 : Prop :=
  (∀ s t : State, s.raised = none → step s = .next t →
    t.raised ≠ some .pf ∨ (s.pagingActive = true ∧
      ((∃ a ∈ linearBytes s.pc maxInstrBytes, s.translate .fetch a = .error t.cr2) ∨
        ∃ d : DataAccess,
          ((∃ i, s.fetch = .instr i ∧ s.dataAccess i = some d) ∨
            ∃ c bs, s.fetch = .unlisted c bs ∧ s.numericData c.operand bs = some d) ∧
          ∃ a ∈ linearBytes (s.effAddr d.operand) d.width, s.translate d.kind a = .error t.cr2))) ∧
  (∀ (s : State) (i : Instr) (d : DataAccess),
    s.dataAccess i = some d → s.GateOpen i → s.Aligned d → s.pagingActive = true →
    match s.translateList d.kind (linearBytes (s.effAddr d.operand) d.width) with
    | .error pf => exec i s = .next { s with cr2 := pf, raised := some .pf }
    | .ok _ => ∃ t, exec i s = .next t ∧ t.raised = s.raised ∧ t.pc = s.pc + BitVec.ofNat 32 i.length)

/-- 20_memory.md R92, 10_state.md R28: a step raises the alignment check only under all four conditions: AM, AC, CPL 3, protected or
virtual-8086 mode; and under them a misaligned MOVNTI does, and one at a multiple of 4, paging off, completes and stores (what is
checked and #AC are general knowledge there, log 21). -/
def Obligations.AlignmentCheckOnlyWhenActive : Prop :=
  (∀ (s t : State) (code : Word), s.raised = none → step s = .next t → t.raised = some (.ac code) →
    s.am = true ∧ s.ac = true ∧ s.cpl = 3#2 ∧ (s.mode = .protectedMode ∨ s.mode = .v86Mode)) ∧
  (∀ (m : MemOperand) (g : Reg) (s : State), s.am = true → s.ac = true → s.cpl = 3#2 →
    s.mode = .protectedMode ∨ s.mode = .v86Mode →
    ((s.effAddr m).toNat % 4 ≠ 0 → exec (.movnti m g) s = .next { s with raised := some (.ac 0#32) }) ∧
    ((s.effAddr m).toNat % 4 = 0 → s.pagingActive = false →
      ∃ mem, exec (.movnti m g) s = .next { s with mem := mem, pc := s.pc + BitVec.ofNat 32 (3 + m.size) } ∧
        ∀ k < 4, s.isRam ((s.effAddr m).toNat + k) = true →
          Memory.read mem ((s.effAddr m).toNat + k) = (s.reg g).extractLsb' (8 * k) 8))

/-- 10_state.md R40, 20_memory.md R82: with PAE clear the base of the page directory is the 20 high bits of CR3 followed by 12 zeros, a
multiple of 4096 (a formula that no access consults: the translation is given CR3, log 7). Physical addresses have 32 bits with PAE
clear and 36 with it set (20_memory.md R83, 10_state.md R51): so has every address that the translation or a data access answers,
and no step changes a byte beyond. -/
def Obligations.PageDirectoryBase : Prop :=
  ∀ s : State,
    (s.pae = false → s.tableBase = s.cr3.extractLsb' 12 20 ++ 0#12 ∧ s.tableBase.toNat % 4096 = 0) ∧
    let limit := if s.pae then 2 ^ 36 else 2 ^ 32
    (∀ k a p, s.translate k a = .ok p → p < limit) ∧
    (∀ k b n a ps, s.access k b n a = .ok ps → ∀ p ∈ ps, p < limit) ∧
    (∀ (tr : Transfer) (p : Nat), limit ≤ p → Memory.read (s.transfer tr).mem p = Memory.read s.mem p) ∧
    ∀ (t : State) (p : Nat), step s = .next t → limit ≤ p → Memory.read t.mem p = Memory.read s.mem p

/-- 20_memory.md R95, R97: caching with CD = NW = 0, its policy by processor, and when PCD and PWT are heeded. These are the model's
formulas over the registers, which no access consults; that caching of all of memory is enabled in no other case is the model's
choice too, since R96 leaves CD = 0 with NW = 1 open (log 24). -/
def Obligations.CacheFormulas : Prop :=
  ∀ s : State,
    (s.cachingEnabled = true ↔ s.cd = false ∧ s.nw = false) ∧
    (s.cachingEnabled = true → s.params.proc = .intel486 → s.cachePolicy = some .writeThrough) ∧
    (s.cachingEnabled = true → s.params.proc = .pentium4 ∨ s.params.proc = .p6 ∨ s.params.proc = .pentium →
      s.cachePolicy = some .writeBack) ∧
    (s.pg = false ∨ s.cd = true → s.pdCaching = none) ∧
    (s.pg = true → s.cd = false → s.pcd = true → s.pdCaching = some none) ∧
    (s.pg = true → s.cd = false → s.pcd = false →
      s.pdCaching = some (some (if s.pwt then .writeThrough else .writeBack)))

/-- 40_mov_cr.md, the constants, at the values of 95_test_vectors.md V8.7 to V8.9; 00_scope.md section 4 (R5): a flag absent from
`cr4_present` is reserved. -/
def Obligations.ReservedMasks : Prop :=
  ∀ p : Params,
    (etHardwired p = true → rsvd0 p = 0x1FFAFFD0#32) ∧ (etHardwired p = false → rsvd0 p = 0x1FFAFFC0#32) ∧
    (∀ i < 32, (rsvd4 p).getLsbD i = (decide (11 ≤ i) || !p.cr4Present.getLsbD i))

/-- 60_exceptions.md R237: a machine check raises its exception when MCE is set; while MCE is clear the model says nothing of it (log 19). -/
def Obligations.MachineCheckEnabledByMce : Prop :=
  ∀ (s : State) (rest : List (Option Event)), s.raised = none → s.arrivals = some .machineCheck :: rest →
    (s.mce = true → step s = .next { s with arrivals := rest, raised := some .mc }) ∧
    (s.mce = false → step s = .fault .machineCheckDisabled)

/-- 00_scope.md R5, 10_state.md R57, R62: an absent flag of CR4 does not exist, and a reserved bit has no effect, whatever they hold: an
instruction other than MOV to and from CR4 does the same in two states that differ in those bits of CR4 only. -/
def Obligations.AbsentFlagsHaveNoEffect : Prop :=
  ∀ (s t : State) (w : Word), s.SameFlags w →
    (∀ i : Instr, (∀ md r, i ≠ .movR32Cr4 md r ∧ i ≠ .movCr4R32 md r) → exec i s = .next t →
      exec i { s with cr4 := w } = .next { t with cr4 := w }) ∧
    (∀ (c : ClassInfo) (bs : List Byte), execUnlisted c bs s = .next t →
      execUnlisted c bs { s with cr4 := w } = .next { t with cr4 := w })
end

