-- ==== Sys2Proof/Laws/State.lean ====
section
/-! SUPPORT. One lemma per field per named update of the state, so that no proof unfolds a record update. -/

namespace Sys2Proof.Machine

variable (s : State)

/-! ### `State.setReg` -/

@[simp] theorem State.setReg_params (r : Reg) (v : Word) : (s.setReg r v).params = s.params := rfl
@[simp] theorem State.setReg_regs (r : Reg) (v : Word) : (s.setReg r v).regs = putReg r v s.regs := rfl
@[simp] theorem State.setReg_pc (r : Reg) (v : Word) : (s.setReg r v).pc = s.pc := rfl
@[simp] theorem State.setReg_eflags (r : Reg) (v : Word) : (s.setReg r v).eflags = s.eflags := rfl
@[simp] theorem State.setReg_cpl (r : Reg) (v : Word) : (s.setReg r v).cpl = s.cpl := rfl
@[simp] theorem State.setReg_cr0 (r : Reg) (v : Word) : (s.setReg r v).cr0 = s.cr0 := rfl
@[simp] theorem State.setReg_cr2 (r : Reg) (v : Word) : (s.setReg r v).cr2 = s.cr2 := rfl
@[simp] theorem State.setReg_cr3 (r : Reg) (v : Word) : (s.setReg r v).cr3 = s.cr3 := rfl
@[simp] theorem State.setReg_cr4 (r : Reg) (v : Word) : (s.setReg r v).cr4 = s.cr4 := rfl
@[simp] theorem State.setReg_dr4 (r : Reg) (v : Word) : (s.setReg r v).dr4 = s.dr4 := rfl
@[simp] theorem State.setReg_dr5 (r : Reg) (v : Word) : (s.setReg r v).dr5 = s.dr5 := rfl
@[simp] theorem State.setReg_fpu (r : Reg) (v : Word) : (s.setReg r v).fpu = s.fpu := rfl
@[simp] theorem State.setReg_sse (r : Reg) (v : Word) : (s.setReg r v).sse = s.sse := rfl
@[simp] theorem State.setReg_tsc (r : Reg) (v : Word) : (s.setReg r v).tsc = s.tsc := rfl
@[simp] theorem State.setReg_pmc (r : Reg) (v : Word) : (s.setReg r v).pmc = s.pmc := rfl
@[simp] theorem State.setReg_fpuError (r : Reg) (v : Word) : (s.setReg r v).fpuError = s.fpuError := rfl
@[simp] theorem State.setReg_ignne (r : Reg) (v : Word) : (s.setReg r v).ignne = s.ignne := rfl
@[simp] theorem State.setReg_raised (r : Reg) (v : Word) : (s.setReg r v).raised = s.raised := rfl
@[simp] theorem State.setReg_arrivals (r : Reg) (v : Word) : (s.setReg r v).arrivals = s.arrivals := rfl
@[simp] theorem State.setReg_mem (r : Reg) (v : Word) : (s.setReg r v).mem = s.mem := rfl
@[simp] theorem State.setReg_draws (r : Reg) (v : Word) : (s.setReg r v).draws = s.draws := rfl

/-! ### `State.advance` -/

@[simp] theorem State.advance_params (n : Nat) : (s.advance n).params = s.params := rfl
@[simp] theorem State.advance_regs (n : Nat) : (s.advance n).regs = s.regs := rfl
@[simp] theorem State.advance_pc (n : Nat) : (s.advance n).pc = s.pc + BitVec.ofNat 32 n := rfl
@[simp] theorem State.advance_eflags (n : Nat) : (s.advance n).eflags = s.eflags := rfl
@[simp] theorem State.advance_cpl (n : Nat) : (s.advance n).cpl = s.cpl := rfl
@[simp] theorem State.advance_cr0 (n : Nat) : (s.advance n).cr0 = s.cr0 := rfl
@[simp] theorem State.advance_cr2 (n : Nat) : (s.advance n).cr2 = s.cr2 := rfl
@[simp] theorem State.advance_cr3 (n : Nat) : (s.advance n).cr3 = s.cr3 := rfl
@[simp] theorem State.advance_cr4 (n : Nat) : (s.advance n).cr4 = s.cr4 := rfl
@[simp] theorem State.advance_dr4 (n : Nat) : (s.advance n).dr4 = s.dr4 := rfl
@[simp] theorem State.advance_dr5 (n : Nat) : (s.advance n).dr5 = s.dr5 := rfl
@[simp] theorem State.advance_fpu (n : Nat) : (s.advance n).fpu = s.fpu := rfl
@[simp] theorem State.advance_sse (n : Nat) : (s.advance n).sse = s.sse := rfl
@[simp] theorem State.advance_tsc (n : Nat) : (s.advance n).tsc = s.tsc := rfl
@[simp] theorem State.advance_pmc (n : Nat) : (s.advance n).pmc = s.pmc := rfl
@[simp] theorem State.advance_fpuError (n : Nat) : (s.advance n).fpuError = s.fpuError := rfl
@[simp] theorem State.advance_ignne (n : Nat) : (s.advance n).ignne = s.ignne := rfl
@[simp] theorem State.advance_raised (n : Nat) : (s.advance n).raised = s.raised := rfl
@[simp] theorem State.advance_arrivals (n : Nat) : (s.advance n).arrivals = s.arrivals := rfl
@[simp] theorem State.advance_mem (n : Nat) : (s.advance n).mem = s.mem := rfl
@[simp] theorem State.advance_draws (n : Nat) : (s.advance n).draws = s.draws := rfl

/-! ### `State.drawn` -/

@[simp] theorem State.drawn_params : (s.drawn).params = s.params := rfl
@[simp] theorem State.drawn_regs : (s.drawn).regs = s.regs := rfl
@[simp] theorem State.drawn_pc : (s.drawn).pc = s.pc := rfl
@[simp] theorem State.drawn_eflags : (s.drawn).eflags = s.eflags := rfl
@[simp] theorem State.drawn_cpl : (s.drawn).cpl = s.cpl := rfl
@[simp] theorem State.drawn_cr0 : (s.drawn).cr0 = s.cr0 := rfl
@[simp] theorem State.drawn_cr2 : (s.drawn).cr2 = s.cr2 := rfl
@[simp] theorem State.drawn_cr3 : (s.drawn).cr3 = s.cr3 := rfl
@[simp] theorem State.drawn_cr4 : (s.drawn).cr4 = s.cr4 := rfl
@[simp] theorem State.drawn_dr4 : (s.drawn).dr4 = s.dr4 := rfl
@[simp] theorem State.drawn_dr5 : (s.drawn).dr5 = s.dr5 := rfl
@[simp] theorem State.drawn_fpu : (s.drawn).fpu = s.fpu := rfl
@[simp] theorem State.drawn_sse : (s.drawn).sse = s.sse := rfl
@[simp] theorem State.drawn_tsc : (s.drawn).tsc = s.tsc := rfl
@[simp] theorem State.drawn_pmc : (s.drawn).pmc = s.pmc := rfl
@[simp] theorem State.drawn_fpuError : (s.drawn).fpuError = s.fpuError := rfl
@[simp] theorem State.drawn_ignne : (s.drawn).ignne = s.ignne := rfl
@[simp] theorem State.drawn_raised : (s.drawn).raised = s.raised := rfl
@[simp] theorem State.drawn_arrivals : (s.drawn).arrivals = s.arrivals := rfl
@[simp] theorem State.drawn_mem : (s.drawn).mem = s.mem := rfl
@[simp] theorem State.drawn_draws : (s.drawn).draws = s.draws + 1 := rfl

/-! ### `State.freeStatus` -/

@[simp] theorem State.freeStatus_params : (s.freeStatus).params = s.params := rfl
@[simp] theorem State.freeStatus_regs : (s.freeStatus).regs = s.regs := rfl
@[simp] theorem State.freeStatus_pc : (s.freeStatus).pc = s.pc := rfl
@[simp] theorem State.freeStatus_eflags : (s.freeStatus).eflags = withStatus s.eflags (Config.freeFlags s.draws) := rfl
@[simp] theorem State.freeStatus_cpl : (s.freeStatus).cpl = s.cpl := rfl
@[simp] theorem State.freeStatus_cr0 : (s.freeStatus).cr0 = s.cr0 := rfl
@[simp] theorem State.freeStatus_cr2 : (s.freeStatus).cr2 = s.cr2 := rfl
@[simp] theorem State.freeStatus_cr3 : (s.freeStatus).cr3 = s.cr3 := rfl
@[simp] theorem State.freeStatus_cr4 : (s.freeStatus).cr4 = s.cr4 := rfl
@[simp] theorem State.freeStatus_dr4 : (s.freeStatus).dr4 = s.dr4 := rfl
@[simp] theorem State.freeStatus_dr5 : (s.freeStatus).dr5 = s.dr5 := rfl
@[simp] theorem State.freeStatus_fpu : (s.freeStatus).fpu = s.fpu := rfl
@[simp] theorem State.freeStatus_sse : (s.freeStatus).sse = s.sse := rfl
@[simp] theorem State.freeStatus_tsc : (s.freeStatus).tsc = s.tsc := rfl
@[simp] theorem State.freeStatus_pmc : (s.freeStatus).pmc = s.pmc := rfl
@[simp] theorem State.freeStatus_fpuError : (s.freeStatus).fpuError = s.fpuError := rfl
@[simp] theorem State.freeStatus_ignne : (s.freeStatus).ignne = s.ignne := rfl
@[simp] theorem State.freeStatus_raised : (s.freeStatus).raised = s.raised := rfl
@[simp] theorem State.freeStatus_arrivals : (s.freeStatus).arrivals = s.arrivals := rfl
@[simp] theorem State.freeStatus_mem : (s.freeStatus).mem = s.mem := rfl
@[simp] theorem State.freeStatus_draws : (s.freeStatus).draws = s.draws + 1 := rfl

/-! ### `State.raise` -/

@[simp] theorem State.raise_params (e : Exc) : (s.raise e).params = s.params := rfl
@[simp] theorem State.raise_regs (e : Exc) : (s.raise e).regs = s.regs := rfl
@[simp] theorem State.raise_pc (e : Exc) : (s.raise e).pc = s.pc := rfl
@[simp] theorem State.raise_eflags (e : Exc) : (s.raise e).eflags = s.eflags := rfl
@[simp] theorem State.raise_cpl (e : Exc) : (s.raise e).cpl = s.cpl := rfl
@[simp] theorem State.raise_cr0 (e : Exc) : (s.raise e).cr0 = s.cr0 := rfl
@[simp] theorem State.raise_cr2 (e : Exc) : (s.raise e).cr2 = s.cr2 := rfl
@[simp] theorem State.raise_cr3 (e : Exc) : (s.raise e).cr3 = s.cr3 := rfl
@[simp] theorem State.raise_cr4 (e : Exc) : (s.raise e).cr4 = s.cr4 := rfl
@[simp] theorem State.raise_dr4 (e : Exc) : (s.raise e).dr4 = s.dr4 := rfl
@[simp] theorem State.raise_dr5 (e : Exc) : (s.raise e).dr5 = s.dr5 := rfl
@[simp] theorem State.raise_fpu (e : Exc) : (s.raise e).fpu = s.fpu := rfl
@[simp] theorem State.raise_sse (e : Exc) : (s.raise e).sse = s.sse := rfl
@[simp] theorem State.raise_tsc (e : Exc) : (s.raise e).tsc = s.tsc := rfl
@[simp] theorem State.raise_pmc (e : Exc) : (s.raise e).pmc = s.pmc := rfl
@[simp] theorem State.raise_fpuError (e : Exc) : (s.raise e).fpuError = s.fpuError := rfl
@[simp] theorem State.raise_ignne (e : Exc) : (s.raise e).ignne = s.ignne := rfl
@[simp] theorem State.raise_raised (e : Exc) : (s.raise e).raised = some e := rfl
@[simp] theorem State.raise_arrivals (e : Exc) : (s.raise e).arrivals = s.arrivals := rfl
@[simp] theorem State.raise_mem (e : Exc) : (s.raise e).mem = s.mem := rfl
@[simp] theorem State.raise_draws (e : Exc) : (s.raise e).draws = s.draws := rfl

/-! ### `State.raisePageFault` -/

@[simp] theorem State.raisePageFault_params (a : Word) : (s.raisePageFault a).params = s.params := rfl
@[simp] theorem State.raisePageFault_regs (a : Word) : (s.raisePageFault a).regs = s.regs := rfl
@[simp] theorem State.raisePageFault_pc (a : Word) : (s.raisePageFault a).pc = s.pc := rfl
@[simp] theorem State.raisePageFault_eflags (a : Word) : (s.raisePageFault a).eflags = s.eflags := rfl
@[simp] theorem State.raisePageFault_cpl (a : Word) : (s.raisePageFault a).cpl = s.cpl := rfl
@[simp] theorem State.raisePageFault_cr0 (a : Word) : (s.raisePageFault a).cr0 = s.cr0 := rfl
@[simp] theorem State.raisePageFault_cr2 (a : Word) : (s.raisePageFault a).cr2 = a := rfl
@[simp] theorem State.raisePageFault_cr3 (a : Word) : (s.raisePageFault a).cr3 = s.cr3 := rfl
@[simp] theorem State.raisePageFault_cr4 (a : Word) : (s.raisePageFault a).cr4 = s.cr4 := rfl
@[simp] theorem State.raisePageFault_dr4 (a : Word) : (s.raisePageFault a).dr4 = s.dr4 := rfl
@[simp] theorem State.raisePageFault_dr5 (a : Word) : (s.raisePageFault a).dr5 = s.dr5 := rfl
@[simp] theorem State.raisePageFault_fpu (a : Word) : (s.raisePageFault a).fpu = s.fpu := rfl
@[simp] theorem State.raisePageFault_sse (a : Word) : (s.raisePageFault a).sse = s.sse := rfl
@[simp] theorem State.raisePageFault_tsc (a : Word) : (s.raisePageFault a).tsc = s.tsc := rfl
@[simp] theorem State.raisePageFault_pmc (a : Word) : (s.raisePageFault a).pmc = s.pmc := rfl
@[simp] theorem State.raisePageFault_fpuError (a : Word) : (s.raisePageFault a).fpuError = s.fpuError := rfl
@[simp] theorem State.raisePageFault_ignne (a : Word) : (s.raisePageFault a).ignne = s.ignne := rfl
@[simp] theorem State.raisePageFault_raised (a : Word) : (s.raisePageFault a).raised = some .pf := rfl
@[simp] theorem State.raisePageFault_arrivals (a : Word) : (s.raisePageFault a).arrivals = s.arrivals := rfl
@[simp] theorem State.raisePageFault_mem (a : Word) : (s.raisePageFault a).mem = s.mem := rfl
@[simp] theorem State.raisePageFault_draws (a : Word) : (s.raisePageFault a).draws = s.draws := rfl

/-! ### `State.writeBytes` -/

@[simp] theorem State.writeBytes_params (cs : List (Nat × Byte)) : (s.writeBytes cs).params = s.params := rfl
@[simp] theorem State.writeBytes_regs (cs : List (Nat × Byte)) : (s.writeBytes cs).regs = s.regs := rfl
@[simp] theorem State.writeBytes_pc (cs : List (Nat × Byte)) : (s.writeBytes cs).pc = s.pc := rfl
@[simp] theorem State.writeBytes_eflags (cs : List (Nat × Byte)) : (s.writeBytes cs).eflags = s.eflags := rfl
@[simp] theorem State.writeBytes_cpl (cs : List (Nat × Byte)) : (s.writeBytes cs).cpl = s.cpl := rfl
@[simp] theorem State.writeBytes_cr0 (cs : List (Nat × Byte)) : (s.writeBytes cs).cr0 = s.cr0 := rfl
@[simp] theorem State.writeBytes_cr2 (cs : List (Nat × Byte)) : (s.writeBytes cs).cr2 = s.cr2 := rfl
@[simp] theorem State.writeBytes_cr3 (cs : List (Nat × Byte)) : (s.writeBytes cs).cr3 = s.cr3 := rfl
@[simp] theorem State.writeBytes_cr4 (cs : List (Nat × Byte)) : (s.writeBytes cs).cr4 = s.cr4 := rfl
@[simp] theorem State.writeBytes_dr4 (cs : List (Nat × Byte)) : (s.writeBytes cs).dr4 = s.dr4 := rfl
@[simp] theorem State.writeBytes_dr5 (cs : List (Nat × Byte)) : (s.writeBytes cs).dr5 = s.dr5 := rfl
@[simp] theorem State.writeBytes_fpu (cs : List (Nat × Byte)) : (s.writeBytes cs).fpu = s.fpu := rfl
@[simp] theorem State.writeBytes_sse (cs : List (Nat × Byte)) : (s.writeBytes cs).sse = s.sse := rfl
@[simp] theorem State.writeBytes_tsc (cs : List (Nat × Byte)) : (s.writeBytes cs).tsc = s.tsc := rfl
@[simp] theorem State.writeBytes_pmc (cs : List (Nat × Byte)) : (s.writeBytes cs).pmc = s.pmc := rfl
@[simp] theorem State.writeBytes_fpuError (cs : List (Nat × Byte)) : (s.writeBytes cs).fpuError = s.fpuError := rfl
@[simp] theorem State.writeBytes_ignne (cs : List (Nat × Byte)) : (s.writeBytes cs).ignne = s.ignne := rfl
@[simp] theorem State.writeBytes_raised (cs : List (Nat × Byte)) : (s.writeBytes cs).raised = s.raised := rfl
@[simp] theorem State.writeBytes_arrivals (cs : List (Nat × Byte)) : (s.writeBytes cs).arrivals = s.arrivals := rfl
@[simp] theorem State.writeBytes_mem (cs : List (Nat × Byte)) : (s.writeBytes cs).mem = s.memAfter cs := rfl
@[simp] theorem State.writeBytes_draws (cs : List (Nat × Byte)) : (s.writeBytes cs).draws = s.draws := rfl

/-! ### `State.endFpuError` -/

@[simp] theorem State.endFpuError_params : (s.endFpuError).params = s.params := rfl
@[simp] theorem State.endFpuError_regs : (s.endFpuError).regs = s.regs := rfl
@[simp] theorem State.endFpuError_pc : (s.endFpuError).pc = s.pc := rfl
@[simp] theorem State.endFpuError_eflags : (s.endFpuError).eflags = s.eflags := rfl
@[simp] theorem State.endFpuError_cpl : (s.endFpuError).cpl = s.cpl := rfl
@[simp] theorem State.endFpuError_cr0 : (s.endFpuError).cr0 = s.cr0 := rfl
@[simp] theorem State.endFpuError_cr2 : (s.endFpuError).cr2 = s.cr2 := rfl
@[simp] theorem State.endFpuError_cr3 : (s.endFpuError).cr3 = s.cr3 := rfl
@[simp] theorem State.endFpuError_cr4 : (s.endFpuError).cr4 = s.cr4 := rfl
@[simp] theorem State.endFpuError_dr4 : (s.endFpuError).dr4 = s.dr4 := rfl
@[simp] theorem State.endFpuError_dr5 : (s.endFpuError).dr5 = s.dr5 := rfl
@[simp] theorem State.endFpuError_fpu : (s.endFpuError).fpu = s.fpu := rfl
@[simp] theorem State.endFpuError_sse : (s.endFpuError).sse = s.sse := rfl
@[simp] theorem State.endFpuError_tsc : (s.endFpuError).tsc = s.tsc := rfl
@[simp] theorem State.endFpuError_pmc : (s.endFpuError).pmc = s.pmc := rfl
@[simp] theorem State.endFpuError_fpuError : (s.endFpuError).fpuError = false := rfl
@[simp] theorem State.endFpuError_ignne : (s.endFpuError).ignne = s.ignne := rfl
@[simp] theorem State.endFpuError_raised : (s.endFpuError).raised = s.raised := rfl
@[simp] theorem State.endFpuError_arrivals : (s.endFpuError).arrivals = s.arrivals := rfl
@[simp] theorem State.endFpuError_mem : (s.endFpuError).mem = s.mem := rfl
@[simp] theorem State.endFpuError_draws : (s.endFpuError).draws = s.draws := rfl

/-! ### `State.setTs` -/

@[simp] theorem State.setTs_params : (s.setTs).params = s.params := rfl
@[simp] theorem State.setTs_regs : (s.setTs).regs = s.regs := rfl
@[simp] theorem State.setTs_pc : (s.setTs).pc = s.pc := rfl
@[simp] theorem State.setTs_eflags : (s.setTs).eflags = s.eflags := rfl
@[simp] theorem State.setTs_cpl : (s.setTs).cpl = s.cpl := rfl
@[simp] theorem State.setTs_cr0 : (s.setTs).cr0 = s.cr0 ||| 0x00000008#32 := rfl
@[simp] theorem State.setTs_cr2 : (s.setTs).cr2 = s.cr2 := rfl
@[simp] theorem State.setTs_cr3 : (s.setTs).cr3 = s.cr3 := rfl
@[simp] theorem State.setTs_cr4 : (s.setTs).cr4 = s.cr4 := rfl
@[simp] theorem State.setTs_dr4 : (s.setTs).dr4 = s.dr4 := rfl
@[simp] theorem State.setTs_dr5 : (s.setTs).dr5 = s.dr5 := rfl
@[simp] theorem State.setTs_fpu : (s.setTs).fpu = s.fpu := rfl
@[simp] theorem State.setTs_sse : (s.setTs).sse = s.sse := rfl
@[simp] theorem State.setTs_tsc : (s.setTs).tsc = s.tsc := rfl
@[simp] theorem State.setTs_pmc : (s.setTs).pmc = s.pmc := rfl
@[simp] theorem State.setTs_fpuError : (s.setTs).fpuError = s.fpuError := rfl
@[simp] theorem State.setTs_ignne : (s.setTs).ignne = s.ignne := rfl
@[simp] theorem State.setTs_raised : (s.setTs).raised = s.raised := rfl
@[simp] theorem State.setTs_arrivals : (s.setTs).arrivals = s.arrivals := rfl
@[simp] theorem State.setTs_mem : (s.setTs).mem = s.mem := rfl
@[simp] theorem State.setTs_draws : (s.setTs).draws = s.draws := rfl

/-! ### `State.transfer` -/

@[simp] theorem State.transfer_params (t : Transfer) : (s.transfer t).params = s.params := rfl
@[simp] theorem State.transfer_regs (t : Transfer) : (s.transfer t).regs = t.regs := rfl
@[simp] theorem State.transfer_pc (t : Transfer) : (s.transfer t).pc = t.pc := rfl
@[simp] theorem State.transfer_eflags (t : Transfer) : (s.transfer t).eflags = t.eflags := rfl
@[simp] theorem State.transfer_cpl (t : Transfer) : (s.transfer t).cpl = if vmOf t.eflags then 3#2 else t.cpl := rfl
@[simp] theorem State.transfer_cr0 (t : Transfer) : (s.transfer t).cr0 = s.cr0 := rfl
@[simp] theorem State.transfer_cr2 (t : Transfer) : (s.transfer t).cr2 = s.cr2 := rfl
@[simp] theorem State.transfer_cr3 (t : Transfer) : (s.transfer t).cr3 = s.cr3 := rfl
@[simp] theorem State.transfer_cr4 (t : Transfer) : (s.transfer t).cr4 = s.cr4 := rfl
@[simp] theorem State.transfer_dr4 (t : Transfer) : (s.transfer t).dr4 = s.dr4 := rfl
@[simp] theorem State.transfer_dr5 (t : Transfer) : (s.transfer t).dr5 = s.dr5 := rfl
@[simp] theorem State.transfer_fpu (t : Transfer) : (s.transfer t).fpu = s.fpu := rfl
@[simp] theorem State.transfer_sse (t : Transfer) : (s.transfer t).sse = s.sse := rfl
@[simp] theorem State.transfer_tsc (t : Transfer) : (s.transfer t).tsc = s.tsc := rfl
@[simp] theorem State.transfer_pmc (t : Transfer) : (s.transfer t).pmc = s.pmc := rfl
@[simp] theorem State.transfer_fpuError (t : Transfer) : (s.transfer t).fpuError = s.fpuError := rfl
@[simp] theorem State.transfer_ignne (t : Transfer) : (s.transfer t).ignne = s.ignne := rfl
@[simp] theorem State.transfer_raised (t : Transfer) : (s.transfer t).raised = s.raised := rfl
@[simp] theorem State.transfer_arrivals (t : Transfer) : (s.transfer t).arrivals = s.arrivals := rfl
@[simp] theorem State.transfer_mem (t : Transfer) : (s.transfer t).mem = s.memAfter (t.stores.map fun c => (s.clipPhys c.1, c.2)) := rfl
@[simp] theorem State.transfer_draws (t : Transfer) : (s.transfer t).draws = s.draws := rfl

/-! ### `State.restoreImage` -/

@[simp] theorem State.restoreImage_params (img : List Byte) : (s.restoreImage img).params = s.params := rfl
@[simp] theorem State.restoreImage_regs (img : List Byte) : (s.restoreImage img).regs = s.regs := rfl
@[simp] theorem State.restoreImage_pc (img : List Byte) : (s.restoreImage img).pc = s.pc := rfl
@[simp] theorem State.restoreImage_eflags (img : List Byte) : (s.restoreImage img).eflags = s.eflags := rfl
@[simp] theorem State.restoreImage_cpl (img : List Byte) : (s.restoreImage img).cpl = s.cpl := rfl
@[simp] theorem State.restoreImage_cr0 (img : List Byte) : (s.restoreImage img).cr0 = s.cr0 := rfl
@[simp] theorem State.restoreImage_cr2 (img : List Byte) : (s.restoreImage img).cr2 = s.cr2 := rfl
@[simp] theorem State.restoreImage_cr3 (img : List Byte) : (s.restoreImage img).cr3 = s.cr3 := rfl
@[simp] theorem State.restoreImage_cr4 (img : List Byte) : (s.restoreImage img).cr4 = s.cr4 := rfl
@[simp] theorem State.restoreImage_dr4 (img : List Byte) : (s.restoreImage img).dr4 = s.dr4 := rfl
@[simp] theorem State.restoreImage_dr5 (img : List Byte) : (s.restoreImage img).dr5 = s.dr5 := rfl
@[simp] theorem State.restoreImage_fpu (img : List Byte) : (s.restoreImage img).fpu = fpuOfImage img := rfl
@[simp] theorem State.restoreImage_sse (img : List Byte) : (s.restoreImage img).sse = if s.osfxsr then sseOfImage img else s.sse := rfl
@[simp] theorem State.restoreImage_tsc (img : List Byte) : (s.restoreImage img).tsc = s.tsc := rfl
@[simp] theorem State.restoreImage_pmc (img : List Byte) : (s.restoreImage img).pmc = s.pmc := rfl
@[simp] theorem State.restoreImage_fpuError (img : List Byte) : (s.restoreImage img).fpuError = s.fpuError := rfl
@[simp] theorem State.restoreImage_ignne (img : List Byte) : (s.restoreImage img).ignne = s.ignne := rfl
@[simp] theorem State.restoreImage_raised (img : List Byte) : (s.restoreImage img).raised = s.raised := rfl
@[simp] theorem State.restoreImage_arrivals (img : List Byte) : (s.restoreImage img).arrivals = s.arrivals := rfl
@[simp] theorem State.restoreImage_mem (img : List Byte) : (s.restoreImage img).mem = s.mem := rfl
@[simp] theorem State.restoreImage_draws (img : List Byte) : (s.restoreImage img).draws = s.draws := rfl

/-! ### `State.setEdxEax` -/

@[simp] theorem State.setEdxEax_params (v : BitVec 64) : (s.setEdxEax v).params = s.params := rfl
@[simp] theorem State.setEdxEax_regs (v : BitVec 64) : (s.setEdxEax v).regs = putReg .eax (v.extractLsb' 0 32) (putReg .edx (v.extractLsb' 32 32) s.regs) := rfl
@[simp] theorem State.setEdxEax_pc (v : BitVec 64) : (s.setEdxEax v).pc = s.pc := rfl
@[simp] theorem State.setEdxEax_eflags (v : BitVec 64) : (s.setEdxEax v).eflags = s.eflags := rfl
@[simp] theorem State.setEdxEax_cpl (v : BitVec 64) : (s.setEdxEax v).cpl = s.cpl := rfl
@[simp] theorem State.setEdxEax_cr0 (v : BitVec 64) : (s.setEdxEax v).cr0 = s.cr0 := rfl
@[simp] theorem State.setEdxEax_cr2 (v : BitVec 64) : (s.setEdxEax v).cr2 = s.cr2 := rfl
@[simp] theorem State.setEdxEax_cr3 (v : BitVec 64) : (s.setEdxEax v).cr3 = s.cr3 := rfl
@[simp] theorem State.setEdxEax_cr4 (v : BitVec 64) : (s.setEdxEax v).cr4 = s.cr4 := rfl
@[simp] theorem State.setEdxEax_dr4 (v : BitVec 64) : (s.setEdxEax v).dr4 = s.dr4 := rfl
@[simp] theorem State.setEdxEax_dr5 (v : BitVec 64) : (s.setEdxEax v).dr5 = s.dr5 := rfl
@[simp] theorem State.setEdxEax_fpu (v : BitVec 64) : (s.setEdxEax v).fpu = s.fpu := rfl
@[simp] theorem State.setEdxEax_sse (v : BitVec 64) : (s.setEdxEax v).sse = s.sse := rfl
@[simp] theorem State.setEdxEax_tsc (v : BitVec 64) : (s.setEdxEax v).tsc = s.tsc := rfl
@[simp] theorem State.setEdxEax_pmc (v : BitVec 64) : (s.setEdxEax v).pmc = s.pmc := rfl
@[simp] theorem State.setEdxEax_fpuError (v : BitVec 64) : (s.setEdxEax v).fpuError = s.fpuError := rfl
@[simp] theorem State.setEdxEax_ignne (v : BitVec 64) : (s.setEdxEax v).ignne = s.ignne := rfl
@[simp] theorem State.setEdxEax_raised (v : BitVec 64) : (s.setEdxEax v).raised = s.raised := rfl
@[simp] theorem State.setEdxEax_arrivals (v : BitVec 64) : (s.setEdxEax v).arrivals = s.arrivals := rfl
@[simp] theorem State.setEdxEax_mem (v : BitVec 64) : (s.setEdxEax v).mem = s.mem := rfl
@[simp] theorem State.setEdxEax_draws (v : BitVec 64) : (s.setEdxEax v).draws = s.draws := rfl

end Sys2Proof.Machine
end

