-- ==== Sys2Proof/Laws/Memory.lean ====
section
/-! SUPPORT. Memory: read after write, and every operation keeps the canonical form (20_memory.md R80; log 5). -/

namespace Sys2Proof.Machine

/-! ### Reading after one change -/

theorem Memory.read_filter_same (p : Nat) (m : Memory) : Memory.read (Memory.erase p m) p = unlistedByte := by
  induction m with
  | nil => rfl
  | cons c m ih =>
    obtain ⟨a, b⟩ := c
    by_cases h : a = p
    · simpa [Memory.erase, List.filter_cons, h] using ih
    · have : Memory.erase p ((a, b) :: m) = (a, b) :: Memory.erase p m := by simp [Memory.erase, h]
      simpa [this, Memory.read, h] using ih

theorem Memory.read_filter_other {p q : Nat} (h : q ≠ p) (m : Memory) :
    Memory.read (Memory.erase p m) q = Memory.read m q := by
  induction m with
  | nil => rfl
  | cons c m ih =>
    obtain ⟨a, b⟩ := c
    by_cases ha : a = p
    · have : Memory.erase p ((a, b) :: m) = Memory.erase p m := by simp [Memory.erase, ha]
      rw [this, ih, Memory.read, if_neg (by omega)]
    · have : Memory.erase p ((a, b) :: m) = (a, b) :: Memory.erase p m := by simp [Memory.erase, ha]
      simp [this, Memory.read, ih]

theorem Memory.read_insert_other {p q : Nat} (h : q ≠ p) (v : Byte) (m : Memory) :
    Memory.read (Memory.insert p v m) q = Memory.read m q := by
  induction m with
  | nil => simp [Memory.insert, Memory.read, Ne.symm h]
  | cons c m ih =>
    obtain ⟨a, b⟩ := c
    by_cases hp : p < a
    · simp [Memory.insert, hp, Memory.read, Ne.symm h]
    · simp [Memory.insert, hp, Memory.read, ih]

theorem Memory.read_insert_same (p : Nat) (v : Byte) (m : Memory) (h : ∀ c ∈ m, c.1 ≠ p) :
    Memory.read (Memory.insert p v m) p = v := by
  induction m with
  | nil => simp [Memory.insert, Memory.read]
  | cons c m ih =>
    obtain ⟨a, b⟩ := c
    have ha : a ≠ p := h (a, b) (by simp)
    by_cases hp : p < a
    · simp [Memory.insert, hp, Memory.read]
    · simpa [Memory.insert, hp, Memory.read, ha] using ih (fun c hc => h c (by simp [hc]))

theorem Memory.ne_of_mem_erase {p : Nat} {m : Memory} {c : Host.Cell} (h : c ∈ Memory.erase p m) : c.1 ≠ p := by
  simpa using (List.mem_filter.mp h).2

/-- A read after a write to the same address gives the byte written. -/
theorem Memory.read_write_same (m : Memory) (p : Nat) (v : Byte) : Memory.read (Memory.write m p v) p = v := by
  unfold Memory.write
  split
  · next h => rw [h]; exact Memory.read_filter_same p m
  · exact Memory.read_insert_same p v _ fun c hc => Memory.ne_of_mem_erase hc

/-- A write leaves every other address alone. -/
theorem Memory.read_write_other {p q : Nat} (h : q ≠ p) (m : Memory) (v : Byte) :
    Memory.read (Memory.write m p v) q = Memory.read m q := by
  unfold Memory.write
  split
  · exact Memory.read_filter_other h m
  · rw [Memory.read_insert_other h, Memory.read_filter_other h]

/-! ### Reading after a list of writes -/

/-- Writes leave every address alone that is none of theirs. -/
theorem Memory.read_writeAll_outside {q : Nat} (cs : List (Nat × Byte)) (m : Memory) (h : ∀ c ∈ cs, c.1 ≠ q) :
    Memory.read (Memory.writeAll m cs) q = Memory.read m q := by
  induction cs generalizing m with
  | nil => rfl
  | cons c cs ih =>
    obtain ⟨p, v⟩ := c
    rw [Memory.writeAll, ih _ fun c hc => h c (by simp [hc])]
    exact Memory.read_write_other (Ne.symm (h (p, v) (by simp))) m v

/-- Writes at addresses all different leave each its byte. -/
theorem Memory.read_writeAll_of_mem {q : Nat} {v : Byte} (cs : List (Nat × Byte)) (m : Memory)
    (hd : (cs.map Prod.fst).Nodup) (hm : (q, v) ∈ cs) : Memory.read (Memory.writeAll m cs) q = v := by
  induction cs generalizing m with
  | nil => simp at hm
  | cons c cs ih =>
    obtain ⟨p, w⟩ := c
    simp only [List.map_cons, List.nodup_cons] at hd
    rw [Memory.writeAll]
    rcases List.mem_cons.mp hm with h | h
    · obtain ⟨rfl, rfl⟩ := Prod.mk.inj h
      rw [Memory.read_writeAll_outside]
      · exact Memory.read_write_same m q v
      · intro c hc hq
        exact hd.1 (List.mem_map.mpr ⟨c, hc, hq⟩)
    · exact ih _ hd.2 h

/-! ### The canonical form -/

theorem Memory.wf_erase {m : Memory} (p : Nat) (h : Memory.wf m) : Memory.wf (Memory.erase p m) :=
  ⟨h.1.filter _, fun c hc => h.2 c (List.mem_filter.mp hc).1⟩

theorem Memory.mem_insert {p : Nat} {v : Byte} {m : Memory} {c : Host.Cell} (h : c ∈ Memory.insert p v m) :
    c = (p, v) ∨ c ∈ m := by
  induction m with
  | nil => simpa [Memory.insert] using h
  | cons d m ih =>
    obtain ⟨a, b⟩ := d
    by_cases hp : p < a
    · simpa [Memory.insert, hp] using h
    · simp only [Memory.insert, hp, if_false, List.mem_cons] at h ⊢
      rcases h with h | h
      · exact .inr (.inl h)
      · rcases ih h with h | h
        · exact .inl h
        · exact .inr (.inr h)

theorem Memory.wf_insert {m : Memory} {p : Nat} {v : Byte} (h : Memory.wf m) (hp : p < 2 ^ 36) (hv : v ≠ unlistedByte)
    (hn : ∀ c ∈ m, c.1 ≠ p) : Memory.wf (Memory.insert p v m) := by
  refine ⟨?_, fun c hc => ?_⟩
  · obtain ⟨hs, -⟩ := h
    induction m with
    | nil => simp [Memory.insert]
    | cons d m ih =>
      obtain ⟨a, b⟩ := d
      have hd := List.pairwise_cons.mp hs
      have ha : a ≠ p := hn (a, b) (by simp)
      by_cases hlt : p < a
      · simp only [Memory.insert, hlt, if_true, List.pairwise_cons]
        refine ⟨fun c hc => ?_, hd.1, hd.2⟩
        rcases List.mem_cons.mp hc with rfl | hc
        · exact hlt
        · exact hlt.trans (hd.1 c hc)
      · simp only [Memory.insert, hlt, if_false, List.pairwise_cons]
        refine ⟨fun c hc => ?_, ih (fun c hc => hn c (by simp [hc])) hd.2⟩
        rcases Memory.mem_insert hc with rfl | hc
        · exact lt_of_le_of_ne (Nat.le_of_not_lt hlt) ha
        · exact hd.1 c hc
  · rcases Memory.mem_insert hc with rfl | hc
    · exact ⟨hp, hv⟩
    · exact h.2 c hc

/-- A write keeps the canonical form. -/
theorem Memory.wf_write {m : Memory} {p : Nat} (v : Byte) (h : Memory.wf m) (hp : p < 2 ^ 36) :
    Memory.wf (Memory.write m p v) := by
  unfold Memory.write
  split
  · exact Memory.wf_erase p h
  · next hv => exact Memory.wf_insert (Memory.wf_erase p h) hp hv fun c hc => Memory.ne_of_mem_erase hc

/-- A list of writes keeps the canonical form. -/
theorem Memory.wf_writeAll {m : Memory} (cs : List (Nat × Byte)) (h : Memory.wf m) (hc : ∀ c ∈ cs, c.1 < 2 ^ 36) :
    Memory.wf (Memory.writeAll m cs) := by
  induction cs generalizing m with
  | nil => exact h
  | cons c cs ih =>
    obtain ⟨p, v⟩ := c
    exact ih (Memory.wf_write v h (hc (p, v) (by simp))) fun c hc' => hc c (by simp [hc'])

/-! ### Writes under the address map (20_memory.md R89) -/

/-- A list of writes under the map keeps the canonical form. -/
theorem State.memAfter_wf {s : State} {cs : List (Nat × Byte)} (h : Memory.wf s.mem) (hc : ∀ c ∈ cs, c.1 < 2 ^ 36) :
    Memory.wf (s.memAfter cs) :=
  Memory.wf_writeAll _ h fun c hc' => hc c (List.mem_filter.mp hc').1

/-- A byte that no write names is as it was. -/
theorem State.read_memAfter_outside {s : State} {q : Nat} {cs : List (Nat × Byte)} (h : ∀ c ∈ cs, c.1 ≠ q) :
    Memory.read (s.memAfter cs) q = Memory.read s.mem q :=
  Memory.read_writeAll_outside _ _ fun c hc => h c (List.mem_filter.mp hc).1

/-- A byte where the map has no memory is as it was, whatever is written there. -/
theorem State.read_memAfter_platform {s : State} {q : Nat} (h : s.isRam q = false) (cs : List (Nat × Byte)) :
    Memory.read (s.memAfter cs) q = Memory.read s.mem q :=
  Memory.read_writeAll_outside _ _ fun c hc hq => by simp [hq, h] at hc

/-- A byte of memory that one write names is the byte written. -/
theorem State.read_memAfter_ram {s : State} {q : Nat} {v : Byte} {cs : List (Nat × Byte)} (hr : s.isRam q = true)
    (hn : (cs.map Prod.fst).Nodup) (h : (q, v) ∈ cs) : Memory.read (s.memAfter cs) q = v :=
  Memory.read_writeAll_of_mem _ _ (hn.sublist (List.filter_sublist.map _)) (List.mem_filter.mpr ⟨h, hr⟩)

/-- The last byte written at an address of memory is the byte there. -/
theorem State.read_memAfter_last {s : State} {p : Nat} {b : Byte} {pre post : List (Nat × Byte)} (hr : s.isRam p = true)
    (h : p ∉ post.map Prod.fst) : Memory.read (s.memAfter (pre ++ (p, b) :: post)) p = b := by
  have hpost : ∀ c ∈ post.filter (fun c => s.isRam c.1), c.1 ≠ p := fun c hc he =>
    h (List.mem_map.mpr ⟨c, (List.mem_filter.mp hc).1, he⟩)
  have split : ∀ (cs ds : List (Nat × Byte)) (m : Memory),
      Memory.writeAll m (cs ++ ds) = Memory.writeAll (Memory.writeAll m cs) ds := by
    intro cs
    induction cs with
    | nil => intros; rfl
    | cons c cs ih => obtain ⟨q, v⟩ := c; intro ds m; exact ih ds _
  rw [State.memAfter, List.filter_append, List.filter_cons_of_pos (by exact hr), split]
  show Memory.read (Memory.writeAll (Memory.write _ p b) _) p = b
  rw [Memory.read_writeAll_outside _ _ hpost, Memory.read_write_same]

/-- What a store leaves, said once. -/
theorem State.stored_memAfter (s : State) (cells : List (Nat × Byte)) : s.Stored cells (s.memAfter cells) := by
  refine ⟨fun p hp => State.read_memAfter_outside fun c hc he => hp (List.mem_map.mpr ⟨c, hc, he⟩), ?_⟩
  rintro pre p b post rfl hp
  split
  · next hr => exact State.read_memAfter_last hr hp
  · next hr => exact State.read_memAfter_platform (Bool.eq_false_iff.mpr hr) _

/-- A physical address lies in the space of the width in force: 32 bits with PAE clear (R83). -/
theorem State.clipPhys_lt_bits (s : State) (p : BitVec 36) : s.clipPhys p < 2 ^ s.physAddrBits :=
  Nat.mod_lt _ (Nat.two_pow_pos _)

theorem State.clipPhys_lt (s : State) (p : BitVec 36) : s.clipPhys p < 2 ^ 36 :=
  lt_of_le_of_lt (Nat.mod_le _ _) p.isLt

/-- A transfer keeps the canonical form: its addresses have 36 bits at most. -/
theorem State.transfer_wf {s : State} (t : Transfer) (h : Memory.wf s.mem) : Memory.wf (s.transfer t).mem := by
  refine State.memAfter_wf h fun c hc => ?_
  obtain ⟨d, -, rfl⟩ := List.mem_map.mp hc
  exact s.clipPhys_lt d.1

/-- Reset lists nothing, which is canonical. -/
theorem State.resetOf_mem_wf (p : Params) : Memory.wf (State.resetOf p).mem := by
  simp [State.resetOf, Memory.wf]

end Sys2Proof.Machine
end

