-- ==== Sys2Proof/Laws/Access.lean ====
section
/-! SUPPORT. Translation and data accesses: everything they can answer, said once (20_memory.md R81, R86, R92). -/

namespace Sys2Proof.Machine

/-! ### The bytes of an operand -/

@[simp] theorem linearBytes_length (a : Word) (n : Nat) : (linearBytes a n).length = n := by
  induction n generalizing a with
  | zero => rfl
  | succ n ih => simp [linearBytes, ih]

theorem linearBytes_eq_map (a : Word) (n : Nat) :
    linearBytes a n = (List.range n).map fun k => a + BitVec.ofNat 32 k := by
  induction n generalizing a with
  | zero => rfl
  | succ n ih =>
    rw [linearBytes, ih, List.range_succ_eq_map]
    simp only [List.map_cons, List.map_map, List.cons.injEq]
    refine ⟨by simp, List.map_congr_left fun k _ => ?_⟩
    simp only [Function.comp]
    apply BitVec.eq_of_toNat_eq
    simp [BitVec.toNat_add]
    omega

theorem linearBytes_nodup (a : Word) {n : Nat} (h : n ≤ 2 ^ 32) : ((linearBytes a n).map BitVec.toNat).Nodup := by
  rw [linearBytes_eq_map, List.map_map]
  refine List.Nodup.map_on ?_ List.nodup_range
  intro x hx y hy hxy
  simp only [List.mem_range] at hx hy
  simp only [Function.comp, BitVec.toNat_add, BitVec.toNat_ofNat] at hxy
  have := a.isLt
  omega

/-! ### Translation -/

/-- Without paging the linear address is used as physical (R81). -/
theorem State.translate_off {s : State} (h : s.pagingActive = false) (k : AccessKind) (a : Word) :
    s.translate k a = .ok a.toNat := by
  simp [State.translate, h]

theorem State.physAddrBits_cases (s : State) : s.physAddrBits = 32 ∨ s.physAddrBits = 36 := by
  unfold State.physAddrBits
  split <;> simp

/-- Every physical address has the width in force: 32 bits with PAE clear, 36 with it set (R83). -/
theorem State.translate_lt_bits {s : State} {k : AccessKind} {a : Word} {p : Nat} (h : s.translate k a = .ok p) :
    p < 2 ^ s.physAddrBits := by
  unfold State.translate at h
  split at h
  · simp only at h
    split at h
    · cases h
    · split at h
      · cases h
      · cases h
        exact s.clipPhys_lt_bits _
  · cases h
    have := a.isLt
    rcases s.physAddrBits_cases with e | e <;> rw [e] <;> omega

/-- What lies inside the width in force lies inside the space of 36 bits (R83). -/
theorem State.lt_of_lt_bits {s : State} {p : Nat} (h : p < 2 ^ s.physAddrBits) : p < 2 ^ 36 := by
  rcases s.physAddrBits_cases with e | e <;> rw [e] at h <;> omega

/-- A page fault needs paging (60_exceptions.md R236). -/
theorem State.translate_error {s : State} {k : AccessKind} {a pf : Word} (h : s.translate k a = .error pf) :
    s.pagingActive = true := by
  by_contra hp
  rw [State.translate_off (by simpa using hp)] at h
  cases h

theorem State.translateList_ok {s : State} {k : AccessKind} {as : List Word} {ps : List Nat}
    (h : s.translateList k as = .ok ps) : ps.length = as.length ∧ ∀ p ∈ ps, p < 2 ^ s.physAddrBits := by
  induction as generalizing ps with
  | nil => cases h; simp
  | cons a as ih =>
    simp only [State.translateList] at h
    split at h
    · cases h
    · next p hp =>
      split at h
      · cases h
      · next qs hqs =>
        cases h
        obtain ⟨hl, hb⟩ := ih hqs
        refine ⟨by simp [hl], fun q hq => ?_⟩
        rcases List.mem_cons.mp hq with rfl | hq
        · exact State.translate_lt_bits hp
        · exact hb q hq

theorem State.translateList_error {s : State} {k : AccessKind} {as : List Word} {pf : Word}
    (h : s.translateList k as = .error pf) : ∃ a ∈ as, s.translate k a = .error pf := by
  induction as with
  | nil => cases h
  | cons a as ih =>
    simp only [State.translateList] at h
    split at h
    · next e he => cases h; exact ⟨a, by simp, he⟩
    · split at h
      · next e he =>
        cases h
        obtain ⟨c, hc, hp⟩ := ih he
        exact ⟨c, by simp [hc], hp⟩
      · cases h

/-! ### Data accesses -/

/-- Everything `access` can answer: an alignment check under the condition of R92, a page fault of the translation, or the
physical addresses of the bytes. -/
theorem State.access_cases (s : State) (k : AccessKind) (b n : Nat) (a : Word) :
    (s.access k b n a = .stop (s.raise (.ac 0#32)) ∧ s.alignmentCheckActive = true) ∨
    (∃ pf, ∃ c ∈ linearBytes a n, s.access k b n a = .stop (s.raisePageFault pf) ∧ s.translate k c = .error pf) ∨
    (∃ ps, s.access k b n a = .ok ps ∧ ps.length = n ∧ ∀ p ∈ ps, p < 2 ^ s.physAddrBits) := by
  unfold State.access
  split
  · next h => exact .inl ⟨rfl, by simp at h; exact h.1⟩
  · split
    · split
      · next pf hpf =>
        obtain ⟨c, hc, hp⟩ := State.translateList_error hpf
        exact .inr (.inl ⟨pf, c, hc, rfl, hp⟩)
      · next ps hps =>
        obtain ⟨hl, hb⟩ := State.translateList_ok hps
        exact .inr (.inr ⟨ps, rfl, by simpa using hl, hb⟩)
    · refine .inr (.inr ⟨_, rfl, by simp, fun p hp => ?_⟩)
      obtain ⟨w, -, rfl⟩ := List.mem_map.mp hp
      have := w.isLt
      rcases s.physAddrBits_cases with e | e <;> rw [e] <;> omega

/-- An access whose bytes are at physical addresses answers these. -/
theorem State.access_of_reaches {s : State} {d : DataAccess} {ps : List Nat} (h : s.Reaches (some d) ps) :
    s.access d.kind d.boundary d.width (s.effAddr d.operand) = .ok ps := by
  obtain ⟨ha, hp⟩ := h
  have hc : (s.alignmentCheckActive && (s.effAddr d.operand).toNat % d.boundary != 0) = false := by
    cases hb : s.alignmentCheckActive
    · rfl
    · simp [ha hb]
  unfold State.access
  rw [hc]
  cases hg : s.pagingActive <;> simp only [hg, Bool.false_eq_true, if_false, if_true] at hp ⊢ <;> rw [hp]

/-- With no check in the way the bytes of an access are at the linear addresses themselves. -/
theorem State.reaches_plain {s : State} (h : s.PlainMemory) (d : DataAccess) :
    s.Reaches (some d) ((linearBytes (s.effAddr d.operand) d.width).map BitVec.toNat) := by
  refine And.intro (fun hc => ?_) ?_
  · rw [h.2] at hc; cases hc
  · rw [h.1]; rfl

/-- With no check in the way every access is within reach. -/
theorem State.reaches_exists {s : State} (h : s.PlainMemory) (a : Option DataAccess) : ∃ ps, s.Reaches a ps :=
  match a with
  | none => ⟨[], rfl⟩
  | some d => ⟨_, State.reaches_plain h d⟩

/-- An access has as many physical addresses as it has bytes. -/
theorem State.Reaches.length {s : State} {d : DataAccess} {ps : List Nat} (h : s.Reaches (some d) ps) : ps.length = d.width := by
  obtain ⟨-, hp⟩ := h
  split at hp
  · simpa using (State.translateList_ok hp).1
  · simp [hp]

/-! ### Bytes stored and read back -/

/-- The bytes stored at distinct addresses of memory, read back by a state with that memory and the same map there. -/
theorem State.readByte_stored {s u : State} {ps : List Nat} {bs : List Byte} (hl : ps.length = bs.length) (hn : ps.Nodup)
    (hm : s.Stored (ps.zip bs) u.mem) (hr : ∀ p ∈ ps, s.isRam p = true ∧ u.isRam p = true) : ps.map u.readByte = bs := by
  apply List.ext_getElem
  · simp [hl]
  · intro k h1 h2
    have hk : k < ps.length := by simpa using h1
    have hz : k < (ps.zip bs).length := by simp [hl, h2]
    have hsplit : ps.zip bs = (ps.zip bs).take k ++ (ps[k], bs[k]) :: (ps.zip bs).drop (k + 1) := by
      conv_lhs => rw [← List.take_append_drop k (ps.zip bs), List.drop_eq_getElem_cons hz]
      simp
    have hout : ps[k] ∉ ((ps.zip bs).drop (k + 1)).map Prod.fst := by
      rw [List.map_drop, List.map_fst_zip (by omega)]
      intro hmem
      obtain ⟨j, hj, he⟩ := List.getElem_of_mem hmem
      rw [List.getElem_drop] at he
      have := (List.Nodup.getElem_inj_iff hn).mp he
      omega
    have hp := hr _ (List.getElem_mem hk)
    rw [List.getElem_map, State.readByte, if_pos hp.2, hm.2 _ _ _ _ hsplit hout, if_pos hp.1]

theorem zip_fst_lt {n : Nat} {ps : List Nat} {bs : List Byte} (h : ∀ p ∈ ps, p < n) : ∀ c ∈ ps.zip bs, c.1 < n :=
  fun _ hc => h _ (List.of_mem_zip hc).1

end Sys2Proof.Machine
end

