-- ==== Sys2Proof/Laws/Encoding.lean ====
section
/-! SUPPORT. The fields and numbers of an encoding, and a memory operand read back from its bytes (30_encoding.md R110, R111). -/

namespace Sys2Proof

/-! ### The extent of an instruction without a row (00_scope.md R4; log 13) -/

/-- The whole instruction lies at the front of the bytes, and is found again whatever follows it. -/
theorem wholeAfter_spec {read bs is : List Byte} (h : wholeAfter read bs = some is) :
    ∃ pre rest, bs = pre ++ rest ∧ pre ≠ [] ∧ is = read ++ pre ∧ isWhole is = true ∧
      ∀ more, wholeAfter read (pre ++ more) = some is := by
  induction bs generalizing read with
  | nil => cases h
  | cons b bs ih =>
    simp only [wholeAfter] at h
    split at h
    · next hw =>
      cases h
      exact ⟨[b], bs, rfl, by simp, rfl, hw, fun more => by simp [wholeAfter, hw]⟩
    · next hw =>
      obtain ⟨pre, rest, rfl, -, rfl, hi, hm⟩ := ih h
      exact ⟨b :: pre, rest, rfl, by simp, by simp, hi, fun more => by simpa [wholeAfter, hw] using hm more⟩

/-- What stands first among bytes that match no row depends on nothing that follows it. -/
theorem unlistedBytes_spec {bs is : List Byte} (h : unlistedBytes bs = some is) :
    is ≠ [] ∧ is <+: bs ∧ isWhole is = true ∧ ∀ more, unlistedBytes (is ++ more) = some is := by
  obtain ⟨pre, rest, rfl, hn, rfl, hw, hm⟩ := wholeAfter_spec h
  exact ⟨hn, ⟨rest, rfl⟩, hw, hm⟩

/-! ### ModR/M and register numbers -/

@[simp] theorem modField_modRM (md : BitVec 2) (n r : BitVec 3) : modField (modRM md n r) = md := by
  revert md n r; decide

@[simp] theorem regField_modRM (md : BitVec 2) (n r : BitVec 3) : regField (modRM md n r) = n := by
  revert md n r; decide

@[simp] theorem rmField_modRM (md : BitVec 2) (n r : BitVec 3) : rmField (modRM md n r) = r := by
  revert md n r; decide

/-- A byte is the ModR/M byte of its fields. -/
@[simp] theorem modRM_fields (b : Byte) : modRM (modField b) (regField b) (rmField b) = b := by
  revert b; decide

@[simp] theorem Reg.ofBits_toBits (r : Reg) : Reg.ofBits r.toBits = r := by
  cases r <;> rfl

@[simp] theorem Reg.toBits_ofBits (n : BitVec 3) : (Reg.ofBits n).toBits = n := by
  revert n; decide

/-- The first byte of an x87 instruction: 11011b and three opcode bits (R116). -/
theorem x87Byte_fields (op : BitVec 3) :
    (0x1B#5 ++ op : Byte).extractLsb' 3 5 = 0x1B#5 ∧ (0x1B#5 ++ op : Byte).extractLsb' 0 3 = op ∧
      (0x1B#5 ++ op : Byte) ≠ 0x0F#8 ∧ (0x1B#5 ++ op : Byte) ≠ 0x9B#8 ∧ (0x1B#5 ++ op : Byte) ≠ 0xF3#8 ∧
      (0x1B#5 ++ op : Byte) ≠ 0x90#8 := by
  revert op; decide

theorem x87Byte_of_fields (b : Byte) (h : b.extractLsb' 3 5 = 0x1B#5) : (0x1B#5 ++ b.extractLsb' 0 3 : Byte) = b := by
  revert b; decide

/-! ### Numbers -/

theorem leWord_wordBytes (w : Word) :
    leWord (w.extractLsb' 0 8) (w.extractLsb' 8 8) (w.extractLsb' 16 8) (w.extractLsb' 24 8) = w := by
  unfold leWord
  ext i hi
  simp only [BitVec.getElem_append, BitVec.getElem_extractLsb']
  split
  · simp [BitVec.getLsbD_eq_getElem hi]
  · split
    · rw [show 8 + (i - 8) = i by omega, BitVec.getLsbD_eq_getElem hi]
    · split
      · rw [show 16 + (i - 8 - 8) = i by omega, BitVec.getLsbD_eq_getElem hi]
      · rw [show 24 + (i - 8 - 8 - 8) = i by omega, BitVec.getLsbD_eq_getElem hi]

theorem wordBytes_leWord (b0 b1 b2 b3 : Byte) : wordBytes (leWord b0 b1 b2 b3) = [b0, b1, b2, b3] := by
  simp only [wordBytes, leWord, List.cons.injEq, and_true]
  refine ⟨?_, ?_, ?_, ?_⟩ <;> ext i hi <;> simp only [BitVec.getElem_extractLsb', BitVec.getLsbD_append] <;>
    interval_cases i <;> simp

theorem dispSize_le (m : MemOperand) : m.dispSize = 0 ∨ m.dispSize = 1 ∨ m.dispSize = 4 := by
  unfold MemOperand.dispSize
  split_ifs <;> simp

theorem sibSize_le (m : MemOperand) : m.sibSize = 0 ∨ m.sibSize = 1 := by
  unfold MemOperand.sibSize
  split_ifs <;> simp

/-- The tail has one byte for the SIB byte and each displacement byte. -/
@[simp] theorem tail_length (m : MemOperand) : m.tail.length = m.size := by
  unfold MemOperand.tail MemOperand.size
  rcases sibSize_le m with h | h <;> rcases dispSize_le m with h' | h' | h' <;> simp [h, h', wordBytes]

/-! ### A displacement and an operand, read back -/

theorem takeDisp_wordBytes {n : Nat} (d : Word) (rest : List Byte) (hn : n = 0 ∨ n = 1 ∨ n = 4)
    (hd : d.toNat < 256 ^ n) : takeDisp n ((wordBytes d).take n ++ rest) = some d := by
  rcases hn with rfl | rfl | rfl
  · have : d = 0#32 := BitVec.eq_of_toNat_eq (by simpa using hd)
    simp [takeDisp, this]
  · simp only [takeDisp, wordBytes]
    simp only [List.take_succ_cons, List.take_zero, List.cons_append]
    simp only [Nat.one_ne_zero, if_false, if_true, Option.some.injEq]
    apply BitVec.eq_of_toNat_eq
    simp
    omega
  · simp [takeDisp, wordBytes, leWord_wordBytes]

/-- An operand's bytes give the operand back, whatever follows. -/
theorem takeOperand_tail (m : MemOperand) (h : m.WellFormed) (rest : List Byte) :
    takeOperand m.md m.rm (m.tail ++ rest) = some m := by
  obtain ⟨-, hsib, hdisp⟩ := h
  have hd : takeDisp m.dispSize ((wordBytes m.disp).take m.dispSize ++ rest) = some m.disp :=
    takeDisp_wordBytes _ _ (dispSize_le m) hdisp
  have hsize : MemOperand.dispSize ⟨m.md, m.rm, m.sib, 0#32⟩ = m.dispSize := rfl
  by_cases h4 : m.rm = 4#3
  · have hs : m.sibSize = 1 := by simp [MemOperand.sibSize, h4]
    unfold takeOperand takeSib MemOperand.tail
    simp only [hs, if_true, List.cons_append, List.nil_append, h4]
    have hsize' : MemOperand.dispSize ⟨m.md, 4#3, m.sib, 0#32⟩ = m.dispSize := by rw [← hsize, h4]
    simp only [hsize', hd]
    rw [← h4]
  · have hs : m.sibSize = 0 := by simp [MemOperand.sibSize, h4]
    unfold takeOperand takeSib MemOperand.tail
    simp only [hs, Nat.zero_ne_one, if_false, List.nil_append, h4]
    have hz := hsib h4
    rw [← hz]
    simp only [hsize, hd]

/-- What an operand is read from is its tail, and it is well-formed where `mod` is not 11b. -/
theorem takeOperand_some {md : BitVec 2} {rm : BitVec 3} {bs : List Byte} {m : MemOperand}
    (h : takeOperand md rm bs = some m) :
    m.md = md ∧ m.rm = rm ∧ (md ≠ 3#2 → m.WellFormed) ∧ ∃ rest, bs = m.tail ++ rest := by
  have disp : ∀ {n : Nat} {cs : List Byte} {d : Word}, (n = 0 ∨ n = 1 ∨ n = 4) → takeDisp n cs = some d →
      d.toNat < 256 ^ n ∧ ∃ rest, cs = (wordBytes d).take n ++ rest := by
    intro n cs d hn hd
    rcases hn with rfl | rfl | rfl
    · simp only [takeDisp, if_true, Option.some.injEq] at hd
      subst hd
      exact ⟨by simp, cs, by simp⟩
    · cases cs with
      | nil => simp [takeDisp] at hd
      | cons b cs =>
        simp only [takeDisp, Nat.one_ne_zero, if_false, if_true, Option.some.injEq] at hd
        subst hd
        refine ⟨by simp; omega, cs, ?_⟩
        simp [wordBytes]
        apply BitVec.eq_of_toNat_eq
        simp
        omega
    · match cs, hd with
      | b0 :: b1 :: b2 :: b3 :: cs, hd =>
        simp [takeDisp] at hd
        subst hd
        refine ⟨by have := (leWord b0 b1 b2 b3).isLt; omega, cs, ?_⟩
        rw [wordBytes_leWord]
        rfl
      | [], hd | [_], hd | [_, _], hd | [_, _, _], hd => simp [takeDisp] at hd
  unfold takeOperand at h
  split at h
  · cases h
  · next sib rest hsib =>
    split at h
    · cases h
    · next d hd =>
      cases h
      obtain ⟨hlt, rest', hrest⟩ := disp (dispSize_le _) hd
      by_cases h4 : rm = 4#3
      · subst h4
        cases bs with
        | nil => simp [takeSib] at hsib
        | cons b bs =>
          simp only [takeSib, if_true, Option.some.injEq, Prod.mk.injEq] at hsib
          obtain ⟨rfl, rfl⟩ := hsib
          refine ⟨rfl, rfl, fun hmd => ⟨hmd, fun hne => absurd rfl hne, hlt⟩, rest', ?_⟩
          simp only [MemOperand.tail, MemOperand.sibSize, if_true, List.cons_append, List.nil_append]
          rw [hrest]
          rfl
      · simp only [takeSib, h4, if_false, Option.some.injEq, Prod.mk.injEq] at hsib
        obtain ⟨rfl, rfl⟩ := hsib
        refine ⟨rfl, rfl, fun hmd => ⟨hmd, fun _ => rfl, hlt⟩, rest', ?_⟩
        simp only [MemOperand.tail, MemOperand.sibSize, h4, if_false, Nat.zero_ne_one, List.nil_append]
        rw [hrest]
        rfl

/-! ### The rows -/

/-- A row that is read is what the decoder answers. -/
theorem decode_of_decodeRow {bs : List Byte} {d : Decoded} (h : decodeRow bs = d) (hd : d ≠ .unlisted) : decode bs = d := by
  unfold decode
  rw [h]
  cases d <;> simp_all

/-- What the decoder answers as an instruction was read as a row: a prefixed form never is one (R125). -/
theorem decodeRow_of_decode {bs : List Byte} {i : Instr} {n : Nat} (h : decode bs = .instr i n) :
    decodeRow bs = .instr i n := by
  unfold decode at h
  split at h
  · cases bs with
    | nil => cases h
    | cons b bs =>
      simp only [decodePrefixed] at h
      split at h
      · split at h
        · cases h
        · split at h <;> cases h
        · next h' _ => exact absurd h (h' i n)
      · cases h
  · exact h

/-- A memory form of OP2_M reaches the fields of its ModR/M byte. -/
theorem decodeRow_encodeM (op : Byte) (n : BitVec 3) (m : MemOperand) (rest : List Byte) (h1 : needsModRM op = true)
    (h2 : op ≠ 0x06#8) (h3 : op ≠ 0x31#8) (h4 : op ≠ 0x33#8) (h5 : op ≠ 0xA2#8) :
    decodeRow (encodeM op n m ++ rest) = decodeModRM op m.md n m.rm (m.tail ++ rest) := by
  simp [encodeM, decodeRow, decodeEscape, h1, h2, h3, h4, h5]

/-- A register form of OP2_RR reaches the fields of its ModR/M byte. -/
theorem decodeRow_encodeRR (op : Byte) (md : BitVec 2) (n : BitVec 3) (r : Reg) (rest : List Byte)
    (h1 : needsModRM op = true) (h2 : op ≠ 0x06#8) (h3 : op ≠ 0x31#8) (h4 : op ≠ 0x33#8) (h5 : op ≠ 0xA2#8) :
    decodeRow (encodeRR op md n r ++ rest) = decodeModRM op md n r.toBits rest := by
  simp [encodeRR, decodeRow, decodeEscape, h1, h2, h3, h4, h5]

theorem memoryForm_tail (mk : MemOperand → Instr) (m : MemOperand) (h : m.WellFormed) (rest : List Byte) :
    memoryForm mk m.md m.rm (m.tail ++ rest) = .instr (mk m) (3 + m.size) := by
  simp only [memoryForm, h.1, if_false, takeOperand_tail m h]

/-- What a memory form is read from. -/
theorem memoryForm_some {mk : MemOperand → Instr} {md : BitVec 2} {rm : BitVec 3} {bs : List Byte} {i : Instr} {n : Nat}
    (h : memoryForm mk md rm bs = .instr i n) :
    ∃ m rest, i = mk m ∧ n = 3 + m.size ∧ m.md = md ∧ m.rm = rm ∧ m.WellFormed ∧ bs = m.tail ++ rest := by
  unfold memoryForm at h
  split at h
  · cases h
  · next hmd =>
    split at h
    · cases h
    · next m hm =>
      cases h
      obtain ⟨h1, h2, h3, rest, h4⟩ := takeOperand_some hm
      exact ⟨m, rest, rfl, rfl, h1, h2, h3 hmd, h4⟩

/-- An instruction without a memory operand is well-formed. -/
theorem wellFormed_of_operand_none {i : Instr} (h : i.operand = none) : i.WellFormed := by
  intro m hm
  simp [h] at hm

@[simp] theorem tableBytes_length (n w : Nat) : (tableBytes n w).length = n := by
  induction n with
  | zero => rfl
  | succ n ih => simp [tableBytes, ih]

/-- A word of the table fills the longest instruction. -/
theorem paddedTableBytes_length {nbits : Nat} (h : nbits ≤ 64) (w : Nat) :
    (paddedTableBytes nbits w).length = longestInstr := by
  simp [paddedTableBytes, longestInstr]
  omega

end Sys2Proof
end

