-- ==== Sys2Proof/Laws/Regs.lean ====
section
/-! SUPPORT. The register file: a read after a write (10_state.md R70). -/

namespace Sys2Proof.Machine

@[simp] theorem regOf_putReg_same (r : Reg) (v : Word) (f : Regs) : regOf r (putReg r v f) = v := by
  cases r <;> rfl

theorem regOf_putReg_other {r q : Reg} (h : q ≠ r) (v : Word) (f : Regs) : regOf q (putReg r v f) = regOf q f := by
  cases r <;> cases q <;> first | rfl | exact absurd rfl h

theorem regs_ext {f g : Regs} (h : ∀ r, regOf r f = regOf r g) : f = g := by
  obtain ⟨⟩ := f
  obtain ⟨⟩ := g
  simp only [Regs.mk.injEq]
  exact ⟨h .eax, h .ecx, h .edx, h .ebx, h .esp, h .ebp, h .esi, h .edi⟩

/-- The status flags are replaced, the others kept (40_mov_cr.md R153). -/
theorem withStatus_system (e v : Word) : withStatus e v &&& ~~~statusMask = e &&& ~~~statusMask := by
  ext i hi
  simp only [withStatus, BitVec.getElem_and, BitVec.getElem_or, BitVec.getElem_not]
  cases e[i] <;> cases v[i] <;> cases statusMask[i] <;> rfl

theorem State.freeStatus_kept (s : State) : s.SystemFlagsKept s.freeStatus.eflags :=
  withStatus_system _ _

/-- Keeping the system flags keeps VM (10_state.md R68). -/
theorem vmOf_of_kept {s : State} {f : Word} (h : s.SystemFlagsKept f) : vmOf f = vmOf s.eflags := by
  have := congrArg (fun w : Word => w.getLsbD 17) h
  simpa [vmOf, statusMask] using this

end Sys2Proof.Machine
end

