-- ==== Sys2Proof/Laws/Exec.lean ====
section
/-! SUPPORT. Everything the shared operations and `exec` can do, said once: the proofs about a step cite these lemmas and
unfold no meaning (60_exceptions.md R245, 10_state.md R63, R66). -/

namespace Sys2Proof.Machine

theorem State.kept_refl (s : State) : s.SystemFlagsKept s.eflags := rfl

/-! ### Two ways to end without an effect -/

/-- An exception other than a page fault, #XF and the report of an x87 error: the state with the record of it, under the condition
of the alignment check. -/
def Raises (s t : State) : Prop :=
  ∃ e, t = s.raise e ∧ e ≠ .pf ∧ e ≠ .fpuInterrupt ∧ e ≠ .mf ∧ e ≠ .xf ∧ ∀ c, e = .ac c → s.alignmentCheckActive = true

/-- A page fault that the translation gives of a byte of one of the step's own accesses: of the fetch at `pc`, or of the data
access of the instruction. -/
def PageFaults (op : Option DataAccess) (s t : State) : Prop :=
  ∃ pf k a, t = s.raisePageFault pf ∧ s.translate k a = .error pf ∧
    (k = .fetch ∧ a ∈ linearBytes s.pc maxInstrBytes ∨
      ∃ d, op = some d ∧ k = d.kind ∧ a ∈ linearBytes (s.effAddr d.operand) d.width)

/-- What no instruction does to memory: it leaves no non-canonical memory, and changes no byte beyond the physical width in
force (20_memory.md R80, R83). -/
def MemoryKept (s t : State) : Prop :=
  (Memory.wf s.mem → Memory.wf t.mem) ∧ ∀ p, 2 ^ s.physAddrBits ≤ p → Memory.read t.mem p = Memory.read s.mem p

theorem MemoryKept.of_eq {s t : State} (h : t.mem = s.mem) : MemoryKept s t := by
  unfold MemoryKept
  rw [h]
  exact ⟨id, fun _ _ => rfl⟩

theorem MemoryKept.of_store {s t : State} {cells : List (Nat × Byte)} (h : t.mem = s.memAfter cells)
    (hc : ∀ c ∈ cells, c.1 < 2 ^ s.physAddrBits) : MemoryKept s t := by
  unfold MemoryKept
  rw [h]
  exact ⟨fun hw => State.memAfter_wf hw fun c hm => State.lt_of_lt_bits (hc c hm),
    fun p hp => State.read_memAfter_outside fun c hm he => by have := hc c hm; omega⟩

theorem MemoryKept.of_transfer (s : State) (tr : Transfer) : MemoryKept s (s.transfer tr) := by
  refine .of_store rfl fun c hc => ?_
  obtain ⟨d, -, rfl⟩ := List.mem_map.mp hc
  exact s.clipPhys_lt_bits d.1

/-- What no completed instruction does: it changes no parameter, privilege level, arrival or system flag, keeps memory as above
and records no exception of its own. -/
def Completes (s t : State) : Prop :=
  t.raised = s.raised ∧ t.params = s.params ∧ t.cpl = s.cpl ∧ t.arrivals = s.arrivals ∧ s.SystemFlagsKept t.eflags ∧
    MemoryKept s t

/-- The control registers stand as they stood. -/
def SameControl (s t : State) : Prop := t.cr0 = s.cr0 ∧ t.cr2 = s.cr2 ∧ t.cr3 = s.cr3 ∧ t.cr4 = s.cr4

/-- A meaning that completes and writes no control register, or raises. -/
def Plain (op : Option DataAccess) (s t : State) : Prop :=
  Raises s t ∨ PageFaults op s t ∨ (Completes s t ∧ SameControl s t)

theorem Raises.of {s : State} {e : Exc} (h : e = .nm ∨ e = .ud ∨ ∃ c, e = .gp c) : Raises s (s.raise e) := by
  rcases h with rfl | rfl | ⟨c, rfl⟩ <;> exact ⟨_, rfl, by simp, by simp, by simp, by simp, by simp⟩

/-! ### Data accesses and numeric instructions -/

/-- How an access at a memory operand ends if it stops. -/
theorem State.access_stop {s t : State} {k : AccessKind} {b n : Nat} {m : MemOperand}
    (h : s.access k b n (s.effAddr m) = .stop t) : Raises s t ∨ PageFaults (some ⟨m, k, b, n⟩) s t := by
  rcases s.access_cases k b n (s.effAddr m) with ⟨h', hc⟩ | ⟨pf, c, hm, h', hc⟩ | ⟨ps, h', -⟩ <;> rw [h'] at h <;> cases h
  · exact .inl ⟨_, rfl, by simp, by simp, by simp, by simp, fun _ _ => hc⟩
  · exact .inr ⟨pf, k, c, rfl, hc, .inr ⟨_, rfl, rfl, hm⟩⟩

/-- The addresses an access answers lie in the physical space. -/
theorem State.access_ok {s : State} {k : AccessKind} {b n : Nat} {a : Word} {ps : List Nat}
    (h : s.access k b n a = .ok ps) : ps.length = n ∧ ∀ p ∈ ps, p < 2 ^ s.physAddrBits := by
  rcases s.access_cases k b n a with ⟨h', -⟩ | ⟨pf, c, -, h', -⟩ | ⟨qs, h', hq⟩ <;> rw [h'] at h <;> cases h
  exact hq

theorem State.numericAccess_stop {s t : State} {m : Option MemOperand} {e : NumericEffect}
    (h : s.numericAccess m e = .stop t) :
    Raises s t ∨ PageFaults (m.map fun m => ⟨m, numericKind e, e.boundary, numericWidth e⟩) s t := by
  cases m with
  | none => cases h
  | some m => exact State.access_stop h

theorem State.numericAccess_ok {s : State} {m : Option MemOperand} {e : NumericEffect} {ps : List Nat}
    (h : s.numericAccess m e = .ok ps) : ∀ p ∈ ps, p < 2 ^ s.physAddrBits := by
  cases m with
  | none => cases h; simp
  | some m => exact (State.access_ok h).2

theorem State.numericCommit_completes {s : State} {ps : List Nat} (u : NumericUnit) (len : Nat) (e : NumericEffect)
    (h : ∀ p ∈ ps, p < 2 ^ s.physAddrBits) :
    Completes s (s.numericCommit ps u len e) ∧ SameControl s (s.numericCommit ps u len e) := by
  refine ⟨⟨rfl, rfl, rfl, rfl, ?_, .of_store rfl (zip_fst_lt h)⟩, rfl, rfl, rfl, rfl⟩
  simp only [State.numericCommit, State.advance_eflags]
  split
  · exact s.kept_refl
  · exact withStatus_system _ _

theorem State.numeric_plain (s : State) (m : Option MemOperand) (u : NumericUnit) (len : Nat) (e : NumericEffect) :
    Plain (m.map fun m => ⟨m, numericKind e, e.boundary, numericWidth e⟩) s (s.numeric m u len e) := by
  unfold State.numeric
  split
  · next h => exact (State.numericAccess_stop h).elim .inl (.inr ∘ .inl)
  · next h => exact .inr (.inr (State.numericCommit_completes _ _ _ (State.numericAccess_ok h)))

/-- Reporting a pending x87 error: in place of the instruction, right after it, or not at all (42_fpu_simd_gating.md R192). -/
theorem State.reportFpuError_cases (s : State) (w : Bool) (run : State → State) :
    s.reportFpuError w run = run s ∨
    (s.fpuError = true ∧ s.reportFpuError w run = s.endFpuError.raise .mf) ∨
    (s.fpuError = true ∧ (run s).raised = none ∧
      s.reportFpuError w run = (run s).endFpuError.raise .fpuInterrupt) := by
  unfold State.reportFpuError
  split
  · next hf =>
    split
    · split
      · exact .inr (.inl ⟨hf, rfl⟩)
      · exact .inl rfl
    · split
      · exact .inl rfl
      · next hr => exact .inr (.inr ⟨hf, by simp at hr; exact hr.2, rfl⟩)
  · exact .inl rfl

theorem State.reportFpuError_none {s : State} (h : s.fpuError = false) (w : Bool) (run : State → State) :
    s.reportFpuError w run = run s := by
  simp [State.reportFpuError, h]

theorem State.reportFpuError_internal {s : State} (h : s.fpuError = true) (hn : s.ne = true) (w : Bool)
    (run : State → State) : s.reportFpuError w run = if w then s.endFpuError.raise .mf else run s := by
  simp [State.reportFpuError, h, hn]

theorem State.reportFpuError_external {s : State} (h : s.fpuError = true) (hn : s.ne = false) (w : Bool)
    {run : State → State} (hr : (run s).raised = none) :
    s.reportFpuError w run = if s.ignne then run s else (run s).endFpuError.raise .fpuInterrupt := by
  simp [State.reportFpuError, h, hn, hr]

/-- A numeric access whose bytes are at physical addresses answers these. -/
theorem State.numericAccess_of_reaches {s : State} {m : Option MemOperand} {bs : List Byte} {ps : List Nat}
    (h : s.Reaches (s.numericData m bs) ps) : s.numericAccess m (Config.numericEffect bs s.draws) = .ok ps := by
  cases m with
  | none => simp only [State.numericData, Option.map_none, State.Reaches] at h; rw [h]; rfl
  | some m =>
    simp only [State.numericData, Option.map_some] at h
    simpa only [State.numericAccess] using State.access_of_reaches h

/-- What a numeric instruction writes: the contexts, at most one register, the status flags, its stored bytes, and the pending
error an x87 instruction can end. -/
theorem State.numericCommit_eq (s : State) (ps : List Nat) (u : NumericUnit) (len : Nat) (e : NumericEffect) :
    ∃ f, s.SystemFlagsKept f ∧ ∃ regs, (regs = s.regs ∨ ∃ r v, regs = putReg r v s.regs) ∧
      s.numericCommit ps u len e =
        { s with
          fpu := e.fpu, sse := if u = .simd then e.sse else s.sse, regs := regs, eflags := f,
          mem := s.memAfter (ps.zip e.stores), fpuError := s.fpuError && !(u = .x87 && e.endsError)
          draws := s.draws + 1, pc := s.pc + BitVec.ofNat 32 len } := by
  refine ⟨match e.status with | none => s.eflags | some v => withStatus s.eflags v, ?_,
    match e.gpr with | none => s.regs | some (r, v) => putReg r v s.regs, ?_, rfl⟩
  · split
    · exact s.kept_refl
    · exact withStatus_system _ _
  · split
    · exact .inl rfl
    · exact .inr ⟨_, _, rfl⟩

/-! ### `exec`: everything a next state can be -/

/-- Who wrote a control register, and that `priv_ok` held (10_state.md R63, 40_mov_cr.md R141). -/
def ControlWritten (i : Instr) (s t : State) : Prop :=
  s.privOk = true ∧
  ((i = .clts ∧ t.cr0 = s.cr0 &&& ~~~0x00000008#32 ∧ t.cr2 = s.cr2 ∧ t.cr3 = s.cr3 ∧ t.cr4 = s.cr4) ∨
   (∃ md r, i = .movCr0R32 md r ∧ t.cr0 = s.reg r ∧ cr0ValueForbidden (s.reg r) = false ∧
      s.reg r &&& rsvd0 s.params = s.readCr0 &&& rsvd0 s.params ∧ t.cr2 = s.cr2 ∧ t.cr3 = s.cr3 ∧ t.cr4 = s.cr4) ∨
   (∃ md r, i = .movCr2R32 md r ∧ t.cr2 = s.reg r ∧ t.cr0 = s.cr0 ∧ t.cr3 = s.cr3 ∧ t.cr4 = s.cr4) ∨
   (∃ md r, i = .movCr3R32 md r ∧ t.cr3 = s.reg r ∧ s.reg r &&& s.rsvd3 = s.cr3 &&& s.rsvd3 ∧
      t.cr0 = s.cr0 ∧ t.cr2 = s.cr2 ∧ t.cr4 = s.cr4) ∨
   (∃ md r, i = .movCr4R32 md r ∧ t.cr4 = s.reg r ∧ s.reg r &&& rsvd4 s.params = s.cr4 &&& rsvd4 s.params ∧
      t.cr0 = s.cr0 ∧ t.cr2 = s.cr2 ∧ t.cr3 = s.cr3))

/-- The report of a pending x87 error, in place of the instruction or right after it (R192). -/
def ReportsError (i : Instr) (s t : State) : Prop :=
  s.fpuError = true ∧ (i = .wait ∨ ∃ op ext o, i = .x87 op ext o) ∧
  (t = s.endFpuError.raise .mf ∨
    ∃ u, Completes s u ∧ SameControl s u ∧ s.raised = none ∧ t = u.endFpuError.raise .fpuInterrupt)

/-- Every next state of `exec` is one of four: an exception, a page fault, the report of an x87 error, or a completed
instruction whose control registers stand or are written by one of their writers. -/
def ExecCases (i : Instr) (s t : State) : Prop :=
  Raises s t ∨ PageFaults (s.dataAccess i) s t ∨ ReportsError i s t ∨
    (Completes s t ∧ (SameControl s t ∨ ControlWritten i s t))

theorem ExecCases.of_plain {i : Instr} {s t : State} (h : Plain (s.dataAccess i) s t) : ExecCases i s t := by
  rcases h with h | h | ⟨h, h'⟩
  · exact .inl h
  · exact .inr (.inl h)
  · exact .inr (.inr (.inr ⟨h, .inl h'⟩))

theorem ExecCases.reported {i : Instr} {s : State} {w : Bool} {run : State → State}
    (hi : i = .wait ∨ ∃ op ext o, i = .x87 op ext o) (h : Plain (s.dataAccess i) s (run s)) :
    ExecCases i s (s.reportFpuError w run) := by
  rcases s.reportFpuError_cases w run with he | ⟨hf, he⟩ | ⟨hf, hr, he⟩ <;> rw [he]
  · exact .of_plain h
  · exact .inr (.inr (.inl ⟨hf, hi, .inl rfl⟩))
  · rcases h with ⟨e, ht, -⟩ | ⟨pf, k, a, ht, -⟩ | ⟨h, h'⟩
    · rw [ht] at hr; cases hr
    · rw [ht] at hr; cases hr
    · exact .inr (.inr (.inl ⟨hf, hi, .inr ⟨_, h, h', by rw [← h.1]; exact hr, rfl⟩⟩))

theorem Plain.advance {op : Option DataAccess} (s : State) (n : Nat) : Plain op s (s.advance n) :=
  .inr (.inr ⟨⟨rfl, rfl, rfl, rfl, rfl, .of_eq rfl⟩, rfl, rfl, rfl, rfl⟩)

theorem moveFromCr_plain {op : Option DataAccess} {s t : State} {r : Reg} {v : Word} (h : moveFromCr r v s = .next t) :
    Plain op s t := by
  unfold moveFromCr at h
  split at h <;> cases h
  · exact .inr (.inr ⟨⟨rfl, rfl, rfl, rfl, withStatus_system _ _, .of_eq rfl⟩, rfl, rfl, rfl, rfl⟩)
  · exact .inl (.of (by simp))

theorem moveFromDr_plain {op : Option DataAccess} {s t : State} {n : BitVec 3} {r : Reg} {v : Word}
    (h : moveFromDr n v r s = .next t) : Plain op s t := by
  unfold moveFromDr at h
  split at h <;> cases h
  · next e he =>
    refine .inl (.of ?_)
    unfold State.drStop at he
    split_ifs at he <;> cases he <;> simp
  · exact .inr (.inr ⟨⟨rfl, rfl, rfl, rfl, rfl, .of_eq rfl⟩, rfl, rfl, rfl, rfl⟩)

theorem State.drStop_raises {s : State} {e : Exc} (he : s.drStop = some e) : Raises s (s.raise e) := by
  refine .of ?_
  unfold State.drStop at he
  split_ifs at he <;> cases he <;> simp

theorem changesReserved_false {m o v : Word} (h : ¬ changesReserved m o v = true) : v &&& m = o &&& m := by
  simpa [changesReserved] using h

theorem exec_cases {i : Instr} {s t : State} (h : exec i s = .next t) : ExecCases i s t := by
  have gp : Raises s (s.raise (.gp 0#32)) := .of (by simp)
  have ud : Raises s (s.raise .ud) := .of (by simp)
  have nm : Raises s (s.raise .nm) := .of (by simp)
  have done : ∀ u : State, u.raised = s.raised → u.params = s.params → u.cpl = s.cpl → u.arrivals = s.arrivals →
      u.eflags = s.eflags → u.mem = s.mem → Completes s u := fun u h1 h2 h3 h4 h5 h6 =>
    ⟨h1, h2, h3, h4, by rw [h5]; exact s.kept_refl, .of_eq h6⟩
  have written : ∀ u : State, u.raised = s.raised → u.params = s.params → u.cpl = s.cpl → u.arrivals = s.arrivals →
      u.eflags = s.eflags → u.mem = s.mem → Completes s (u.freeStatus.advance 3) := fun u h1 h2 h3 h4 h5 h6 =>
    ⟨h1, h2, h3, h4, by
      have := u.freeStatus_kept
      unfold State.SystemFlagsKept at this ⊢
      rw [h5] at this
      exact this, .of_eq h6⟩
  cases i <;> simp only [exec] at h
  case movR32Cr0 | movR32Cr2 | movR32Cr3 | movR32Cr4 => exact .of_plain (moveFromCr_plain h)
  case movR32Cr1 | movR32Cr5 | movR32Cr6 | movR32Cr7 | movCr1R32 | movCr5R32 | movCr6R32 | movCr7R32 =>
    cases h; exact .inl ud
  case movCr0R32 md r =>
    unfold execMovCr0R32 at h
    simp only at h
    split_ifs at h with h1 h2 h3 <;> cases h
    · exact .inl gp
    · exact .inl gp
    · exact .inr (.inr (.inr ⟨written { s with cr0 := s.reg r } rfl rfl rfl rfl rfl rfl, .inr ⟨by simpa using h1,
        .inr (.inl ⟨md, r, rfl, rfl, by simpa using h2, changesReserved_false h3, rfl, rfl, rfl⟩)⟩⟩))
  case movCr2R32 md r =>
    unfold execMovCr2R32 at h
    split_ifs at h with h1 <;> cases h
    · exact .inl gp
    · exact .inr (.inr (.inr ⟨written { s with cr2 := s.reg r } rfl rfl rfl rfl rfl rfl, .inr ⟨by simpa using h1,
        .inr (.inr (.inl ⟨md, r, rfl, rfl, rfl, rfl, rfl⟩))⟩⟩))
  case movCr3R32 md r =>
    unfold execMovCr3R32 at h
    simp only at h
    split_ifs at h with h1 h2 <;> cases h
    · exact .inl gp
    · exact .inr (.inr (.inr ⟨written { s with cr3 := s.reg r } rfl rfl rfl rfl rfl rfl, .inr ⟨by simpa using h1,
        .inr (.inr (.inr (.inl ⟨md, r, rfl, rfl, changesReserved_false h2, rfl, rfl, rfl⟩)))⟩⟩))
  case movCr4R32 md r =>
    unfold execMovCr4R32 at h
    simp only at h
    split_ifs at h with h1 h2 h3 <;> cases h
    · exact .inl gp
    · exact .inr (.inr (.inr ⟨written { s with cr4 := s.reg r } rfl rfl rfl rfl rfl rfl, .inr ⟨by simpa using h1,
        .inr (.inr (.inr (.inr ⟨md, r, rfl, rfl, changesReserved_false h2, rfl, rfl, rfl⟩)))⟩⟩))
  case clts =>
    unfold execClts at h
    split_ifs at h with h1 <;> cases h
    · exact .inr (.inr (.inr ⟨done _ rfl rfl rfl rfl rfl rfl, .inr ⟨h1, .inl ⟨rfl, rfl, rfl, rfl, rfl⟩⟩⟩))
    · exact .inl gp
  case wait =>
    unfold execWait at h
    split_ifs at h <;> cases h
    · exact .inl nm
    · exact .reported (.inl rfl) (.advance s 1)
  case x87 op ext o =>
    unfold execX87 at h
    split_ifs at h <;> cases h
    · exact .inl nm
    · refine .reported (.inr ⟨op, ext, o, rfl⟩) ?_
      exact s.numeric_plain _ _ _ _
  case rdtsc =>
    unfold execRdtsc at h
    simp only at h
    split_ifs at h <;> cases h
    · exact .inl gp
    · exact .inr (.inr (.inr ⟨done _ rfl rfl rfl rfl rfl rfl, .inl ⟨rfl, rfl, rfl, rfl⟩⟩))
  case rdpmc =>
    unfold execRdpmc at h
    simp only at h
    split_ifs at h <;> cases h
    · exact .inl gp
    · exact .inr (.inr (.inr ⟨done _ rfl rfl rfl rfl rfl rfl, .inl ⟨rfl, rfl, rfl, rfl⟩⟩))
  case cpuid =>
    cases h
    exact .inr (.inr (.inr ⟨done _ rfl rfl rfl rfl rfl rfl, .inl ⟨rfl, rfl, rfl, rfl⟩⟩))
  case movR32Dr4 | movR32Dr5 => exact .of_plain (moveFromDr_plain h)
  case movDr4R32 =>
    unfold execMovDr4R32 at h
    split at h <;> cases h
    · next e he => exact .inl (State.drStop_raises he)
    · exact .inr (.inr (.inr ⟨done _ rfl rfl rfl rfl rfl rfl, .inl ⟨rfl, rfl, rfl, rfl⟩⟩))
  case movDr5R32 =>
    unfold execMovDr5R32 at h
    split at h <;> cases h
    · next e he => exact .inl (State.drStop_raises he)
    · exact .inr (.inr (.inr ⟨done _ rfl rfl rfl rfl rfl rfl, .inl ⟨rfl, rfl, rfl, rfl⟩⟩))
  case fxsave m =>
    unfold execFxsave at h
    split_ifs at h
    · cases h; exact .inl nm
    · split at h <;> cases h
      · next hs => exact (State.access_stop hs).elim .inl (.inr ∘ .inl)
      · next ps hs =>
        exact .inr (.inr (.inr ⟨⟨rfl, rfl, rfl, rfl, rfl,
          .of_store rfl (zip_fst_lt (State.access_ok hs).2)⟩, .inl ⟨rfl, rfl, rfl, rfl⟩⟩))
  case fxrstor m =>
    unfold execFxrstor at h
    split_ifs at h
    · cases h; exact .inl nm
    · split at h <;> cases h
      · next hs => exact (State.access_stop hs).elim .inl (.inr ∘ .inl)
      · exact .inr (.inr (.inr ⟨done _ rfl rfl rfl rfl rfl rfl, .inl ⟨rfl, rfl, rfl, rfl⟩⟩))
  case pause | prefetchnta | prefetcht0 | prefetcht1 | prefetcht2 | sfence | lfence | mfence =>
    cases h; exact .of_plain (.advance s _)
  case movnti m g =>
    unfold execMovnti at h
    split at h <;> cases h
    · next hs => exact (State.access_stop hs).elim .inl (.inr ∘ .inl)
    · next ps hs =>
      exact .inr (.inr (.inr ⟨⟨rfl, rfl, rfl, rfl, rfl,
        .of_store rfl (zip_fst_lt (State.access_ok hs).2)⟩, .inl ⟨rfl, rfl, rfl, rfl⟩⟩))
  case clflush m =>
    unfold execClflush at h
    split at h <;> cases h
    · next hs => exact (State.access_stop hs).elim .inl (.inr ∘ .inl)
    · exact .of_plain (.advance s _)

/-! ### The gated classes without a row (42_fpu_simd_gating.md R183, R184) -/

theorem execMmx_plain (m : Option MemOperand) (len : Nat) (e : NumericEffect) (s : State) :
    Plain (m.map fun m => ⟨m, numericKind e, e.boundary, numericWidth e⟩) s (execMmx m len e s) := by
  unfold execMmx
  split_ifs
  · exact .inl (.of (by simp))
  · exact .inl (.of (by simp))
  · exact .inl (.of (by simp))
  · exact s.numeric_plain _ _ _ _

/-- The gate of R184 lets an instruction of an extension through. -/
def State.SseGateOpen (s : State) (ext : Bool) : Prop :=
  s.osfxsr = true ∧ ext = true ∧ s.em = false ∧ s.ts = false

theorem execSse_cases (x u : Bool) (m : Option MemOperand) (len : Nat) (e : NumericEffect) (s : State) :
    Plain (m.map fun m => ⟨m, numericKind e, e.boundary, numericWidth e⟩) s (execSse x u m len e s) ∨
      (s.SseGateOpen x ∧ u = true ∧ execSse x u m len e s = s.raiseSimd) := by
  unfold execSse
  split_ifs with h1 h2 h3 h4 h5
  · exact .inl (.inl (.of (by simp)))
  · exact .inl (.inl (.of (by simp)))
  · exact .inl (.inl (.of (by simp)))
  · exact .inl (.inl (.of (by simp)))
  · split
    · next h => exact .inl ((State.numericAccess_stop h).elim .inl (.inr ∘ .inl))
    · exact .inr ⟨⟨by simpa using h1, by simpa using h2, by simpa using h3, by simpa using h4⟩, h5, rfl⟩
  · split
    · next h => exact .inl ((State.numericAccess_stop h).elim .inl (.inr ∘ .inl))
    · next h => exact .inl (.inr (.inr (State.numericCommit_completes _ _ _ (State.numericAccess_ok h))))

/-- An unmasked SIMD floating-point exception: raised past its gate by an SSE or SSE2 instruction that operates on floating-point
numbers (R185, 60_exceptions.md R234). -/
def RaisesSimd (c : ClassInfo) (bs : List Byte) (s t : State) : Prop :=
  t = s.raiseSimd ∧ operatesOnFloats bs = true ∧
    ((c.cls = .sse ∧ s.SseGateOpen s.params.cpuidSse) ∨ (c.cls = .sse2 ∧ s.SseGateOpen s.params.cpuidSse2))

/-- Everything an instruction of a class without a row can leave. -/
theorem execUnlisted_cases {c : ClassInfo} {bs : List Byte} {s t : State} (h : execUnlisted c bs s = .next t) :
    Plain (s.numericData c.operand bs) s t ∨ RaisesSimd c bs s t := by
  have float (hu : s.simdUnmasked bs = true) : operatesOnFloats bs = true := (Bool.and_eq_true_iff.mp hu).1
  unfold execUnlisted at h
  split at h <;> cases h
  · exact .inl (execMmx_plain _ _ _ s)
  · next hc =>
    exact (execSse_cases _ _ _ _ _ s).imp id fun ⟨hg, hu, ht⟩ => ⟨ht, float hu, .inl ⟨hc, hg⟩⟩
  · next hc =>
    exact (execSse_cases _ _ _ _ _ s).imp id fun ⟨hg, hu, ht⟩ => ⟨ht, float hu, .inr ⟨hc, hg⟩⟩

/-- A SIMD floating-point exception is recorded by OSXMMEXCPT (R185), and nothing else changes. -/
theorem State.raiseSimd_eq (s : State) :
    s.raiseSimd = { s with raised := some (if s.osxmmexcpt then .xf else .ud) } := rfl

/-- No instruction of the table raises #XF (60_exceptions.md R234). -/
theorem exec_not_xf {i : Instr} {s t : State} (h : exec i s = .next t) (hr : s.raised ≠ some .xf) :
    t.raised ≠ some .xf := by
  rcases exec_cases h with ⟨e, rfl, -, -, -, he, -⟩ | ⟨_, _, _, rfl, -⟩ | ⟨-, -, rfl | ⟨u, -, -, -, rfl⟩⟩ | ⟨h, -⟩
  · simpa using he
  · simp
  · simp
  · simp
  · rwa [h.1]

/-- Bytes of a class without a row raise #XF only as R234 says, and with OSXMMEXCPT set. -/
theorem execUnlisted_xf {c : ClassInfo} {bs : List Byte} {s t : State} (h : execUnlisted c bs s = .next t)
    (hr : s.raised ≠ some .xf) (hx : t.raised = some .xf) : RaisesSimd c bs s t ∧ s.osxmmexcpt = true := by
  rcases execUnlisted_cases h with (⟨e, rfl, -, -, -, he, -⟩ | ⟨_, _, _, rfl, -⟩ | ⟨h, -⟩) | h
  · exact absurd hx (by simpa using he)
  · simp at hx
  · exact absurd (h.1 ▸ hx) hr
  · refine ⟨h, ?_⟩
    rw [h.1, State.raiseSimd_eq] at hx
    cases ho : s.osxmmexcpt <;> simp [ho] at hx ⊢

/-! ### The fetch -/

/-- With paging off the bytes fetched are those of memory. -/
theorem State.fetchBytes_off {s : State} (h : s.pagingActive = false) (as : List Word) :
    s.fetchBytes as = (as.map fun a => s.readByte a.toNat, none) := by
  induction as with
  | nil => rfl
  | cons a as ih => simp [State.fetchBytes, State.translate_off h, ih]

/-- A fetch gives no more bytes than it asks for. -/
theorem State.fetchBytes_length_le (s : State) (as : List Word) : (s.fetchBytes as).1.length ≤ as.length := by
  induction as with
  | nil => simp [State.fetchBytes]
  | cons a as ih =>
    simp only [State.fetchBytes]
    split <;> simp [ih]

/-- A page fault among the bytes of the fetch is one the translation gives. -/
theorem State.fetchBytes_fault {s : State} {as : List Word} {pf : Word} (h : (s.fetchBytes as).2 = some pf) :
    ∃ a ∈ as, s.translate .fetch a = .error pf := by
  induction as with
  | nil => cases h
  | cons a as ih =>
    simp only [State.fetchBytes] at h
    split at h
    · next e he => cases h; exact ⟨a, by simp, he⟩
    · obtain ⟨c, hc, hp⟩ := ih h
      exact ⟨c, by simp [hc], hp⟩

/-- What is fetched of bytes that match no row: a whole instruction among them with its class, and no prefixed MMX form. -/
theorem fetchedOf_unlisted {bs is : List Byte} {o : Option Word} {c : ClassInfo} (h : fetchedOf bs o = .unlisted c is) :
    decode bs = .unlisted ∧ unlistedBytes bs = some is ∧ c = classify is ∧ prefixedMmx c is = false := by
  unfold fetchedOf fetchedUnlisted at h
  split at h
  · cases h
  · cases h
  · next hd =>
    split at h
    · next hw =>
      split_ifs at h with hp
      cases h
      exact ⟨hd, hw, rfl, by simpa using hp⟩
    · split at h <;> cases h
  · split at h <;> cases h

theorem fetchedOf_fault {bs : List Byte} {o : Option Word} {pf : Word} (h : fetchedOf bs o = .pageFault pf) :
    o = some pf := by
  unfold fetchedOf fetchedUnlisted at h
  split at h
  · cases h
  · cases h
  · split at h
    · split_ifs at h
    · split at h <;> cases h
      rfl
  · split at h <;> cases h
    rfl

theorem State.fetch_fault {s : State} {pf : Word} (h : s.fetch = .pageFault pf) :
    ∃ a ∈ linearBytes s.pc maxInstrBytes, s.translate .fetch a = .error pf :=
  State.fetchBytes_fault (fetchedOf_fault h)

/-- Everything running what was fetched can leave: what an instruction of the table leaves, what one of a class without a row
leaves, or a page fault of the fetch. -/
theorem runInstr_cases {s t : State} (h : runInstr s = .next t) :
    (∃ i, s.fetch = .instr i ∧ exec i s = .next t) ∨
    (∃ c bs, s.fetch = .unlisted c bs ∧ execUnlisted c bs s = .next t) ∨ PageFaults none s t := by
  unfold runInstr at h
  split at h
  · next i hi => exact .inl ⟨i, hi, h⟩
  · next c bs hc => exact .inr (.inl ⟨c, bs, hc, h⟩)
  · next pf hpf =>
    cases h
    obtain ⟨a, hm, ha⟩ := State.fetch_fault hpf
    exact .inr (.inr ⟨pf, .fetch, a, rfl, ha, .inl ⟨rfl, hm⟩⟩)
  · cases h

/-- The same without regard to which instruction it was, but for those of the table. -/
theorem runInstr_plain {s t : State} (h : runInstr s = .next t) :
    (∃ i, s.fetch = .instr i ∧ exec i s = .next t) ∨ (∃ op, Plain op s t) ∨ t = s.raiseSimd := by
  rcases runInstr_cases h with h | ⟨c, bs, -, h⟩ | h
  · exact .inl h
  · exact .inr ((execUnlisted_cases h).imp (fun h => ⟨_, h⟩) And.left)
  · exact .inr (.inl ⟨none, .inr (.inl h)⟩)

/-- Everything a step can be: a delivery, an instruction, or an arrival. -/
theorem step_cases {s t : State} (h : step s = .next t) :
    (∃ e, s.raised = some e ∧ t = s.deliver e) ∨
    (s.raised = none ∧ ∃ rest, (s.arrivals = none :: rest ∨ s.arrivals = [] ∧ rest = []) ∧
      runInstr { s with arrivals := rest } = .next t) ∨
    (s.raised = none ∧ ∃ rest, s.arrivals = some .taskSwitch :: rest ∧ t = ({ s with arrivals := rest } : State).taskSwitch) ∨
    (s.raised = none ∧ ∃ rest, s.arrivals = some .machineCheck :: rest ∧ s.mce = true ∧
      t = ({ s with arrivals := rest } : State).raise .mc) ∨
    (s.raised = none ∧ ∃ rest, s.arrivals = some .fpuError :: rest ∧ t = { s with arrivals := rest, fpuError := true }) ∨
    (s.raised = none ∧ ∃ rest b, s.arrivals = some (.ignne b) :: rest ∧ t = { s with arrivals := rest, ignne := b }) := by
  unfold step at h
  split at h
  · next e he => cases h; exact .inl ⟨e, he, rfl⟩
  · next hn =>
    split at h
    · next ha =>
      refine .inr (.inl ⟨hn, [], .inr ⟨ha, rfl⟩, ?_⟩)
      have : ({ s with arrivals := [] } : State) = s := by rw [← ha]
      rw [this]; exact h
    · next rest ha => exact .inr (.inl ⟨hn, rest, .inl ha, h⟩)
    · next e rest ha =>
      cases e <;> simp only [takeEvent] at h
      · cases h; exact .inr (.inr (.inl ⟨hn, rest, ha, rfl⟩))
      · split at h <;> cases h
        next hm => exact .inr (.inr (.inr (.inl ⟨hn, rest, ha, hm, rfl⟩)))
      · cases h; exact .inr (.inr (.inr (.inr (.inl ⟨hn, rest, ha, rfl⟩))))
      · next b => cases h; exact .inr (.inr (.inr (.inr (.inr ⟨hn, rest, b, ha, rfl⟩))))

/-- A step with a raised exception is its delivery. -/
theorem step_raised {s : State} {e : Exc} (h : s.raised = some e) : step s = .next (s.deliver e) := by
  unfold step
  split
  · next e' he => rw [h] at he; cases he; rfl
  · next he => rw [h] at he; cases he

/-- A step with nothing raised takes the arrivals. -/
theorem step_unraised {s : State} (h : s.raised = none) :
    step s = match s.arrivals with
      | [] => runInstr s
      | none :: rest => runInstr { s with arrivals := rest }
      | some e :: rest => takeEvent e { s with arrivals := rest } := by
  unfold step
  split
  · next e' he => rw [h] at he; cases he
  · rfl

/-- A step with nothing raised and no schedule of arrivals runs the instruction at `pc`. -/
theorem step_runs {s : State} (h : s.raised = none) (ha : s.arrivals = []) : step s = runInstr s := by
  rw [step_unraised h]
  split
  · rfl
  · next hb => rw [ha] at hb; cases hb
  · next hb => rw [ha] at hb; cases hb

/-- A step at which nothing arrives runs the instruction at `pc`. -/
theorem step_idle {s : State} {rest : List (Option Event)} (h : s.raised = none) (ha : s.arrivals = none :: rest) :
    step s = runInstr { s with arrivals := rest } := by
  rw [step_unraised h]
  split
  · next hb => rw [ha] at hb; cases hb
  · next hb => rw [ha] at hb; cases hb; rfl
  · next hb => rw [ha] at hb; cases hb

/-- A step at which something arrives takes it. -/
theorem step_arrival {s : State} {e : Event} {rest : List (Option Event)} (h : s.raised = none)
    (ha : s.arrivals = some e :: rest) : step s = takeEvent e { s with arrivals := rest } := by
  rw [step_unraised h]
  split
  · next hb => rw [ha] at hb; cases hb
  · next hb => rw [ha] at hb; cases hb
  · next hb => rw [ha] at hb; cases hb; rfl

/-- Running a fetched instruction of the table is `exec`. -/
theorem runInstr_instr {s : State} {i : Instr} (h : s.fetch = .instr i) : runInstr s = exec i s := by
  unfold runInstr
  rw [h]

/-- The fetch does not depend on what will arrive. -/
theorem State.fetchBytes_arrivals (s : State) (q : List (Option Event)) (as : List Word) :
    ({ s with arrivals := q } : State).fetchBytes as = s.fetchBytes as := by
  induction as with
  | nil => rfl
  | cons a as ih =>
    unfold State.fetchBytes
    rw [ih]
    rfl

theorem State.fetch_arrivals (s : State) (q : List (Option Event)) : ({ s with arrivals := q } : State).fetch = s.fetch := by
  unfold State.fetch
  rw [State.fetchBytes_arrivals]

end Sys2Proof.Machine
end

