-- ==== Sys2Proof/Laws/Image.lean ====
section
/-! SUPPORT. Little-endian numbers, and each register of a context read back from the FXSAVE image that holds it
(42_fpu_simd_gating.md R190, R191; log 10). -/

namespace Sys2Proof.Machine

/-! ### Little-endian numbers (20_memory.md R90) -/

@[simp] theorem leBytes_length (n v : Nat) : (leBytes n v).length = n := by
  induction n generalizing v with
  | zero => rfl
  | succ n ih => simp [leBytes, ih]

/-- Byte `k` of a number. -/
theorem leBytes_getElem (n v k : Nat) (h : k < n) :
    (leBytes n v)[k]'(by simpa using h) = BitVec.ofNat 8 (v / 256 ^ k) := by
  induction n generalizing v k with
  | zero => omega
  | succ n ih =>
    cases k with
    | zero => simp [leBytes]
    | succ k =>
      simp only [leBytes, List.getElem_cons_succ]
      rw [ih _ _ (by omega), Nat.div_div_eq_div_mul, ← pow_succ']

/-- Byte `k` of a bit vector's number is its bits `8k` and on. -/
theorem leBytes_extract {w n : Nat} (x : BitVec w) (k : Nat) (h : k < n) :
    (leBytes n x.toNat)[k]'(by simpa using h) = x.extractLsb' (8 * k) 8 := by
  rw [leBytes_getElem _ _ _ h]
  apply BitVec.eq_of_toNat_eq
  simp only [BitVec.toNat_ofNat, BitVec.extractLsb'_toNat, Nat.shiftRight_eq_div_pow]
  rw [show (256 : Nat) = 2 ^ 8 from rfl, ← pow_mul]

/-- The bytes of a number make it again. -/
theorem leNat_leBytes (n v : Nat) : leNat (leBytes n v) = v % 256 ^ n := by
  induction n generalizing v with
  | zero => simp [leBytes, leNat, Nat.mod_one]
  | succ n ih =>
    simp only [leBytes, leNat, ih, BitVec.toNat_ofNat]
    rw [pow_succ' 256 n, Nat.mod_mul, show (2 : Nat) ^ 8 = 256 from rfl]

@[simp] theorem openBytes_length (draw k n : Nat) : (openBytes draw k n).length = n := by
  simp [openBytes]

/-! ### Slices of an image -/

theorem imageNat_skip {a b : List Byte} {k n : Nat} (h : a.length ≤ k) :
    imageNat (a ++ b) k n = imageNat b (k - a.length) n := by
  unfold imageNat
  rw [List.drop_append, List.drop_eq_nil_of_le h, List.nil_append]

theorem imageNat_here (n v : Nat) (b : List Byte) : imageNat (leBytes n v ++ b) 0 n = v % 256 ^ n := by
  unfold imageNat
  rw [List.drop_zero, List.take_left' (leBytes_length n v), leNat_leBytes]

/-- A register at the head of what is left of an image. -/
theorem image_field {w n : Nat} (x : BitVec w) (b : List Byte) (h : 2 ^ w = 256 ^ n) :
    BitVec.ofNat w (imageNat (leBytes n x.toNat ++ b) 0 n) = x := by
  rw [imageNat_here, ← h]
  apply BitVec.eq_of_toNat_eq
  have := x.isLt
  simp [Nat.mod_eq_of_lt this]

@[simp] theorem fpuHeader_length (f : Fpu) (draw : Nat) : (fpuHeader f draw).length = 24 := by
  simp [fpuHeader]

@[simp] theorem fpuData_length (f : Fpu) (draw : Nat) : (fpuData f draw).length = 128 := by
  simp [fpuData, List.range_succ]

@[simp] theorem sseData_length (x : Sse) : (sseData x).length = 128 := by
  simp [sseData, List.range_succ]

/-- The image is 512 bytes long. -/
theorem State.fxImage_length (s : State) : s.fxImage.length = fxSize := by
  unfold State.fxImage
  cases s.osfxsr <;> simp [fxSize]

theorem fpuData_eq (f : Fpu) (draw : Nat) (g : Nat → List Byte)
    (hg : g = fun i => leBytes 10 (f.st.toList.getD i 0#80).toNat ++ openBytes draw (42 + 16 * i) 6) :
    fpuData f draw = g 0 ++ (g 1 ++ (g 2 ++ (g 3 ++ (g 4 ++ (g 5 ++ (g 6 ++ g 7)))))) := by
  subst hg
  simp [fpuData, List.range_succ]

theorem sseData_eq (x : Sse) (g : Nat → List Byte) (hg : g = fun i => leBytes 16 (x.xmm.toList.getD i 0#128).toNat) :
    sseData x = g 0 ++ (g 1 ++ (g 2 ++ (g 3 ++ (g 4 ++ (g 5 ++ (g 6 ++ g 7)))))) := by
  subst hg
  simp [sseData, List.range_succ]

end Sys2Proof.Machine
end

