-- ==== Sys2Proof/Laws/PerInstr.lean ====
section
/-! SUPPORT. The family EncodedLength: an instruction is encoded in as many bytes as `pc` advances by (10_state.md R71), between
1 and the longest of the table; one lemma per constructor. -/

namespace Sys2Proof.Laws.EncodedLength

/-- The encoder gives exactly the instruction's length, which `longestInstr` bounds. -/
def Statement (i : Instr) : Prop :=
  (encode i).length = i.length ∧ 1 ≤ i.length ∧ i.length ≤ longestInstr

theorem size_le (m : MemOperand) : m.size ≤ 5 := by
  unfold MemOperand.size
  rcases sibSize_le m with h | h <;> rcases dispSize_le m with h' | h' | h' <;> omega

theorem encodeM_length (op : Byte) (n : BitVec 3) (m : MemOperand) : (encodeM op n m).length = 3 + m.size := by
  simp [encodeM]
  omega

theorem of_memory {i : Instr} {op : Byte} {n : BitVec 3} {m : MemOperand} (h : encode i = encodeM op n m)
    (hl : i.length = 3 + m.size) : Statement i := by
  have := size_le m
  exact ⟨by rw [h, hl, encodeM_length], by omega, by unfold longestInstr; omega⟩

theorem movR32Cr0 (md : BitVec 2) (r : Reg) : Statement (.movR32Cr0 md r) :=
  ⟨rfl, by simp [Instr.length], by simp [Instr.length, longestInstr]⟩
theorem movR32Cr1 (md : BitVec 2) (r : Reg) : Statement (.movR32Cr1 md r) :=
  ⟨rfl, by simp [Instr.length], by simp [Instr.length, longestInstr]⟩
theorem movR32Cr2 (md : BitVec 2) (r : Reg) : Statement (.movR32Cr2 md r) :=
  ⟨rfl, by simp [Instr.length], by simp [Instr.length, longestInstr]⟩
theorem movR32Cr3 (md : BitVec 2) (r : Reg) : Statement (.movR32Cr3 md r) :=
  ⟨rfl, by simp [Instr.length], by simp [Instr.length, longestInstr]⟩
theorem movR32Cr4 (md : BitVec 2) (r : Reg) : Statement (.movR32Cr4 md r) :=
  ⟨rfl, by simp [Instr.length], by simp [Instr.length, longestInstr]⟩
theorem movR32Cr5 (md : BitVec 2) (r : Reg) : Statement (.movR32Cr5 md r) :=
  ⟨rfl, by simp [Instr.length], by simp [Instr.length, longestInstr]⟩
theorem movR32Cr6 (md : BitVec 2) (r : Reg) : Statement (.movR32Cr6 md r) :=
  ⟨rfl, by simp [Instr.length], by simp [Instr.length, longestInstr]⟩
theorem movR32Cr7 (md : BitVec 2) (r : Reg) : Statement (.movR32Cr7 md r) :=
  ⟨rfl, by simp [Instr.length], by simp [Instr.length, longestInstr]⟩
theorem movCr0R32 (md : BitVec 2) (r : Reg) : Statement (.movCr0R32 md r) :=
  ⟨rfl, by simp [Instr.length], by simp [Instr.length, longestInstr]⟩
theorem movCr1R32 (md : BitVec 2) (r : Reg) : Statement (.movCr1R32 md r) :=
  ⟨rfl, by simp [Instr.length], by simp [Instr.length, longestInstr]⟩
theorem movCr2R32 (md : BitVec 2) (r : Reg) : Statement (.movCr2R32 md r) :=
  ⟨rfl, by simp [Instr.length], by simp [Instr.length, longestInstr]⟩
theorem movCr3R32 (md : BitVec 2) (r : Reg) : Statement (.movCr3R32 md r) :=
  ⟨rfl, by simp [Instr.length], by simp [Instr.length, longestInstr]⟩
theorem movCr4R32 (md : BitVec 2) (r : Reg) : Statement (.movCr4R32 md r) :=
  ⟨rfl, by simp [Instr.length], by simp [Instr.length, longestInstr]⟩
theorem movCr5R32 (md : BitVec 2) (r : Reg) : Statement (.movCr5R32 md r) :=
  ⟨rfl, by simp [Instr.length], by simp [Instr.length, longestInstr]⟩
theorem movCr6R32 (md : BitVec 2) (r : Reg) : Statement (.movCr6R32 md r) :=
  ⟨rfl, by simp [Instr.length], by simp [Instr.length, longestInstr]⟩
theorem movCr7R32 (md : BitVec 2) (r : Reg) : Statement (.movCr7R32 md r) :=
  ⟨rfl, by simp [Instr.length], by simp [Instr.length, longestInstr]⟩
theorem clts : Statement .clts := ⟨rfl, by decide, by decide⟩
theorem wait : Statement .wait := ⟨rfl, by decide, by decide⟩
theorem x87 (op ext : BitVec 3) (o : RmOperand) : Statement (.x87 op ext o) := by
  cases o with
  | reg rm => exact ⟨rfl, by simp [Instr.length], by simp [Instr.length, longestInstr]⟩
  | mem m =>
    have := size_le m
    refine ⟨by simp [encode, Instr.length]; omega, ?_, ?_⟩ <;> simp only [Instr.length, longestInstr] <;> omega
theorem rdtsc : Statement .rdtsc := ⟨rfl, by decide, by decide⟩
theorem rdpmc : Statement .rdpmc := ⟨rfl, by decide, by decide⟩
theorem cpuid : Statement .cpuid := ⟨rfl, by decide, by decide⟩
theorem movR32Dr4 (md : BitVec 2) (r : Reg) : Statement (.movR32Dr4 md r) :=
  ⟨rfl, by simp [Instr.length], by simp [Instr.length, longestInstr]⟩
theorem movR32Dr5 (md : BitVec 2) (r : Reg) : Statement (.movR32Dr5 md r) :=
  ⟨rfl, by simp [Instr.length], by simp [Instr.length, longestInstr]⟩
theorem movDr4R32 (md : BitVec 2) (r : Reg) : Statement (.movDr4R32 md r) :=
  ⟨rfl, by simp [Instr.length], by simp [Instr.length, longestInstr]⟩
theorem movDr5R32 (md : BitVec 2) (r : Reg) : Statement (.movDr5R32 md r) :=
  ⟨rfl, by simp [Instr.length], by simp [Instr.length, longestInstr]⟩
theorem fxsave (m : MemOperand) : Statement (.fxsave m) := of_memory rfl rfl
theorem fxrstor (m : MemOperand) : Statement (.fxrstor m) := of_memory rfl rfl
theorem pause : Statement .pause := ⟨rfl, by decide, by decide⟩
theorem prefetchnta (m : MemOperand) : Statement (.prefetchnta m) := of_memory rfl rfl
theorem prefetcht0 (m : MemOperand) : Statement (.prefetcht0 m) := of_memory rfl rfl
theorem prefetcht1 (m : MemOperand) : Statement (.prefetcht1 m) := of_memory rfl rfl
theorem prefetcht2 (m : MemOperand) : Statement (.prefetcht2 m) := of_memory rfl rfl
theorem sfence : Statement .sfence := ⟨rfl, by decide, by decide⟩
theorem lfence : Statement .lfence := ⟨rfl, by decide, by decide⟩
theorem mfence : Statement .mfence := ⟨rfl, by decide, by decide⟩
theorem movnti (m : MemOperand) (g : Reg) : Statement (.movnti m g) := of_memory rfl rfl
theorem clflush (m : MemOperand) : Statement (.clflush m) := of_memory rfl rfl

end Sys2Proof.Laws.EncodedLength
end

