-- ==== Sys2Proof/Tests/Slice0.lean ====
section
/-! SUPPORT. Tests: ill-formed terms refused, words written out from spec/30_encoding.md, vectors of spec/95_test_vectors.md, and a
witness for the hypotheses of every obligation that has some. -/

namespace Sys2Proof.Tests

open Sys2Proof.Machine

/-! ### Small states and what is asked of an outcome -/

/-- A state with a given CR0 and everything else as after reset, `pc` = 1000h. -/
def withCr0 (v : Word) : State := { State.reset with cr0 := v, pc := 0x1000#32 }

/-- The same with EAX holding a value. -/
def withEax (cr0 eax : Word) : State := { withCr0 cr0 with regs := ⟨eax, 0#32, 0#32, 0#32, 0#32, 0#32, 0#32, 0#32⟩ }

/-- CPL 3 in protected mode, given CR0 and CR4. -/
def level3 (cr0 cr4 : Word) : State := { withCr0 cr0 with cr4 := cr4, cpl := 3#2 }

/-- Protected mode, and 4096 bytes at an address that the map gives to the platform. -/
def windowAt (base : Nat) : State :=
  { withCr0 0x11#32 with
    params := { Params.default with addressMap := [⟨base, 4096, .platform⟩, ⟨0, 2 ^ 36, .ram⟩] } }

/-- The outcome is a next state with a property. -/
def nextIs (o : Host.Outcome State Fault Refusal) (p : State → Bool) : Bool :=
  match o with
  | .next t => p t
  | _ => false

/-- The outcome is a next state that holds the record of an exception. -/
def raises (o : Host.Outcome State Fault Refusal) (e : Exc) : Bool := nextIs o fun t => t.raised == some e

/-- The outcome is a given fault. -/
def faults (o : Host.Outcome State Fault Refusal) (f : Fault) : Bool :=
  match o with
  | .fault g => g == f
  | _ => false

theorem exists_of_nextIs {o : Host.Outcome State Fault Refusal} {p : State → Bool} (h : nextIs o p = true) :
    ∃ t, o = .next t ∧ p t = true := by
  cases o with
  | next t => exact ⟨t, rfl, h⟩
  | fault f => cases h
  | refused r => cases h

/-- The default map has memory at every linear address. -/
theorem allRam {s : State} (a : Word) (h : s.params.addressMap = [⟨0, 2 ^ 36, .ram⟩]) : s.isRam a.toNat = true := by
  have := a.isLt
  unfold State.isRam ramAt
  rw [h, List.find?_cons_of_pos (by simp; omega)]
  rfl

/-! ### Ill-formed terms -/

/-- `mod` = 11b is no memory operand (30_encoding.md R111). -/
theorem test_illFormed_mod : ¬ (Instr.clflush ⟨3#2, 0#3, 0#8, 0#32⟩).WellFormed := by decide

/-- A SIB byte without `rm` = 4 (R110). -/
theorem test_illFormed_sib : ¬ (Instr.movnti ⟨0#2, 0#3, 1#8, 0#32⟩ .eax).WellFormed := by decide

/-- A displacement longer than the bytes its form has (R110). -/
theorem test_illFormed_disp : ¬ (Instr.fxsave ⟨1#2, 0#3, 0#8, 0x100#32⟩).WellFormed := by decide

theorem test_wellFormed_disp : (Instr.fxsave ⟨1#2, 0#3, 0#8, 0xFF#32⟩).WellFormed := by decide

/-! ### Words written out from 30_encoding.md -/

/-- R112: 0F 20, `mod` 11, `reg` the control register, `rm` the general register. -/
theorem test_decode_movFromCr :
    decode [0x0F#8, 0x20#8, 0b11000000#8] = .instr (.movR32Cr0 3#2 .eax) 3 ∧
    decode [0x0F#8, 0x20#8, 0b11001000#8] = .instr (.movR32Cr1 3#2 .eax) 3 ∧
    decode [0x0F#8, 0x20#8, 0b11010011#8] = .instr (.movR32Cr2 3#2 .ebx) 3 ∧
    decode [0x0F#8, 0x20#8, 0b11011000#8] = .instr (.movR32Cr3 3#2 .eax) 3 ∧
    decode [0x0F#8, 0x20#8, 0b11100001#8] = .instr (.movR32Cr4 3#2 .ecx) 3 ∧
    decode [0x0F#8, 0x20#8, 0b11101010#8] = .instr (.movR32Cr5 3#2 .edx) 3 ∧
    decode [0x0F#8, 0x20#8, 0b11110100#8] = .instr (.movR32Cr6 3#2 .esp) 3 ∧
    decode [0x0F#8, 0x20#8, 0b11111101#8] = .instr (.movR32Cr7 3#2 .ebp) 3 := by decide

/-- R113: 0F 22 likewise. -/
theorem test_decode_movToCr :
    decode [0x0F#8, 0x22#8, 0b11000011#8] = .instr (.movCr0R32 3#2 .ebx) 3 ∧
    decode [0x0F#8, 0x22#8, 0b11001000#8] = .instr (.movCr1R32 3#2 .eax) 3 ∧
    decode [0x0F#8, 0x22#8, 0b11010000#8] = .instr (.movCr2R32 3#2 .eax) 3 ∧
    decode [0x0F#8, 0x22#8, 0b11011110#8] = .instr (.movCr3R32 3#2 .esi) 3 ∧
    decode [0x0F#8, 0x22#8, 0b11100111#8] = .instr (.movCr4R32 3#2 .edi) 3 ∧
    decode [0x0F#8, 0x22#8, 0b11101000#8] = .instr (.movCr5R32 3#2 .eax) 3 ∧
    decode [0x0F#8, 0x22#8, 0b11110000#8] = .instr (.movCr6R32 3#2 .eax) 3 ∧
    decode [0x0F#8, 0x22#8, 0b11111000#8] = .instr (.movCr7R32 3#2 .eax) 3 := by decide

/-- R112, vector V1.12: `mod` is ignored. -/
theorem test_decode_mod_ignored : decode [0x0F#8, 0x20#8, 0b00000000#8] = .instr (.movR32Cr0 0#2 .eax) 3 := by decide

/-- R114, R115, R117: the rows without operands. -/
theorem test_decode_plain :
    decode [0x0F#8, 0x06#8] = .instr .clts 2 ∧ decode [0x9B#8] = .instr .wait 1 ∧
    decode [0x0F#8, 0x31#8] = .instr .rdtsc 2 ∧ decode [0x0F#8, 0x33#8] = .instr .rdpmc 2 ∧
    decode [0x0F#8, 0xA2#8] = .instr .cpuid 2 := by decide

/-- R116: first byte D8 to DF; a register form (FLD1) and memory forms with every operand shape. -/
theorem test_decode_x87 :
    decode [0xD9#8, 0b11101000#8] = .instr (.x87 1#3 5#3 (.reg 0#3)) 2 ∧
    decode [0xDF#8, 0b00111000#8] = .instr (.x87 7#3 7#3 (.mem ⟨0#2, 0#3, 0#8, 0#32⟩)) 2 ∧
    decode [0xD8#8, 0b01000101#8, 0xFC#8] = .instr (.x87 0#3 0#3 (.mem ⟨1#2, 5#3, 0#8, 0xFC#32⟩)) 3 ∧
    decode [0xDD#8, 0b10010100#8, 0x8B#8, 0x78#8, 0x56#8, 0x34#8, 0x12#8] =
      .instr (.x87 5#3 2#3 (.mem ⟨2#2, 4#3, 0x8B#8, 0x12345678#32⟩)) 7 := by decide

/-- R118: 0F 21 and 0F 23 with `reg` 4 and 5; other debug registers are refused (log 25). -/
theorem test_decode_debug :
    decode [0x0F#8, 0x21#8, 0b11100000#8] = .instr (.movR32Dr4 3#2 .eax) 3 ∧
    decode [0x0F#8, 0x21#8, 0b11101000#8] = .instr (.movR32Dr5 3#2 .eax) 3 ∧
    decode [0x0F#8, 0x23#8, 0b11100000#8] = .instr (.movDr4R32 3#2 .eax) 3 ∧
    decode [0x0F#8, 0x23#8, 0b11101000#8] = .instr (.movDr5R32 3#2 .eax) 3 ∧
    decode [0x0F#8, 0x21#8, 0b11110000#8] = .refused .otherDebugRegister := by decide

/-- R119, R120: the group 0F AE, the prefetch hints, MOVNTI and PAUSE. -/
theorem test_decode_exempt :
    decode [0x0F#8, 0xAE#8, 0b00000000#8] = .instr (.fxsave ⟨0#2, 0#3, 0#8, 0#32⟩) 3 ∧
    decode [0x0F#8, 0xAE#8, 0b00001011#8] = .instr (.fxrstor ⟨0#2, 3#3, 0#8, 0#32⟩) 3 ∧
    decode [0x0F#8, 0xAE#8, 0b00111000#8] = .instr (.clflush ⟨0#2, 0#3, 0#8, 0#32⟩) 3 ∧
    decode [0x0F#8, 0xAE#8, 0b11111000#8] = .instr .sfence 3 ∧
    decode [0x0F#8, 0xAE#8, 0b11101000#8] = .instr .lfence 3 ∧
    decode [0x0F#8, 0xAE#8, 0b11110000#8] = .instr .mfence 3 ∧
    decode [0x0F#8, 0x18#8, 0b00000001#8] = .instr (.prefetchnta ⟨0#2, 1#3, 0#8, 0#32⟩) 3 ∧
    decode [0x0F#8, 0x18#8, 0b00001001#8] = .instr (.prefetcht0 ⟨0#2, 1#3, 0#8, 0#32⟩) 3 ∧
    decode [0x0F#8, 0x18#8, 0b00010001#8] = .instr (.prefetcht1 ⟨0#2, 1#3, 0#8, 0#32⟩) 3 ∧
    decode [0x0F#8, 0x18#8, 0b00011001#8] = .instr (.prefetcht2 ⟨0#2, 1#3, 0#8, 0#32⟩) 3 ∧
    decode [0x0F#8, 0xC3#8, 0b00010110#8] = .instr (.movnti ⟨0#2, 6#3, 0#8, 0#32⟩ .edx) 3 ∧
    decode [0xF3#8, 0x90#8] = .instr .pause 2 := by decide

/-- R125, U20, U38: what is no row. -/
theorem test_decode_refused :
    decode [0x66#8, 0x0F#8, 0x06#8] = .refused .prefixedForm ∧
    decode [0x67#8, 0x66#8, 0xF3#8, 0x90#8] = .refused .prefixedForm ∧
    decode [0xF0#8, 0x0F#8, 0x77#8] = .refused .prefixedForm ∧
    decode [0x2E#8, 0x0F#8, 0x57#8, 0xC0#8] = .refused .prefixedForm ∧
    decode [0x66#8, 0x67#8, 0x0F#8, 0xEF#8, 0xC0#8] = .refused .prefixedForm ∧
    decode [0x66#8, 0x0F#8, 0xEF#8, 0xC0#8] = .unlisted ∧
    decode [0x0F#8, 0x01#8, 0b11110000#8] = .refused .machineStatusWord ∧
    decode [0x90#8] = .unlisted ∧ decode [0x0F#8] = .truncated := by decide

/-- 00_scope.md R4, 30_encoding.md R121: the three examples of the gated classes. -/
theorem test_classify :
    (classify [0x0F#8, 0x77#8]).cls = .mmx ∧ (classify [0x0F#8, 0x57#8, 0xC0#8]).cls = .sse ∧
    (classify [0x66#8, 0x0F#8, 0xEF#8, 0xC0#8]).cls = .sse2 := by decide

/-- 30_encoding.md R121: where those examples end, whatever stands after them, and not before. -/
theorem test_unlistedBytes :
    unlistedBytes [0x0F#8, 0x77#8, 0x0F#8, 0x06#8] = some [0x0F#8, 0x77#8] ∧
    unlistedBytes [0x66#8, 0x0F#8, 0xEF#8, 0xC0#8, 0x90#8] = some pxorBytes ∧ unlistedBytes [0x0F#8] = none ∧
    unlistedBytes [0x66#8, 0x0F#8, 0xEF#8] = none := by decide

/-- 60_exceptions.md R234: PXOR detects no SIMD floating-point exception; past its gate it completes (V5.6 with SSE2 present). -/
theorem test_pxor_completes :
    let s : State := { withCr0 0x13#32 with cr4 := 0x600#32 }
    s.simdUnmasked pxorBytes = false ∧
    nextIs (execUnlisted (classify pxorBytes) pxorBytes s) (fun t => t.raised == none && t.pc == 0x1004#32) = true := by decide

/-- opcode_table.json: CLTS is 0F06h = 3846, WAIT 9Bh, SFENCE 0FAEF8h; what a row gives no bits is 0. -/
theorem test_tableWord :
    decodeTableWord 16 3846 = some .clts ∧ decodeTableWord 8 0x9B = some .wait ∧
    decodeTableWord 24 0x0FAEF8 = some .sfence ∧ decodeTableWord 24 0x0F20C3 = some (.movR32Cr0 3#2 .ebx) ∧
    decodeTableWord 24 0x0F20FF = some (.movR32Cr7 3#2 .edi) ∧
    decodeTableWord 24 0x0FC305 = some (.movnti ⟨0#2, 5#3, 0#8, 0#32⟩ .eax) := by decide

/-! ### Vectors of 95_test_vectors.md -/

/-- V1.1, V1.8: reserved bits are returned as held. -/
theorem test_movR32Cr0 :
    nextIs (exec (.movR32Cr0 3#2 .eax) (withCr0 0x60000010#32)) (fun t =>
      t.reg .eax == 0x60000010#32 && t.pc == 0x1003#32) = true ∧
    nextIs (exec (.movR32Cr0 3#2 .eax) (withCr0 0x00000051#32)) (fun t => t.reg .eax == 0x00000051#32) = true := by decide

/-- V1.3, V1.4: CPL 3, and virtual-8086 mode. -/
theorem test_movR32Cr0_gp :
    raises (exec (.movR32Cr0 3#2 .eax) (level3 0x80050033#32 0#32)) (.gp 0#32) = true ∧
    raises (exec (.movR32Cr0 3#2 .eax) { level3 0x00000011#32 0#32 with eflags := 0x00020002#32 }) (.gp 0#32) = true := by decide

/-- V1.5 to V1.7. -/
theorem test_movR32Cr234 :
    nextIs (exec (.movR32Cr2 3#2 .ebx) { withCr0 0x11#32 with cr2 := 0x00401A2C#32 }) (fun t =>
      t.reg .ebx == 0x00401A2C#32) = true ∧
    nextIs (exec (.movR32Cr3 3#2 .eax) { withCr0 0x11#32 with cr3 := 0x00123018#32 }) (fun t =>
      t.reg .eax == 0x00123018#32 && t.pcd && t.pwt) = true ∧
    nextIs (exec (.movR32Cr4 3#2 .ecx) { withCr0 0x11#32 with cr4 := 0x00000600#32 }) (fun t =>
      t.reg .ecx == 0x00000600#32) = true := by decide

/-- V1.10: the register number is tested before the privilege. -/
theorem test_movR32Cr1_ud : raises (exec (.movR32Cr1 3#2 .eax) (level3 0x00000011#32 0#32)) .ud = true := by decide

/-- V2.1, V2.3: protected mode, and protected mode with paging. -/
theorem test_movCr0R32 :
    nextIs (exec (.movCr0R32 3#2 .eax) (withEax 0x60000010#32 0x60000011#32)) (fun t =>
      t.cr0 == 0x60000011#32 && t.pe && t.pc == 0x1003#32) = true ∧
    nextIs (exec (.movCr0R32 3#2 .eax) (withEax 0x60000010#32 0xE0000011#32)) (fun t =>
      t.cr0 == 0xE0000011#32 && t.pagingActive) = true := by decide

/-- V2.2, V2.4, V2.6, V2.9, V2.10, V2.13: forbidden values and changed reserved bits. -/
theorem test_movCr0R32_stops :
    raises (exec (.movCr0R32 3#2 .eax) (withEax 0x60000010#32 0xE0000010#32)) (.gp 0#32) = true ∧
    raises (exec (.movCr0R32 3#2 .eax) (withEax 0x80000011#32 0x80000010#32)) (.gp 0#32) = true ∧
    raises (exec (.movCr0R32 3#2 .eax) (withEax 0x60000011#32 0x20000011#32)) (.gp 0#32) = true ∧
    faults (exec (.movCr0R32 3#2 .eax) (withEax 0x00000011#32 0x00000051#32)) .reservedBitsChanged = true ∧
    faults (exec (.movCr0R32 3#2 .eax) (withEax 0x00000011#32 0x00000001#32)) .reservedBitsChanged = true ∧
    faults (exec (.movCr0R32 3#2 .eax) (withEax 0x00000051#32 0x00000019#32)) .reservedBitsChanged = true := by decide

/-- V3.2, V3.4, V3.6, V3.7. -/
theorem test_movCr2Cr3 :
    nextIs (exec (.movCr2R32 3#2 .eax) (withEax 0x11#32 0xFFFFFFFF#32)) (fun t => t.cr2 == 0xFFFFFFFF#32) = true ∧
    nextIs (exec (.movCr3R32 3#2 .eax) (withEax 0x11#32 0x00123018#32)) (fun t => t.cr3 == 0x00123018#32) = true ∧
    faults (exec (.movCr3R32 3#2 .eax) (withEax 0x11#32 0x00123001#32)) .reservedBitsChanged = true ∧
    faults (exec (.movCr3R32 3#2 .eax) (withEax 0x11#32 0x00123800#32)) .reservedBitsChanged = true := by decide

/-- V3.11, V3.12, V3.14, V3.15, V3.16, V3.18. -/
theorem test_movCr4R32 :
    nextIs (exec (.movCr4R32 3#2 .eax) (withEax 0x11#32 0x00000600#32)) (fun t => t.cr4 == 0x00000600#32) = true ∧
    faults (exec (.movCr4R32 3#2 .eax) (withEax 0x11#32 0x00000800#32)) .reservedBitsChanged = true ∧
    faults (exec (.movCr4R32 3#2 .eax) (withEax 0x11#32 0x00000080#32)) .pgeBeforePg = true ∧
    nextIs (exec (.movCr4R32 3#2 .eax) (withEax 0x80000011#32 0x00000080#32)) (fun t => t.cr4 == 0x00000080#32) = true ∧
    nextIs (exec (.movCr4R32 3#2 .eax) { withEax 0x11#32 0x00000084#32 with cr4 := 0x00000080#32 }) (fun t =>
      t.cr4 == 0x00000084#32) = true ∧
    nextIs (exec (.movCr4R32 3#2 .eax) (withEax 0x80000011#32 0x000007FF#32)) (fun t => t.cr4 == 0x000007FF#32) = true := by decide

/-- V4.1, V4.3, V4.7. -/
theorem test_clts :
    nextIs (exec .clts (withCr0 0x8005003B#32)) (fun t => t.cr0 == 0x80050033#32 && t.pc == 0x1002#32) = true ∧
    raises (exec .clts (level3 0x8005003B#32 0#32)) (.gp 0#32) = true ∧
    nextIs (exec .clts (withCr0 0x0000005B#32)) (fun t => t.cr0 == 0x00000053#32) = true := by decide

/-- V4.5: a task switch sets TS and keeps the contexts. -/
theorem test_taskSwitch :
    nextIs (step { withCr0 0x80050033#32 with arrivals := [some .taskSwitch] }) (fun t =>
      t.cr0 == 0x8005003B#32 && t.fpu == resetFpu && t.sse == resetSse) = true := by decide

/-- T1.1 to T1.8: the column of WAIT/FWAIT. -/
theorem test_wait_table :
    ([0x0#32, 0x8#32, 0x2#32, 0xA#32, 0x4#32, 0xC#32, 0x6#32, 0xE#32].map fun v => raises (exec .wait (withCr0 v)) .nm) =
      [false, false, false, true, false, false, false, true] := by decide

/-- T1.1 to T1.8: the column of floating point. -/
theorem test_x87_table :
    ([0x0#32, 0x8#32, 0x2#32, 0xA#32, 0x4#32, 0xC#32, 0x6#32, 0xE#32].map fun v =>
      raises (exec (.x87 1#3 5#3 (.reg 0#3)) (withCr0 v)) .nm) =
      [false, true, false, true, true, true, true, true] := by decide

/-- V5.2, V5.3: no FPU. -/
theorem test_x87_noFpu :
    faults (exec (.x87 1#3 5#3 (.reg 0#3)) { withCr0 0x11#32 with params := { Params.default with hasX87 := .none } })
      .noFpu = true ∧
    raises (exec (.x87 1#3 5#3 (.reg 0#3)) { withCr0 0x15#32 with params := { Params.default with hasX87 := .none } })
      .nm = true := by decide

/-- T2.1 to T2.4, V5.5: EMMS. -/
theorem test_mmx_table :
    ([0x2#32, 0xA#32, 0x6#32, 0xE#32].map fun v =>
      nextIs (execUnlisted ⟨.mmx, none⟩ [0x0F#8, 0x77#8] (withCr0 v)) (fun t => t.raised == none)) =
      [true, false, false, false] ∧
    ([0xA#32, 0x6#32, 0xE#32].map fun v =>
      nextIs (execUnlisted ⟨.mmx, none⟩ [0x0F#8, 0x77#8] (withCr0 v)) (fun t => t.raised == some .nm)) =
      [true, false, false] ∧
    raises (execUnlisted ⟨.mmx, none⟩ [0x0F#8, 0x77#8]
      { withCr0 0x13#32 with params := { Params.default with cpuidMmx := false } }) .ud = true := by decide

/-- T3.1, T3.3, T3.6, V5.6: XORPS and PXOR. -/
theorem test_sse_table :
    raises (execUnlisted ⟨.sse, none⟩ [] (withCr0 0x12#32)) .ud = true ∧
    raises (execUnlisted ⟨.sse, none⟩ [] { withCr0 0x1E#32 with cr4 := 0x200#32 }) .ud = true ∧
    raises (execUnlisted ⟨.sse, none⟩ [] { withCr0 0x1A#32 with cr4 := 0x200#32 }) .nm = true ∧
    raises (execUnlisted ⟨.sse2, none⟩ []
      { withCr0 0x13#32 with cr4 := 0x200#32, params := { Params.default with cpuidSse2 := false } }) .ud = true := by decide

/-- V5.9, V5.10: R185 by OSXMMEXCPT. -/
theorem test_sse_unmasked :
    (State.raiseSimd { withCr0 0x13#32 with cr4 := 0x200#32 }).raised = some .ud ∧
    (State.raiseSimd { withCr0 0x13#32 with cr4 := 0x600#32 }).raised = some .xf := by decide

/-- V5.8: the exempt instructions with TS, EM and MP set and OSFXSR clear. -/
theorem test_exempt_ungated :
    ([Instr.sfence, .pause, .lfence, .mfence, .clflush ⟨0#2, 0#3, 0#8, 0#32⟩, .movnti ⟨0#2, 0#3, 0#8, 0#32⟩ .edx,
      .prefetchnta ⟨0#2, 0#3, 0#8, 0#32⟩, .prefetcht0 ⟨0#2, 0#3, 0#8, 0#32⟩, .prefetcht1 ⟨0#2, 0#3, 0#8, 0#32⟩,
      .prefetcht2 ⟨0#2, 0#3, 0#8, 0#32⟩].map fun i =>
        nextIs (exec i (withCr0 0x1F#32)) (fun t => t.raised == none)) = List.replicate 10 true := by decide

/-- MOVNTI [EAX], EDX: the least significant byte first (20_memory.md R90). -/
theorem test_movnti_bytes :
    nextIs (exec (.movnti ⟨0#2, 0#3, 0#8, 0#32⟩ .edx)
      { withCr0 0x11#32 with regs := ⟨0x2000#32, 0#32, 0x11223344#32, 0#32, 0#32, 0#32, 0#32, 0#32⟩ })
      (fun t => t.mem == [(0x2000, 0x44#8), (0x2001, 0x33#8), (0x2002, 0x22#8), (0x2003, 0x11#8)]) = true := by decide

/-- Base, scaled index and a negative displacement: [EBX + 4*ECX - 4] (log 8). -/
theorem test_effAddr :
    State.effAddr { State.reset with regs := ⟨0#32, 3#32, 0#32, 0x1000#32, 0#32, 0#32, 0#32, 0#32⟩ }
      ⟨1#2, 4#3, 0b10001011#8, 0xFC#32⟩ = 0x1008#32 := by decide

/-- V5.14: FXSAVE with TS set, `fx_gate` true and false. -/
theorem test_fxsave_gate :
    raises (exec (.fxsave ⟨0#2, 0#3, 0#8, 0#32⟩) { withCr0 0x1B#32 with cr4 := 0x200#32 }) .nm = true ∧
    State.fxGated { withCr0 0x1B#32 with params := { Params.default with fxGate := false } } = false := by decide

/-- R191: memory of zeros restores zeros; XMM and MXCSR keep their values with OSFXSR clear. -/
theorem test_fxrstor_osfxsr :
    nextIs (exec (.fxrstor ⟨0#2, 0#3, 0#8, 0#32⟩) (withCr0 0x13#32)) (fun t =>
      t.fpu.control == 0#16 && t.sse == resetSse) = true := by decide

/-- V6.1 to V6.5. -/
theorem test_rdtsc :
    raises (exec .rdtsc (level3 0x11#32 0x4#32)) (.gp 0#32) = true ∧
    raises (exec .rdtsc { level3 0x11#32 0x4#32 with cpl := 1#2 }) (.gp 0#32) = true ∧
    ([level3 0x11#32 0#32, { withCr0 0x11#32 with cr4 := 0x4#32 }, { withCr0 0x10#32 with cr4 := 0x4#32 }].map fun s =>
      nextIs (exec .rdtsc s) (fun t => t.raised == none && t.pc == 0x1002#32)) = [true, true, true] := by decide

/-- 00_scope.md R5: on a processor without TSD its bit, whatever it holds, shuts no level out of RDTSC. -/
theorem test_absent_tsd :
    nextIs (exec .rdtsc { level3 0x11#32 0x4#32 with params := { Params.default with cr4Present := 0x7FB#11 } })
      (fun t => t.raised == none) = true := by decide

/-- 20_memory.md R83, R89: a store of a transfer is cut to 32 bits with PAE clear; where the map has no memory none is kept. -/
theorem test_transfer_stores :
    (State.transfer (withCr0 0x11#32)
      ⟨(withCr0 0x11#32).regs, 0#32, 2#32, 0#2, [(0x100002000#36, 5#8)], false⟩).mem = [(0x2000, 5#8)] ∧
    (State.transfer (windowAt 0x2000)
      ⟨(withCr0 0x11#32).regs, 0#32, 2#32, 0#2, [(0x2000#36, 5#8)], false⟩).mem = [] := by decide

/-- 43_cr4_gated.md R214, 93 G5: one bit of two parameters that agree, and of two that do not. -/
theorem test_cpuid_features :
    features Params.default = 0x078020DE#32 ∧
    (features { Params.default with cr4Present := 0x7FD#11 }).getLsbD 1 = true ∧
    (features { Params.default with cr4Present := 0x0FF#11 }).getLsbD 25 = true := by decide

/-- V6.6 to V6.8. -/
theorem test_rdpmc :
    raises (exec .rdpmc (level3 0x11#32 0#32)) (.gp 0#32) = true ∧
    ([level3 0x11#32 0x100#32, withCr0 0x11#32].map fun s =>
      nextIs (exec .rdpmc s) (fun t => t.raised == none && t.pc == 0x1002#32)) = [true, true] := by decide

/-- V6.9, V6.10. -/
theorem test_debug :
    ([Instr.movR32Dr4 3#2 .eax, .movR32Dr5 3#2 .eax, .movDr4R32 3#2 .eax, .movDr5R32 3#2 .eax].map fun i =>
      raises (exec i { withCr0 0x11#32 with cr4 := 0x8#32 }) .ud) = [true, true, true, true] ∧
    ([Instr.movR32Dr4 3#2 .eax, .movR32Dr5 3#2 .eax, .movDr4R32 3#2 .eax, .movDr5R32 3#2 .eax].map fun i =>
      nextIs (exec i (withCr0 0x11#32)) (fun t => t.raised == none && t.pc == 0x1003#32)) =
      [true, true, true, true] := by decide

/-- V8.1 to V8.4: the condition of the alignment check. -/
theorem test_alignmentCheck :
    State.alignmentCheckActive { level3 0x40011#32 0#32 with eflags := 0x00040002#32 } = true ∧
    State.alignmentCheckActive { withCr0 0x40011#32 with eflags := 0x00040002#32 } = false ∧
    State.alignmentCheckActive { level3 0x11#32 0#32 with eflags := 0x00040002#32 } = false ∧
    State.alignmentCheckActive { level3 0x40010#32 0#32 with eflags := 0x00040002#32 } = false := by decide

/-- V8.7 to V8.9: the reserved masks. -/
theorem test_reservedMasks :
    rsvd4 Params.default = 0xFFFFF800#32 ∧ rsvd4 { Params.default with cr4Present := 0x00F#11 } = 0xFFFFFFF0#32 ∧
    rsvd0 Params.default = 0x1FFAFFD0#32 ∧ rsvd0 { Params.default with proc := .intel486 } = 0x1FFAFFC0#32 := by decide

/-- T4.1, T4.2: the recommended settings. -/
theorem test_recommended :
    State.RecommendedFpuFlags (withCr0 0x12#32) ∧ ¬ State.RecommendedFpuFlags (withCr0 0x14#32) ∧
    State.RecommendedFpuFlags { withCr0 0x34#32 with params := { Params.default with hasX87 := .none } } := by
  unfold State.RecommendedFpuFlags
  decide

/-- Memory keeps one form: a byte written as an unlisted address reads is no entry (log 5). -/
theorem test_memory_canonical :
    Memory.write (Memory.write (Memory.write [] 5 1#8) 3 2#8) 5 0#8 = [(3, 2#8)] := by decide

/-- A program comes to run (log 29): CLTS placed at the reset vector runs as the first instruction. -/
theorem test_withFetchWord :
    nextIs (step ((withCr0 0x80#32).withFetchWord 16 3846)) (fun t => t.pc == 0x1002#32 && t.raised == none) = true ∧
    nextIs (step (State.reset.withFetchWord 24 0x0F20C3)) (fun t =>
      t.reg .ebx == 0x60000010#32 && t.pc == 0xFFFFFFF3#32) = true := by decide

/-! ### Witnesses: states and operands that meet the hypotheses of each obligation -/

/-- CLTS at `pc` of a state. -/
def cltsAt (s : State) : State := s.withFetchWord 16 3846

/-- A word of three bytes at `pc` of a state with a given CR0 and EAX. -/
def codeAt (cr0 eax : Word) (w : Nat) : State := (withEax cr0 eax).withFetchWord 24 w

/-- The four conditions of the alignment check, EAX odd, and MOVNTI [EAX], EDX at `pc`. -/
def unaligned : State :=
  ({ withEax 0x00040011#32 0x2001#32 with cpl := 3#2, eflags := 0x00040002#32 } : State).withFetchWord 24 0x0FC310

theorem witness_DecodeOfEncode :
    (Instr.movnti ⟨2#2, 4#3, 0xFF#8, 0xFFFFFFFF#32⟩ .edi).WellFormed ∧ (Instr.clflush ⟨1#2, 5#3, 0#8, 0xFF#32⟩).WellFormed ∧
    (Instr.x87 7#3 7#3 (.mem ⟨0#2, 5#3, 0#8, 0#32⟩)).WellFormed := by decide

theorem witness_EncodeOfDecode :
    decode [0x0F#8, 0xC3#8, 0x44#8, 0x8B#8, 0xFC#8, 0x90#8] =
      .instr (.movnti ⟨1#2, 4#3, 0x8B#8, 0xFC#32⟩ .eax) 5 := by decide

theorem witness_ExcludedFormsRefused :
    [0xF3#8, 0x66#8] ≠ ([] : List Byte) ∧ isPrefixByte 0x66#8 = true ∧ isPrefixByte 0xF0#8 = true ∧
    0xF0#8 ∉ [0x66#8, 0xF2#8, (0xF3#8 : Byte)] ∧ isPrefixByte 0xF3#8 = true ∧ isPrefixByte 0x65#8 = true ∧ Instr.clts.WellFormed ∧
    (Instr.fxsave ⟨0#2, 0#3, 0#8, 0#32⟩).WellFormed ∧
    regField 0xC0#8 ∉ [4#3, 5#3] ∧ regField 0xF8#8 ∉ [4#3, 5#3] ∧ regField 0xF0#8 ∈ [4#3, (6#3 : BitVec 3)] ∧
    regField 0x20#8 ∈ [4#3, (6#3 : BitVec 3)] := by decide

/-- An instruction of the table, bytes of a class, a refused form; nothing scheduled, and an idle arrival. -/
theorem witness_StepRunsDecoded :
    (let s := cltsAt (withCr0 0x18#32)
     s.raised = none ∧ s.arrivals = [] ∧ s.pagingActive = false ∧
     decode (s.fetchBytes (linearBytes s.pc maxInstrBytes)).1 = .instr .clts 2 ∧
     (s.translateList .fetch (linearBytes s.pc 2)).toOption.isSome = true) ∧
    (let s : State := { cltsAt (withCr0 0x18#32) with arrivals := [none] }
     s.arrivals = none :: [] ∧ decode (s.fetchBytes (linearBytes s.pc maxInstrBytes)).1 = .instr .clts 2) ∧
    (let s := (withCr0 0x18#32).placeCode [0x0F#8, 0x77#8]
     let bs := (s.fetchBytes (linearBytes s.pc maxInstrBytes)).1
     s.raised = none ∧ s.arrivals = [] ∧ decode bs = .unlisted ∧ unlistedBytes bs = some [0x0F#8, 0x77#8] ∧
     prefixedMmx (classify [0x0F#8, 0x77#8]) [0x0F#8, 0x77#8] = false) ∧
    (let s := (withCr0 0x18#32).placeCode [0x0F#8, 0x21#8, 0xC0#8]
     s.raised = none ∧ s.arrivals = [] ∧
     decode (s.fetchBytes (linearBytes s.pc maxInstrBytes)).1 = .refused .otherDebugRegister) := by decide

theorem witness_PlacedWordRuns :
    State.reset.pagingActive = false ∧ (64 : Nat) ≤ 64 ∧
    (∀ a ∈ linearBytes State.reset.pc longestInstr, State.reset.isRam a.toNat = true) ∧ decodeTableWord 24 0x0FAEF8 = some .sfence ∧
    decodeTableWord 64 0x0FC3849811223344 = some (.movnti ⟨2#2, 4#3, 0x98#8, 0x44332211#32⟩ .eax) :=
  ⟨by decide, le_refl _, fun a _ => allRam a rfl, by decide, by decide⟩

theorem witness_DeliveryKeepsControlRegisters : (State.reset.raise .nm).raised = some .nm := rfl

theorem witness_FetchPageFault : (withCr0 0x80000011#32).raised = none ∧ (withCr0 0x80000011#32).arrivals = [] ∧
    (withCr0 0x80000011#32).pagingActive = true := by decide

theorem witness_InvAtReset : ResetSound Params.default ∧ ResetSound { Params.default with resetCr0 := 0x80000011#32 } := by
  unfold ResetSound
  decide

theorem witness_StepKeepsInv :
    (cltsAt (withCr0 0x18#32)).Inv ∧ ∃ t, step (cltsAt (withCr0 0x18#32)) = .next t := by
  refine ⟨by unfold State.Inv; decide, ?_⟩
  obtain ⟨t, ht, -⟩ := exists_of_nextIs (o := step (cltsAt (withCr0 0x18#32))) (p := fun _ => true) (by decide)
  exact ⟨t, ht⟩

theorem witness_ReservedBitsConstant :
    (codeAt 0x51#32 0x59#32 0x0F22C0).Inv ∧ ∃ t, step (codeAt 0x51#32 0x59#32 0x0F22C0) = .next t := by
  refine ⟨by unfold State.Inv; decide, ?_⟩
  obtain ⟨t, ht, -⟩ := exists_of_nextIs (o := step (codeAt 0x51#32 0x59#32 0x0F22C0)) (p := fun _ => true) (by decide)
  exact ⟨t, ht⟩

/-- One writer of each control register; CLTS and a MOV for CR0. -/
theorem witness_ControlRegisterWriters :
    (∃ t, step (cltsAt (withCr0 0x18#32)) = .next t ∧ decide (t.cr0 ≠ 0x18#32) = true) ∧
    (∃ t, step (codeAt 0x11#32 0x13#32 0x0F22C0) = .next t ∧ decide (t.cr0 ≠ 0x11#32) = true) ∧
    (∃ t, step (codeAt 0x11#32 1#32 0x0F22D0) = .next t ∧ decide (t.cr2 ≠ 0#32) = true) ∧
    (∃ t, step (codeAt 0x11#32 0x1000#32 0x0F22D8) = .next t ∧ decide (t.cr3 ≠ 0#32) = true) ∧
    (∃ t, step (codeAt 0x11#32 0x600#32 0x0F22E0) = .next t ∧ decide (t.cr4 ≠ 0#32) = true) ∧
    (∃ t, step { withCr0 0x10#32 with arrivals := [some .taskSwitch] } = .next t ∧ decide (t.cr0 ≠ 0x10#32) = true) :=
  ⟨exists_of_nextIs (by decide), exists_of_nextIs (by decide), exists_of_nextIs (by decide), exists_of_nextIs (by decide),
    exists_of_nextIs (by decide), exists_of_nextIs (by decide)⟩

theorem witness_ExceptionsArePrecise :
    (withCr0 0x19#32).raised = none ∧ Exc.nm ≠ .fpuInterrupt ∧ Exc.nm ≠ .pf ∧ Exc.nm ≠ .mf ∧
    (∃ t, State.Executes (withCr0 0x19#32) t ∧ t.raised = some .nm) ∧
    ∃ t, State.Executes (withCr0 0x14#32) t ∧ t.raised = some .ud :=
  ⟨rfl, by decide, by decide, by decide,
    ⟨_, .inl ⟨.x87 1#3 5#3 (.reg 0#3), rfl⟩, rfl⟩, ⟨_, .inr ⟨⟨.mmx, none⟩, [0x0F#8, 0x77#8], rfl⟩, rfl⟩⟩

theorem witness_ExecKeepsPrivilege :
    (∃ t, State.Executes (withEax 0x10#32 0x11#32) t) ∧ ∃ t, execUnlisted ⟨.mmx, none⟩ [] (withCr0 0x10#32) = .next t :=
  ⟨⟨_, .inl ⟨.movCr0R32 3#2 .eax, rfl⟩⟩, _, rfl⟩

theorem witness_UnprivilegedCannotWrite :
    (level3 0x11#32 0#32).privOk = false ∧ (level3 0x11#32 0#32).raised = none ∧
    (∃ t, exec (.movCr4R32 3#2 .eax) (level3 0x11#32 0#32) = .next t) ∧ ∃ t, State.Executes (level3 0x11#32 0#32) t :=
  ⟨by decide, rfl, ⟨_, rfl⟩, _, .inr ⟨⟨.mmx, none⟩, [], rfl⟩⟩

/-- Real-address mode and level 0 of protected mode; a processor with ET hardwired and one without. -/
theorem witness_MovFromCrResult :
    (withCr0 0x10#32).privOk = true ∧ (withCr0 0x11#32).privOk = true ∧ etHardwired Params.default = true ∧
    etHardwired { Params.default with proc := .intel386 } = false ∧
    ({ withCr0 0x10#32 with params := { Params.default with proc := .intel386 } } : State).privOk = true := by decide

/-- Level 1 of protected mode, and virtual-8086 mode. -/
theorem witness_PrivilegeViolation :
    ({ withCr0 0x11#32 with cpl := 1#2 } : State).privOk = false ∧
    ({ withCr0 0x11#32 with eflags := 0x00020002#32 } : State).privOk = false ∧
    (withCr0 0x11#32).mode = .protectedMode ∧ (withCr0 0x10#32).mode = .realMode := by decide

theorem witness_MovToCr0Result :
    (withEax 0x60000010#32 0xE0000011#32).privOk = true ∧
    ¬ ((0xE0000011#32 : Word).getLsbD 31 = true ∧ (0xE0000011#32 : Word).getLsbD 0 = false) ∧
    ¬ ((0xE0000011#32 : Word).getLsbD 30 = false ∧ (0xE0000011#32 : Word).getLsbD 29 = true) ∧
    (withEax 0x60000010#32 0xE0000011#32).reg .eax &&& rsvd0 Params.default =
      (withEax 0x60000010#32 0xE0000011#32).readCr0 &&& rsvd0 Params.default := by decide

/-- Both forbidden values. -/
theorem witness_MovToCr0ForbiddenValue :
    ((0x80000010#32 : Word).getLsbD 31 = true ∧ (0x80000010#32 : Word).getLsbD 0 = false) ∧
    ((0x20000011#32 : Word).getLsbD 30 = false ∧ (0x20000011#32 : Word).getLsbD 29 = true) := by decide

theorem witness_MovToCr2Result : (withEax 0x11#32 0xFFFFFFFF#32).privOk = true := by decide

/-- PAE clear and set; only base bits and PCD, PWT written. -/
theorem witness_MovToCr3Result :
    (withEax 0x11#32 0xFFFFF018#32).privOk = true ∧ (withEax 0x11#32 0xFFFFF018#32).pae = false ∧
    (withEax 0x11#32 0xFFFFF018#32).reg .eax &&& (withEax 0x11#32 0#32).rsvd3 = 0#32 &&& (withEax 0x11#32 0#32).rsvd3 ∧
    (let s := { withEax 0x11#32 0x00000020#32 with cr4 := 0x20#32 }
     s.privOk = true ∧ s.pae = true ∧ s.reg .eax &&& s.rsvd3 = s.cr3 &&& s.rsvd3) := by decide

/-- Without PGE, and with PGE while paging is enabled or PGE already set. -/
theorem witness_MovToCr4Result :
    (withEax 0x11#32 0x77F#32).privOk = true ∧ (0x77F#32 : Word).getLsbD 7 = false ∧
    0x77F#32 &&& rsvd4 Params.default = 0#32 &&& rsvd4 Params.default ∧
    0x7FF#32 &&& rsvd4 Params.default = 0#32 &&& rsvd4 Params.default ∧
    cr4Flag Params.default 0x77F#32 7 = false ∧ cr4Flag Params.default 0x7FF#32 7 = true ∧
    (withEax 0x80000011#32 0x7FF#32).pg = true ∧ ({ withEax 0x11#32 0x84#32 with cr4 := 0x80#32 } : State).pge = true := by decide

/-- One state for each of the four stops. -/
theorem witness_SoftwareDutyFaults :
    (withEax 0x11#32 0x51#32).privOk = true ∧ cr0ValueForbidden 0x51#32 = false ∧
    (0x51#32 &&& rsvd0 Params.default ≠ (withEax 0x11#32 0x51#32).readCr0 &&& rsvd0 Params.default) ∧
    (0x00000800#32 &&& (withEax 0x11#32 0#32).rsvd3 ≠ 0#32 &&& (withEax 0x11#32 0#32).rsvd3) ∧
    (0x00000800#32 &&& rsvd4 Params.default ≠ 0#32 &&& rsvd4 Params.default) ∧
    (0x00000080#32 &&& rsvd4 Params.default = 0#32 &&& rsvd4 Params.default) ∧
    cr4Flag Params.default 0x00000080#32 7 = true ∧ (withEax 0x11#32 0x80#32).pge = false ∧
    (withEax 0x11#32 0x80#32).pg = false := by decide

/-- A write and the read after it, for each control register. -/
theorem witness_WriteThenReadCr :
    let s := withEax 0x11#32 0x13#32
    let z := withEax 0x11#32 0x18#32
    (∃ t u, exec (.movCr0R32 3#2 .eax) s = .next t ∧ exec (.movR32Cr0 3#2 .ebx) t = .next u ∧ t.raised = none ∧
      u.raised = none) ∧
    (∃ t u, exec (.movCr2R32 3#2 .eax) s = .next t ∧ exec (.movR32Cr2 3#2 .ebx) t = .next u ∧ t.raised = none ∧
      u.raised = none) ∧
    (∃ t u, exec (.movCr3R32 3#2 .eax) z = .next t ∧ exec (.movR32Cr3 3#2 .ebx) t = .next u ∧ t.raised = none ∧
      u.raised = none) ∧
    (∃ t u, exec (.movCr4R32 3#2 .eax) z = .next t ∧ exec (.movR32Cr4 3#2 .ebx) t = .next u ∧ t.raised = none ∧
      u.raised = none) := by
  have next : ∀ (r : Reg) (v : Word) (t : State), t.raised = none → t.privOk = true →
      ∃ u, moveFromCr r v t = .next u ∧ u.raised = none := fun r v t hr hp =>
    ⟨((t.setReg r v).freeStatus).advance 3, by rw [moveFromCr, if_pos hp], hr⟩
  have level : ∀ t : State, t.cpl = 0#2 → vmOf t.eflags = false → t.privOk = true := fun t h h' => by
    unfold State.privOk State.mode State.vm
    rw [h, h']
    cases t.pe <;> rfl
  have kept : ∀ s : State, vmOf s.freeStatus.eflags = vmOf s.eflags := fun s => vmOf_of_kept s.freeStatus_kept
  refine ⟨?_, ?_, ?_, ?_⟩
  · obtain ⟨u, hu, hr⟩ := next .ebx _ (({ withEax 0x11#32 0x13#32 with cr0 := 0x13#32 } : State).freeStatus.advance 3) rfl
      (level _ rfl (kept _))
    exact ⟨_, u, rfl, hu, rfl, hr⟩
  · obtain ⟨u, hu, hr⟩ := next .ebx _ (({ withEax 0x11#32 0x13#32 with cr2 := 0x13#32 } : State).freeStatus.advance 3) rfl
      (level _ rfl (kept _))
    exact ⟨_, u, rfl, hu, rfl, hr⟩
  · obtain ⟨u, hu, hr⟩ := next .ebx _ (({ withEax 0x11#32 0x18#32 with cr3 := 0x18#32 } : State).freeStatus.advance 3) rfl
      (level _ rfl (kept _))
    exact ⟨_, u, rfl, hu, rfl, hr⟩
  · obtain ⟨u, hu, hr⟩ := next .ebx _ (({ withEax 0x11#32 0x18#32 with cr4 := 0x18#32 } : State).freeStatus.advance 3) rfl
      (level _ rfl (kept _))
    exact ⟨_, u, rfl, hu, rfl, hr⟩

/-- PE set and PE cleared. -/
theorem witness_ModeFollowsPe :
    (∃ t, exec (.movCr0R32 3#2 .eax) (withEax 0x10#32 0x11#32) = .next t ∧ decide (t.raised = none) = true) ∧
    (∃ t, exec (.movCr0R32 3#2 .eax) (withEax 0x11#32 0x10#32) = .next t ∧ decide (t.raised = none) = true) :=
  ⟨exists_of_nextIs (by decide), exists_of_nextIs (by decide)⟩

theorem witness_CltsResult : (withCr0 0x18#32).privOk = true ∧ (withCr0 0x8005003B#32).privOk = true := by decide

theorem witness_TsClearedBySoftwareOnly :
    (cltsAt (withCr0 0x18#32)).ts = true ∧ (withCr0 0x18#32).privOk = true ∧
    (∃ t, step (cltsAt (withCr0 0x18#32)) = .next t ∧ decide (t.ts = false) = true) ∧
    ∃ t, step (codeAt 0x19#32 0x11#32 0x0F22C0) = .next t ∧ decide (t.ts = false) = true :=
  ⟨by decide, by decide, exists_of_nextIs (by decide), exists_of_nextIs (by decide)⟩

theorem witness_TaskSwitchSetsTs :
    let s : State := { withCr0 0x10#32 with arrivals := [some .taskSwitch] }
    s.raised = none ∧ s.arrivals = some .taskSwitch :: [] := ⟨rfl, rfl⟩

/-- EM alone, TS alone, and neither. -/
theorem witness_X87GateRaisesNm :
    (withCr0 0x14#32).raised = none ∧ (withCr0 0x14#32).em = true ∧ (withCr0 0x18#32).ts = true := by decide

theorem witness_WaitGateRaisesNm :
    (withCr0 0x1A#32).raised = none ∧ (withCr0 0x1A#32).mp = true ∧ (withCr0 0x1A#32).ts = true := by decide

/-- Each gate, and an open gate with nothing pending, in any form with no check in the way, in the register form with paging
active. -/
theorem witness_X87GateAndResult :
    (withCr0 0x14#32).em = true ∧ (withCr0 0x18#32).ts = true ∧
    ((withCr0 0x11#32).em = false ∧ (withCr0 0x11#32).ts = false ∧ (withCr0 0x11#32).params.hasX87 ≠ .none ∧
      (withCr0 0x11#32).fpuError = false ∧
      ∀ op ext o, ∃ ps, State.Reaches (withCr0 0x11#32) (State.dataAccess (withCr0 0x11#32) (.x87 op ext o)) ps) ∧
    ((withCr0 0x80000011#32).em = false ∧ (withCr0 0x80000011#32).ts = false ∧ (withCr0 0x80000011#32).pagingActive = true) ∧
    State.Reaches (withCr0 0x80000011#32) (State.dataAccess (withCr0 0x80000011#32) (.x87 1#3 5#3 (.reg 0#3))) [] :=
  ⟨by decide, by decide, ⟨by decide, by decide, by decide, rfl, fun _ _ _ => State.reaches_exists ⟨by decide, by decide⟩ _⟩,
    by decide, rfl⟩

theorem witness_X87WithoutFpu :
    let s : State := { withCr0 0x11#32 with params := { Params.default with hasX87 := .none } }
    s.em = false ∧ s.ts = false ∧ s.params.hasX87 = .none := by decide

/-- MP and TS both set; MP alone and TS alone with no error pending. -/
theorem witness_WaitGateAndResult :
    ((withCr0 0x1A#32).mp = true ∧ (withCr0 0x1A#32).ts = true) ∧
    (¬ ((withCr0 0x12#32).mp = true ∧ (withCr0 0x12#32).ts = true) ∧ (withCr0 0x12#32).fpuError = false) ∧
    (¬ ((withCr0 0x1C#32).mp = true ∧ (withCr0 0x1C#32).ts = true) ∧ (withCr0 0x1C#32).fpuError = false) := by decide

/-- NE set and NE clear. -/
theorem witness_FpuErrorReported :
    (let s : State := { withCr0 0x35#32 with fpuError := true }
     s.raised = none ∧ s.fpuError = true ∧ ¬ (s.mp = true ∧ s.ts = true) ∧ s.ne = true) ∧
    (let s : State := { withCr0 0x19#32 with fpuError := true, ignne := true, params := { Params.default with hasX87 := .none } }
     s.raised = none ∧ s.fpuError = true ∧ ¬ (s.mp = true ∧ s.ts = true) ∧ s.ne = false ∧ s.ignne = true) ∧
    (let s : State := { withCr0 0x31#32 with fpuError := true }
     s.raised = none ∧ s.fpuError = true ∧ s.ts = false ∧ s.em = false ∧ s.params.hasX87 ≠ .none ∧ s.ne = true ∧
       s.pagingActive = false ∧ s.alignmentCheckActive = false) ∧
    (let s : State := { withCr0 0x11#32 with fpuError := true }
     s.raised = none ∧ s.fpuError = true ∧ s.ts = false ∧ s.em = false ∧ s.params.hasX87 ≠ .none ∧ s.ne = false ∧
       s.ignne = false ∧ s.pagingActive = false ∧ s.alignmentCheckActive = false) ∧
    (let s : State := { withCr0 0x80000011#32 with fpuError := true, ignne := true }
     s.raised = none ∧ s.fpuError = true ∧ s.ts = false ∧ s.em = false ∧ s.params.hasX87 ≠ .none ∧ s.ne = false ∧
       s.ignne = true ∧ rmOperand (.reg 0#3) = none) := by
  decide

/-- Bytes within reach, whatever the access: in every state where no check stands before memory. -/
theorem witness_Reaches (s : State) (h : s.pagingActive = false ∧ s.alignmentCheckActive = false) (a : Option DataAccess) :
    ∃ ps, s.Reaches a ps :=
  State.reaches_exists h a

/-- EM set; MMX absent; TS set; all clear. -/
theorem witness_MmxGateAndResult :
    (classify [0x0F#8, 0x77#8]).cls = .mmx ∧ (withCr0 0x14#32).em = true ∧
    ({ Params.default with cpuidMmx := false } : Params).cpuidMmx = false ∧
    ((withCr0 0x18#32).em = false ∧ (withCr0 0x18#32).params.cpuidMmx = true ∧ (withCr0 0x18#32).ts = true) ∧
    ((withCr0 0x10#32).em = false ∧ (withCr0 0x10#32).params.cpuidMmx = true ∧ (withCr0 0x10#32).ts = false ∧
      (withCr0 0x10#32).PlainMemory) ∧
    ((withCr0 0x80000011#32).em = false ∧ (withCr0 0x80000011#32).ts = false ∧ (withCr0 0x80000011#32).pagingActive = true ∧
      (classify [0x0F#8, 0x77#8]).operand = none) :=
  ⟨by decide, by decide, rfl, ⟨by decide, rfl, by decide⟩, ⟨by decide, rfl, by decide, by decide, by decide⟩, by decide⟩

/-- Both classes; each test of the gate; an open gate; and a step that runs PXOR past it. -/
theorem witness_SseGateAndResult :
    ((classify [0x0F#8, 0x57#8, 0xC0#8]).cls = .sse ∧ (classify [0x66#8, 0x0F#8, 0xEF#8, 0xC0#8]).cls = .sse2) ∧
    (withCr0 0x10#32).osfxsr = false ∧ (withCr0 0x14#32).em = true ∧
    ({ Params.default with cpuidSse := false } : Params).cpuidSse = false ∧
    (let s : State := { withCr0 0x18#32 with cr4 := 0x200#32 }
     s.osfxsr = true ∧ s.params.cpuidSse = true ∧ s.em = false ∧ s.ts = true) ∧
    (let s : State := { withCr0 0x10#32 with cr4 := 0x200#32 }
     s.osfxsr = true ∧ s.params.cpuidSse = true ∧ s.em = false ∧ s.ts = false ∧ s.pagingActive = false ∧
       s.alignmentCheckActive = false) ∧
    (let s : State := { withCr0 0x80000011#32 with cr4 := 0x200#32 }
     s.osfxsr = true ∧ s.params.cpuidSse2 = true ∧ s.em = false ∧ s.ts = false ∧ s.pagingActive = true ∧
       (classify [0x66#8, 0x0F#8, 0xEF#8, 0xC0#8]).operand = none) ∧
    nextIs (step (({ withCr0 0x10#32 with cr4 := 0x600#32 } : State).placeCode pxorBytes)) (fun t => t.raised == none) = true := by
  decide

theorem witness_ExemptInstructionsUngated :
    Instr.sfence.insnClass = .exempt ∧ (Instr.movnti ⟨0#2, 0#3, 0#8, 0#32⟩ .eax).insnClass = .exempt ∧
    SameButGates (withCr0 0x11#32) { withCr0 0x1F#32 with cr4 := 0x600#32 } ∧
    ∀ a, ∃ ps, State.Reaches (withCr0 0x11#32) a ps :=
  ⟨rfl, rfl, ⟨rfl, by decide, by decide⟩, State.reaches_exists ⟨by decide, by decide⟩⟩

theorem witness_TsGatesNothingElse :
    Instr.rdtsc.insnClass = .other ∧ (∀ m, Instr.rdtsc ≠ .fxsave m ∧ Instr.rdtsc ≠ .fxrstor m) ∧ Instr.rdtsc ≠ .clts ∧
    (∀ md r, Instr.rdtsc ≠ .movR32Cr0 md r ∧ Instr.rdtsc ≠ .movCr0R32 md r) ∧
    ∃ t, exec .rdtsc (withCr0 0x11#32) = .next t :=
  ⟨rfl, by simp, by simp, by simp, _, rfl⟩

theorem witness_PlainMemory :
    (withCr0 0x11#32).PlainMemory ∧ (level3 0x40011#32 0#32).PlainMemory ∧ (withCr0 0x11#32).fxGated = false :=
  ⟨⟨by decide, by decide⟩, ⟨by decide, by decide⟩, by decide⟩

/-- The four conditions of the alignment check, EAX a multiple of 4, paging off. -/
def aligned : State := { withEax 0x00040011#32 0x2000#32 with cpl := 3#2, eflags := 0x00040002#32 }

/-- MOVNTI [EAX] with the alignment check active, and with an operand that wraps; bytes where the map has memory and where it has
none. -/
theorem witness_MovntiStores :
    let m : MemOperand := ⟨0#2, 0#3, 0#8, 0#32⟩
    aligned.alignmentCheckActive = true ∧
    aligned.Reaches (aligned.dataAccess (.movnti m .edx)) [0x2000, 0x2001, 0x2002, 0x2003] ∧
    State.Reaches (withEax 0x11#32 0xFFFFFFFE#32) (State.dataAccess (withEax 0x11#32 0xFFFFFFFE#32) (.movnti m .edx))
      [0xFFFFFFFE, 0xFFFFFFFF, 0, 1] ∧
    aligned.isRam 0x2003 = true ∧ (windowAt 0x2000).isRam 0x2003 = false ∧ (windowAt 0x2000).isRam 0x3000 = true :=
  ⟨by decide, ⟨fun _ => by decide, by decide⟩, ⟨fun h => absurd h (by decide), by decide⟩, by decide, by decide, by decide⟩

theorem witness_ClflushCompletes :
    aligned.Reaches (aligned.dataAccess (.clflush ⟨0#2, 0#3, 0#8, 0#32⟩)) [0x2000] := ⟨fun _ => by decide, by decide⟩

/-- The hypotheses of FxsaveResult, with OSFXSR clear and set, the alignment check active and not. -/
theorem witness_FxsaveResult :
    (withEax 0x11#32 0x2000#32).fxGated = false ∧ aligned.fxGated = false ∧
    (∀ a, ∃ ps, State.Reaches (withEax 0x11#32 0x2000#32) a ps) ∧
    aligned.Reaches (aligned.dataAccess (.fxsave ⟨0#2, 0#3, 0#8, 0#32⟩)) ((linearBytes 0x2000#32 512).map BitVec.toNat) ∧
    (withEax 0x11#32 0x2000#32).osfxsr = false ∧ ({ withCr0 0x11#32 with cr4 := 0x200#32 } : State).osfxsr = true :=
  ⟨by decide, by decide, State.reaches_exists ⟨by decide, by decide⟩, ⟨fun _ => by decide, rfl⟩, by decide, by decide⟩

theorem witness_FxrstorResult :
    aligned.fxGated = false ∧ aligned.osfxsr = false ∧
    aligned.Reaches (aligned.dataAccess (.fxrstor ⟨0#2, 0#3, 0#8, 0#32⟩)) ((linearBytes 0x2000#32 512).map BitVec.toNat) :=
  ⟨by decide, by decide, fun _ => by decide, rfl⟩

theorem fxrstor_completes (m : MemOperand) {s : State} (hg : s.fxGated = false) (hp : s.PlainMemory) (hr : s.raised = none) :
    ∃ t, exec (.fxrstor m) s = .next t ∧ t.raised = none :=
  ⟨((s.restoreImage (s.readBytes ((linearBytes (s.effAddr m) fxSize).map BitVec.toNat))).drawn).advance (3 + m.size), by
    simp only [exec, execFxrstor, hg, State.access_of_reaches (State.reaches_plain hp ⟨m, .read, s.params.fxAlign, fxSize⟩)]
    rfl, hr⟩

/-- A save and the restore from the state it leaves, with OSFXSR set and clear. -/
theorem witness_FxrstorRestoresSaved :
    let m : MemOperand := ⟨0#2, 0#3, 0#8, 0#32⟩
    let ps := (linearBytes 0x2000#32 512).map BitVec.toNat
    ps.Nodup ∧ ∀ s ∈ [{ withEax 0x11#32 0x2000#32 with cr4 := 0x200#32 }, withEax 0x11#32 0x2000#32],
      s.raised = none ∧ s.Reaches (s.dataAccess (.fxsave m)) ps ∧ (∀ p ∈ ps, s.isRam p = true) ∧
      ∃ t, exec (.fxsave m) s = .next t ∧ t.raised = none ∧ t.params = s.params ∧
        t.Reaches (t.dataAccess (.fxrstor m)) ps ∧ ∃ t', exec (.fxrstor m) t = .next t' ∧ t'.raised = none := by
  refine ⟨linearBytes_nodup _ (by decide), fun s hs => ?_⟩
  simp only [List.mem_cons, List.not_mem_nil, or_false] at hs
  rcases hs with rfl | rfl <;>
    exact ⟨rfl, State.reaches_plain ⟨by decide, by decide⟩ ⟨_, _, _, fxSize⟩,
      fun p hp => by obtain ⟨a, -, rfl⟩ := List.mem_map.mp hp; exact allRam a rfl,
      _, rfl, rfl, rfl, State.reaches_plain ⟨by decide, by decide⟩ ⟨_, _, _, fxSize⟩,
      fxrstor_completes _ (by decide) ⟨by decide, by decide⟩ rfl⟩

theorem witness_FxGateRaisesNm :
    Params.default.fxGate = true ∧ (withCr0 0x18#32).ts = true ∧ (withCr0 0x14#32).em = true := by decide

/-- Shut out at level 1; let through by TSD clear, by real-address mode, by level 0. -/
theorem witness_RdtscGateAndResult :
    (let s : State := { withCr0 0x11#32 with cr4 := 0x4#32, cpl := 1#2 }
     s.tsd = true ∧ s.mode ≠ .realMode ∧ s.cpl ≠ 0#2) ∧
    (level3 0x11#32 0#32).tsd = false ∧ (level3 0x10#32 0x4#32).mode = .realMode ∧ (withCr0 0x11#32).cpl = 0#2 := by decide

theorem witness_RdpmcGateAndResult :
    (let s : State := { withCr0 0x11#32 with cpl := 1#2 }
     s.pce = false ∧ s.mode ≠ .realMode ∧ s.cpl ≠ 0#2) ∧
    (level3 0x11#32 0x100#32).pce = true ∧ (level3 0x10#32 0#32).mode = .realMode ∧ (withCr0 0x11#32).cpl = 0#2 := by decide

theorem witness_DebugRegisterAccess :
    (level3 0x11#32 0x8#32).de = true ∧ (withCr0 0x11#32).de = false ∧ (withCr0 0x11#32).privOk = true ∧
    ((level3 0x11#32 0#32).de = false ∧ Params.default.drGate = true ∧ (level3 0x11#32 0#32).privOk = false) ∧
    ({ Params.default with drGate := false } : Params).drGate = false := by decide

/-- Function 1 on a processor G5 can describe, of each family, and on one it cannot. -/
theorem witness_CpuidResult :
    (withEax 0x11#32 1#32).regs.eax = 1#32 ∧ CpuidTells Params.default ∧
    CpuidTells { Params.default with proc := .pentium, cr4Present := 0x1FF#11, cpuidSse := false } ∧
    ¬ CpuidTells { Params.default with cr4Present := 0x3FF#11 } := by
  unfold CpuidTells
  decide

theorem witness_PagingOffIsIdentity :
    (withCr0 0x7FFFFFFF#32).pagingActive = false ∧ (withCr0 0x80000010#32).pagingActive = false ∧
    (withCr0 0x80000011#32).pagingActive = true := by decide

theorem witness_WriteProtectRule :
    (withCr0 0x80010011#32).pagingActive = true ∧ (withCr0 0x80010011#32).cpl ≠ 3#2 ∧ (withCr0 0x80010011#32).wp = true ∧
    (withCr0 0x80000011#32).pagingActive = true ∧ (withCr0 0x80000011#32).wp = false ∧
    State.writeForbidden (withCr0 0x80010011#32) .write ⟨0#36, true, true⟩ = true := by decide

theorem witness_PageFaultLoadsCr2 :
    (cltsAt (withCr0 0x18#32)).raised = none ∧ ∃ t, step (cltsAt (withCr0 0x18#32)) = .next t := by
  obtain ⟨t, ht, -⟩ := exists_of_nextIs (o := step (cltsAt (withCr0 0x18#32))) (p := fun _ => true) (by decide)
  exact ⟨by decide, t, ht⟩

/-- The data accesses of its second clause: paging active, no alignment check, the gate of FXSAVE open. -/
theorem witness_PageFaultLoadsCr2_data :
    let s := withCr0 0x80000011#32
    s.pagingActive = true ∧ (∀ d, s.Aligned d) ∧
    ∀ i ∈ [Instr.movnti ⟨0#2, 0#3, 0#8, 0#32⟩ .eax, .clflush ⟨0#2, 0#3, 0#8, 0#32⟩, .fxsave ⟨0#2, 0#3, 0#8, 0#32⟩,
        .fxrstor ⟨0#2, 0#3, 0#8, 0#32⟩, .x87 1#3 2#3 (.mem ⟨0#2, 0#3, 0#8, 0#32⟩)],
      (s.dataAccess i).isSome = true ∧ s.GateOpen i := by
  refine ⟨by decide, fun d h => absurd h (by decide), fun i hi => ?_⟩
  simp only [List.mem_cons, List.not_mem_nil, or_false] at hi
  rcases hi with rfl | rfl | rfl | rfl | rfl <;> exact ⟨rfl, by unfold State.GateOpen; decide⟩

/-- A step that raises the alignment check, and the conditions of the second clause. -/
theorem witness_AlignmentCheckOnlyWhenActive :
    unaligned.raised = none ∧ (∃ t, step unaligned = .next t ∧ decide (t.raised = some (.ac 0#32)) = true) ∧
    unaligned.am = true ∧ unaligned.ac = true ∧ unaligned.cpl = 3#2 ∧ unaligned.mode = .protectedMode ∧
    (unaligned.effAddr ⟨0#2, 0#3, 0#8, 0#32⟩).toNat % 4 ≠ 0 ∧
    (aligned.am = true ∧ aligned.ac = true ∧ aligned.cpl = 3#2 ∧ aligned.mode = .protectedMode ∧
      (aligned.effAddr ⟨0#2, 0#3, 0#8, 0#32⟩).toNat % 4 = 0 ∧ aligned.pagingActive = false ∧ aligned.isRam 0x2000 = true) :=
  ⟨by decide, exists_of_nextIs (by decide), by decide, by decide, by decide, by decide, by decide, by decide⟩

theorem witness_PageDirectoryBase :
    (withCr0 0x11#32).pae = false ∧ ({ withCr0 0x11#32 with cr4 := 0x20#32 } : State).pae = true ∧
    (∃ p, State.translate (withCr0 0x11#32) .read 0xFFFFFFFF#32 = .ok p) ∧
    (∃ ps, State.access (withCr0 0x11#32) .read 1 4 0xFFFFFFFE#32 = .ok ps) ∧
    ∃ t, step (cltsAt (withCr0 0x18#32)) = .next t := by
  obtain ⟨t, ht, -⟩ := exists_of_nextIs (o := step (cltsAt (withCr0 0x18#32))) (p := fun _ => true) (by decide)
  exact ⟨by decide, by decide, ⟨_, State.translate_off (by decide) _ _⟩, ⟨_, rfl⟩, t, ht⟩

/-- A reserved bit and an absent flag that differ, and an instruction of each kind that runs. -/
theorem witness_AbsentFlagsHaveNoEffect :
    let s : State := { withCr0 0x11#32 with params := { Params.default with cr4Present := 0x7FB#11 } }
    s.SameFlags 0x00000804#32 ∧ (∀ md r, Instr.rdtsc ≠ .movR32Cr4 md r ∧ Instr.rdtsc ≠ .movCr4R32 md r) ∧
    (∃ t, exec .rdtsc s = .next t) ∧ ∃ t, execUnlisted ⟨.mmx, none⟩ [] s = .next t := by
  refine ⟨?_, by simp, ⟨_, rfl⟩, _, rfl⟩
  unfold State.SameFlags
  decide

/-- Caching enabled on each kind of processor, the flags heeded, and not. -/
theorem witness_CacheFormulas :
    ((withCr0 0x11#32).cd = false ∧ (withCr0 0x11#32).nw = false ∧ (withCr0 0x11#32).cachingEnabled = true) ∧
    Params.default.proc = .pentium4 ∧ ({ Params.default with proc := .intel486 } : Params).proc = .intel486 ∧
    (withCr0 0x11#32).pg = false ∧ (withCr0 0xC0000011#32).cd = true ∧
    ((withCr0 0x80000011#32).pg = true ∧ (withCr0 0x80000011#32).cd = false ∧ (withCr0 0x80000011#32).pcd = false) ∧
    ({ withCr0 0x80000011#32 with cr3 := 0x10#32 } : State).pcd = true := by decide

theorem witness_ReservedMasks :
    etHardwired Params.default = true ∧ etHardwired { Params.default with proc := .intel486 } = false ∧ 31 < 32 := by decide

/-- The event with MCE set and with MCE clear. -/
theorem witness_MachineCheckEnabledByMce :
    (let s : State := { withCr0 0x11#32 with cr4 := 0x40#32, arrivals := [some .machineCheck] }
     s.raised = none ∧ s.arrivals = some .machineCheck :: [] ∧ s.mce = true) ∧
    (let s : State := { withCr0 0x11#32 with arrivals := [some .machineCheck] }
     s.raised = none ∧ s.arrivals = some .machineCheck :: [] ∧ s.mce = false) := by decide

end Sys2Proof.Tests
end

section
/-! The constants of the model's scope, and R5: an absent flag of CR4 does not exist. -/

namespace Sys2Proof.Machine

/-! ### The reserved masks (40_mov_cr.md, the constants) -/

theorem highBits_getLsbD : ∀ i < 32, (0xFFFFF800#32).getLsbD i = decide (11 ≤ i) := by decide

theorem flagBits_getLsbD : ∀ i < 32, (0x000007FF#32).getLsbD i = !decide (11 ≤ i) := by decide

/-- A bit of RSVD4 is set exactly above the flags and for a flag the processor lacks (00_scope.md R5). -/
theorem rsvd4_getLsbD (p : Params) {i : Nat} (h : i < 32) :
    (rsvd4 p).getLsbD i = (decide (11 ≤ i) || !p.cr4Present.getLsbD i) := by
  simp only [rsvd4, BitVec.getLsbD_or, BitVec.getLsbD_and, BitVec.getLsbD_not, BitVec.getLsbD_setWidth,
    highBits_getLsbD i h, flagBits_getLsbD i h, h]
  cases decide (11 ≤ i) <;> simp

/-- Settles O58: RSVD0 by whether ET is hardwired, RSVD4 bit by bit. -/
theorem reservedMasks : Obligations.ReservedMasks := fun p =>
  ⟨fun h => by simp [rsvd0, h], fun h => by simp [rsvd0, h], fun _ hi => rsvd4_getLsbD p hi⟩

/-! ### A state and the same state with other bits in CR4

R5: an absent flag, and a reserved bit, has no effect. Each operation, run from the state with another CR4 that shows
the same flags, gives what it gives from the state itself, with that CR4. -/

/-- The state with another value of CR4. -/
def State.withCr4 (s : State) (w : Word) : State := { s with cr4 := w }

/-- The same outcome with its next state, if there is one, changed. -/
def mapNext (f : State → State) : Host.Outcome State Fault Refusal → Host.Outcome State Fault Refusal
  | .next t => .next (f t)
  | .fault r => .fault r
  | .refused r => .refused r

/-- The same access with the state it stops in, if it does, changed. -/
def Access.mapStop (f : State → State) : Access → Access
  | .ok ps => .ok ps
  | .stop t => .stop (f t)

section
variable {s : State} {w : Word}

/-! #### What CR4 has no part in -/

@[simp] theorem State.withCr4_raised : (s.withCr4 w).raised = s.raised := rfl
@[simp] theorem State.withCr4_params : (s.withCr4 w).params = s.params := rfl
@[simp] theorem State.withCr4_draws : (s.withCr4 w).draws = s.draws := rfl
@[simp] theorem State.withCr4_fpuError : (s.withCr4 w).fpuError = s.fpuError := rfl
@[simp] theorem State.withCr4_ignne : (s.withCr4 w).ignne = s.ignne := rfl
@[simp] theorem State.withCr4_cr3 : (s.withCr4 w).cr3 = s.cr3 := rfl
@[simp] theorem State.withCr4_readCr0 : (s.withCr4 w).readCr0 = s.readCr0 := rfl
@[simp] theorem State.withCr4_ne : (s.withCr4 w).ne = s.ne := rfl
@[simp] theorem State.withCr4_ts : (s.withCr4 w).ts = s.ts := rfl
@[simp] theorem State.withCr4_em : (s.withCr4 w).em = s.em := rfl
@[simp] theorem State.withCr4_mp : (s.withCr4 w).mp = s.mp := rfl
@[simp] theorem State.withCr4_fxGated : (s.withCr4 w).fxGated = s.fxGated := rfl
@[simp] theorem State.withCr4_privOk : (s.withCr4 w).privOk = s.privOk := rfl
@[simp] theorem State.withCr4_outsideLevel0 : (s.withCr4 w).outsideLevel0 = s.outsideLevel0 := rfl
@[simp] theorem State.withCr4_pagingActive : (s.withCr4 w).pagingActive = s.pagingActive := rfl
@[simp] theorem State.withCr4_alignmentCheckActive : (s.withCr4 w).alignmentCheckActive = s.alignmentCheckActive := rfl
@[simp] theorem State.withCr4_reg (r : Reg) : (s.withCr4 w).reg r = s.reg r := rfl
@[simp] theorem State.withCr4_effAddr (m : MemOperand) : (s.withCr4 w).effAddr m = s.effAddr m := rfl
@[simp] theorem State.withCr4_readBytes (ps : List Nat) : (s.withCr4 w).readBytes ps = s.readBytes ps := rfl
@[simp] theorem State.withCr4_simdUnmasked (bs : List Byte) : (s.withCr4 w).simdUnmasked bs = s.simdUnmasked bs := rfl

/-! #### The flags of CR4 and what is computed from them -/

theorem State.SameFlags.tsd (h : s.SameFlags w) : (s.withCr4 w).tsd = s.tsd := h 2 (by decide)
theorem State.SameFlags.de (h : s.SameFlags w) : (s.withCr4 w).de = s.de := h 3 (by decide)
theorem State.SameFlags.pse (h : s.SameFlags w) : (s.withCr4 w).pse = s.pse := h 4 (by decide)
theorem State.SameFlags.pae (h : s.SameFlags w) : (s.withCr4 w).pae = s.pae := h 5 (by decide)
theorem State.SameFlags.pge (h : s.SameFlags w) : (s.withCr4 w).pge = s.pge := h 7 (by decide)
theorem State.SameFlags.pce (h : s.SameFlags w) : (s.withCr4 w).pce = s.pce := h 8 (by decide)
theorem State.SameFlags.osfxsr (h : s.SameFlags w) : (s.withCr4 w).osfxsr = s.osfxsr := h 9 (by decide)
theorem State.SameFlags.osxmmexcpt (h : s.SameFlags w) : (s.withCr4 w).osxmmexcpt = s.osxmmexcpt := h 10 (by decide)

/-- The layout of CR3 (40_mov_cr.md R148). -/
theorem State.SameFlags.rsvd3 (h : s.SameFlags w) : (s.withCr4 w).rsvd3 = s.rsvd3 := by
  unfold State.rsvd3
  rw [h.pae]
  rfl

/-- The checks of an access to a debug register (43_cr4_gated.md R212). -/
theorem State.SameFlags.drStop (h : s.SameFlags w) : (s.withCr4 w).drStop = s.drStop := by
  unfold State.drStop
  rw [h.de]
  rfl

/-- The image of FXSAVE (42_fpu_simd_gating.md R190). -/
theorem State.SameFlags.fxImage (h : s.SameFlags w) : (s.withCr4 w).fxImage = s.fxImage := by
  unfold State.fxImage
  rw [h.osfxsr]
  rfl

/-- What FXRSTOR restores (42_fpu_simd_gating.md R191). -/
theorem State.SameFlags.restoreImage (h : s.SameFlags w) (img : List Byte) :
    (s.withCr4 w).restoreImage img = (s.restoreImage img).withCr4 w := by
  unfold State.restoreImage
  rw [h.osfxsr]
  rfl

/-- How a SIMD floating-point exception is recorded (42_fpu_simd_gating.md R185). -/
theorem State.SameFlags.raiseSimd (h : s.SameFlags w) : (s.withCr4 w).raiseSimd = s.raiseSimd.withCr4 w := by
  unfold State.raiseSimd
  rw [h.osxmmexcpt]
  rfl

/-! #### Translation and data accesses (20_memory.md R86, R92) -/

theorem State.SameFlags.translate (h : s.SameFlags w) (k : AccessKind) (a : Word) :
    (s.withCr4 w).translate k a = s.translate k a := by
  unfold State.translate State.translateRequest State.clipPhys State.physAddrBits
  rw [h.pse, h.pae, h.pge]
  rfl

theorem State.SameFlags.translateList (h : s.SameFlags w) (k : AccessKind) (as : List Word) :
    (s.withCr4 w).translateList k as = s.translateList k as := by
  induction as with
  | nil => rfl
  | cons a as ih => rw [State.translateList, State.translateList, h.translate, ih]

theorem State.SameFlags.access (h : s.SameFlags w) (k : AccessKind) (b n : Nat) (a : Word) :
    (s.withCr4 w).access k b n a = (s.access k b n a).mapStop (·.withCr4 w) := by
  unfold State.access
  simp only [State.withCr4_alignmentCheckActive, State.withCr4_pagingActive, h.translateList]
  split_ifs
  · rfl
  · cases s.translateList k (linearBytes a n) <;> rfl
  · rfl

/-! #### Numeric instructions (42_fpu_simd_gating.md R180, R192) -/

theorem State.SameFlags.numericAccess (h : s.SameFlags w) (m : Option MemOperand) (e : NumericEffect) :
    (s.withCr4 w).numericAccess m e = (s.numericAccess m e).mapStop (·.withCr4 w) := by
  cases m with
  | none => rfl
  | some m => exact h.access _ _ _ _

theorem State.SameFlags.numeric (h : s.SameFlags w) (m : Option MemOperand) (u : NumericUnit) (len : Nat)
    (e : NumericEffect) : (s.withCr4 w).numeric m u len e = (s.numeric m u len e).withCr4 w := by
  unfold State.numeric
  rw [h.numericAccess]
  cases s.numericAccess m e <;> rfl

/-- The report of a pending x87 error around an instruction that does not see the change. -/
theorem State.reportFpuError_withCr4 {run : State → State} (hrun : run (s.withCr4 w) = (run s).withCr4 w) (b : Bool) :
    (s.withCr4 w).reportFpuError b run = (s.reportFpuError b run).withCr4 w := by
  simp only [State.reportFpuError, State.withCr4_fpuError, State.withCr4_ne, State.withCr4_ignne, hrun,
    State.withCr4_raised]
  split_ifs <;> rfl

/-! #### The meanings that test a flag of CR4, access memory or report an x87 error -/

theorem moveFromCr_withCr4 (r : Reg) (v : Word) :
    moveFromCr r v (s.withCr4 w) = mapNext (·.withCr4 w) (moveFromCr r v s) := by
  unfold moveFromCr
  rw [State.withCr4_privOk]
  split_ifs <;> rfl

theorem moveFromDr_withCr4 (h : s.SameFlags w) (n : BitVec 3) (held : Word) (r : Reg) :
    moveFromDr n held r (s.withCr4 w) = mapNext (·.withCr4 w) (moveFromDr n held r s) := by
  unfold moveFromDr
  rw [h.drStop]
  cases s.drStop <;> rfl

theorem execMovDr4R32_withCr4 (h : s.SameFlags w) (r : Reg) :
    execMovDr4R32 r (s.withCr4 w) = mapNext (·.withCr4 w) (execMovDr4R32 r s) := by
  unfold execMovDr4R32
  rw [h.drStop]
  cases s.drStop <;> rfl

theorem execMovDr5R32_withCr4 (h : s.SameFlags w) (r : Reg) :
    execMovDr5R32 r (s.withCr4 w) = mapNext (·.withCr4 w) (execMovDr5R32 r s) := by
  unfold execMovDr5R32
  rw [h.drStop]
  cases s.drStop <;> rfl

theorem execRdtsc_withCr4 (h : s.SameFlags w) :
    execRdtsc (s.withCr4 w) = mapNext (·.withCr4 w) (execRdtsc s) := by
  unfold execRdtsc
  rw [h.tsd, State.withCr4_outsideLevel0]
  split_ifs <;> rfl

theorem execRdpmc_withCr4 (h : s.SameFlags w) :
    execRdpmc (s.withCr4 w) = mapNext (·.withCr4 w) (execRdpmc s) := by
  unfold execRdpmc
  rw [h.pce, State.withCr4_outsideLevel0]
  split_ifs <;> rfl

theorem execClts_withCr4 : execClts (s.withCr4 w) = mapNext (·.withCr4 w) (execClts s) := by
  unfold execClts
  rw [State.withCr4_privOk]
  split_ifs <;> rfl

theorem execMovCr0R32_withCr4 (r : Reg) :
    execMovCr0R32 r (s.withCr4 w) = mapNext (·.withCr4 w) (execMovCr0R32 r s) := by
  unfold execMovCr0R32
  dsimp only
  rw [State.withCr4_reg, State.withCr4_privOk, State.withCr4_params, State.withCr4_readCr0]
  split_ifs <;> rfl

theorem execMovCr2R32_withCr4 (r : Reg) :
    execMovCr2R32 r (s.withCr4 w) = mapNext (·.withCr4 w) (execMovCr2R32 r s) := by
  unfold execMovCr2R32
  rw [State.withCr4_privOk]
  split_ifs <;> rfl

theorem execMovCr3R32_withCr4 (h : s.SameFlags w) (r : Reg) :
    execMovCr3R32 r (s.withCr4 w) = mapNext (·.withCr4 w) (execMovCr3R32 r s) := by
  unfold execMovCr3R32
  dsimp only
  rw [State.withCr4_reg, State.withCr4_privOk, State.withCr4_cr3, h.rsvd3]
  split_ifs <;> rfl

theorem execWait_withCr4 : execWait (s.withCr4 w) = mapNext (·.withCr4 w) (execWait s) := by
  unfold execWait
  rw [State.withCr4_mp, State.withCr4_ts, State.reportFpuError_withCr4 rfl]
  split_ifs <;> rfl

theorem execX87_withCr4 (h : s.SameFlags w) (op ext : BitVec 3) (o : RmOperand) :
    execX87 op ext o (s.withCr4 w) = mapNext (·.withCr4 w) (execX87 op ext o s) := by
  unfold execX87
  rw [State.withCr4_em, State.withCr4_ts, State.withCr4_params, State.reportFpuError_withCr4 (h.numeric _ _ _ _)]
  split_ifs <;> rfl

theorem execFxsave_withCr4 (h : s.SameFlags w) (m : MemOperand) :
    execFxsave m (s.withCr4 w) = mapNext (·.withCr4 w) (execFxsave m s) := by
  simp only [execFxsave, State.withCr4_fxGated, State.withCr4_params, State.withCr4_effAddr, h.access, h.fxImage]
  split_ifs
  · rfl
  · cases s.access .write s.params.fxAlign fxSize (s.effAddr m) <;> rfl

theorem execFxrstor_withCr4 (h : s.SameFlags w) (m : MemOperand) :
    execFxrstor m (s.withCr4 w) = mapNext (·.withCr4 w) (execFxrstor m s) := by
  simp only [execFxrstor, State.withCr4_fxGated, State.withCr4_params, State.withCr4_effAddr, h.access,
    State.withCr4_readBytes, h.restoreImage]
  split_ifs
  · rfl
  · cases s.access .read s.params.fxAlign fxSize (s.effAddr m) <;> rfl

theorem execMovnti_withCr4 (h : s.SameFlags w) (m : MemOperand) (g : Reg) :
    execMovnti m g (s.withCr4 w) = mapNext (·.withCr4 w) (execMovnti m g s) := by
  unfold execMovnti
  rw [h.access, State.withCr4_effAddr]
  cases s.access .write 4 4 (s.effAddr m) <;> rfl

theorem execClflush_withCr4 (h : s.SameFlags w) (m : MemOperand) :
    execClflush m (s.withCr4 w) = mapNext (·.withCr4 w) (execClflush m s) := by
  unfold execClflush
  rw [h.access, State.withCr4_effAddr]
  cases s.access .read 1 1 (s.effAddr m) <;> rfl

theorem execMmx_withCr4 (h : s.SameFlags w) (m : Option MemOperand) (len : Nat) (e : NumericEffect) :
    execMmx m len e (s.withCr4 w) = (execMmx m len e s).withCr4 w := by
  unfold execMmx
  rw [State.withCr4_em, State.withCr4_params, State.withCr4_ts, h.numeric]
  split_ifs <;> rfl

theorem execSse_withCr4 (h : s.SameFlags w) (x u : Bool) (m : Option MemOperand) (len : Nat)
    (e : NumericEffect) : execSse x u m len e (s.withCr4 w) = (execSse x u m len e s).withCr4 w := by
  unfold execSse
  rw [h.osfxsr, State.withCr4_em, State.withCr4_ts, h.numericAccess, h.raiseSimd]
  cases s.numericAccess m e <;> split_ifs <;> rfl

/-! #### The whole instruction set -/

/-- But for MOV to and from CR4, an instruction of the table does not see the change. Those of the last case test no flag of
CR4, reach no memory and report no error. -/
theorem exec_withCr4 (h : s.SameFlags w) {i : Instr}
    (hi : ∀ md r, i ≠ .movR32Cr4 md r ∧ i ≠ .movCr4R32 md r) :
    exec i (s.withCr4 w) = mapNext (·.withCr4 w) (exec i s) := by
  cases i with
  | movR32Cr4 md r => exact absurd rfl (hi md r).1
  | movCr4R32 md r => exact absurd rfl (hi md r).2
  | movR32Cr0 md r => exact moveFromCr_withCr4 r _
  | movR32Cr2 md r => exact moveFromCr_withCr4 r _
  | movR32Cr3 md r => exact moveFromCr_withCr4 r _
  | movCr0R32 md r => exact execMovCr0R32_withCr4 r
  | movCr2R32 md r => exact execMovCr2R32_withCr4 r
  | movCr3R32 md r => exact execMovCr3R32_withCr4 h r
  | clts => exact execClts_withCr4
  | wait => exact execWait_withCr4
  | x87 op ext o => exact execX87_withCr4 h op ext o
  | rdtsc => exact execRdtsc_withCr4 h
  | rdpmc => exact execRdpmc_withCr4 h
  | movR32Dr4 md r => exact moveFromDr_withCr4 h _ _ r
  | movR32Dr5 md r => exact moveFromDr_withCr4 h _ _ r
  | movDr4R32 md r => exact execMovDr4R32_withCr4 h r
  | movDr5R32 md r => exact execMovDr5R32_withCr4 h r
  | fxsave m => exact execFxsave_withCr4 h m
  | fxrstor m => exact execFxrstor_withCr4 h m
  | movnti m g => exact execMovnti_withCr4 h m g
  | clflush m => exact execClflush_withCr4 h m
  | _ => rfl

theorem execUnlisted_withCr4 (h : s.SameFlags w) (c : ClassInfo) (bs : List Byte) :
    execUnlisted c bs (s.withCr4 w) = mapNext (·.withCr4 w) (execUnlisted c bs s) := by
  simp only [execUnlisted, execMmx_withCr4 h, execSse_withCr4 h, State.withCr4_draws, State.withCr4_params,
    State.withCr4_simdUnmasked]
  cases c.cls <;> rfl

end

/-- Settles O60: every meaning gives from the state with the other CR4 its own outcome with that CR4. -/
theorem absentFlagsHaveNoEffect : Obligations.AbsentFlagsHaveNoEffect := by
  intro s t w h
  refine ⟨fun i hi ht => (exec_withCr4 h hi).trans ?_, fun c bs ht => (execUnlisted_withCr4 h c bs).trans ?_⟩
  · rw [ht]; rfl
  · rw [ht]; rfl

/-! ### What a step runs (00_scope.md section 5) -/

theorem linearBytes_add (a : Word) (m n : Nat) :
    linearBytes a (m + n) = linearBytes a m ++ linearBytes (a + BitVec.ofNat 32 m) n := by
  rw [linearBytes_eq_map, linearBytes_eq_map, linearBytes_eq_map, List.range_add, List.map_append, List.map_map]
  congr 1
  refine List.map_congr_left fun k _ => ?_
  rw [Function.comp, BitVec.ofNat_add, BitVec.add_assoc]

/-- Where the translation answers, the fetch reads what stands at its answers, then goes on. -/
theorem State.fetchBytes_append {s : State} {as : List Word} {ps : List Nat}
    (h : s.translateList .fetch as = .ok ps) (more : List Word) :
    (s.fetchBytes (as ++ more)).1 = ps.map s.readByte ++ (s.fetchBytes more).1 := by
  induction as generalizing ps with
  | nil => cases h; rfl
  | cons a as ih =>
    simp only [State.translateList] at h
    split at h
    · cases h
    · next p hp =>
      split at h
      · cases h
      · next qs hqs =>
        cases h
        simp [State.fetchBytes, hp, ih hqs]

/-- The first bytes fetched, as far as the translation answers (20_memory.md R86). -/
theorem State.fetchBytes_take {s : State} {a : Word} {m n : Nat} {ps : List Nat} (hn : n ≤ m)
    (h : s.translateList .fetch (linearBytes a n) = .ok ps) :
    (s.fetchBytes (linearBytes a m)).1.take n = ps.map s.readByte := by
  have hl : (ps.map s.readByte).length = n := by simpa using (State.translateList_ok h).1
  rw [← Nat.add_sub_cancel' hn, linearBytes_add, State.fetchBytes_append h, List.take_left' hl]

/-- What a step runs when nothing is raised and nothing arrives, an idle arrival consumed. -/
theorem step_runs_or_idle {s u : State} (h : s.raised = none)
    (hu : s.arrivals = [] ∧ u = s ∨ ∃ rest, s.arrivals = none :: rest ∧ u = { s with arrivals := rest }) :
    step s = runInstr u ∧ u.fetch = s.fetch := by
  rcases hu with ⟨ha, rfl⟩ | ⟨rest, ha, rfl⟩
  · exact ⟨step_runs h ha, rfl⟩
  · exact ⟨step_idle h ha, s.fetch_arrivals rest⟩

/-- Running bytes that are no row: the gates of their class, or the refusal of a prefixed MMX form (U21). -/
theorem runInstr_unlisted {s : State} {bs is : List Byte} {pf : Option Word} (hf : s.fetch = fetchedOf bs pf)
    (hd : decode bs = .unlisted) (hw : unlistedBytes bs = some is) :
    runInstr s =
      if prefixedMmx (classify is) is then .refused .prefixedForm else execUnlisted (classify is) is s := by
  simp only [runInstr, hf, fetchedOf, hd, fetchedUnlisted, hw]
  split_ifs <;> rfl

/-- Running bytes that the decoder refuses is the refusal. -/
theorem runInstr_refused {s : State} {bs : List Byte} {pf : Option Word} {why : DecodeRefusal}
    (hf : s.fetch = fetchedOf bs pf) (hd : decode bs = .refused why) : runInstr s = .refused (decodeRefusal why) := by
  simp only [runInstr, hf, fetchedOf, hd]

/-- Settles O5: the step is `runInstr`, which does what the fetched bytes decode to. -/
theorem stepRunsDecoded : Obligations.StepRunsDecoded := by
  intro s u hr hu bs
  obtain ⟨hstep, hfetch⟩ := step_runs_or_idle hr hu
  have hf : u.fetch = fetchedOf bs (s.fetchBytes (linearBytes s.pc maxInstrBytes)).2 := hfetch
  refine ⟨fun i n hd => ?_, fun is hd hw => ?_, fun why hd => ?_, fun hp => State.fetchBytes_off hp _,
    fun n ps hn hps => State.fetchBytes_take hn hps⟩
  · exact hstep.trans (runInstr_instr (by simp only [hf, fetchedOf, hd]))
  · obtain ⟨hne, hpre, -, hmore⟩ := unlistedBytes_spec hw
    exact ⟨hne, hpre, hmore, hstep.trans (runInstr_unlisted hf hd hw)⟩
  · exact hstep.trans (runInstr_refused hf hd)

end Sys2Proof.Machine
end

section
/-! The other direction of the encoding: whatever is read as an instruction is spelled by the encoder's bytes
(30_encoding.md sections 1 to 3). -/

namespace Sys2Proof

/-- Bytes that spell an instruction: they begin with its encoding, it is well-formed, and `n` is its length. -/
def Spells (bs : List Byte) (i : Instr) (n : Nat) : Prop :=
  i.WellFormed ∧ n = i.length ∧ ∃ rest, bs = encode i ++ rest

/-- An instruction without a memory operand is spelled by bytes that begin with its own. -/
theorem Spells.of_operand_none {i : Instr} {bs : List Byte} (h : i.operand = none) (rest : List Byte)
    (hb : bs = encode i ++ rest) : Spells bs i i.length :=
  ⟨wellFormed_of_operand_none h, rfl, rest, hb⟩

theorem bits3_cases (n : BitVec 3) :
    n = 0#3 ∨ n = 1#3 ∨ n = 2#3 ∨ n = 3#3 ∨ n = 4#3 ∨ n = 5#3 ∨ n = 6#3 ∨ n = 7#3 := by
  revert n; decide

/-! ### Register forms (R112, R113, R118) -/

theorem movFromCr_spells (md : BitVec 2) (n rm : BitVec 3) (bs : List Byte) :
    Spells (0x0F#8 :: 0x20#8 :: modRM md n rm :: bs) (movFromCr md n (Reg.ofBits rm)) 3 := by
  rw [← Reg.toBits_ofBits rm, Reg.ofBits_toBits]
  rcases bits3_cases n with rfl | rfl | rfl | rfl | rfl | rfl | rfl | rfl <;>
    exact .of_operand_none rfl bs rfl

theorem movToCr_spells (md : BitVec 2) (n rm : BitVec 3) (bs : List Byte) :
    Spells (0x0F#8 :: 0x22#8 :: modRM md n rm :: bs) (movToCr md n (Reg.ofBits rm)) 3 := by
  rw [← Reg.toBits_ofBits rm, Reg.ofBits_toBits]
  rcases bits3_cases n with rfl | rfl | rfl | rfl | rfl | rfl | rfl | rfl <;>
    exact .of_operand_none rfl bs rfl

theorem movFromDr_spells {md : BitVec 2} {n rm : BitVec 3} {i : Instr} {k : Nat} (bs : List Byte)
    (h : movFromDr md n (Reg.ofBits rm) = .instr i k) : Spells (0x0F#8 :: 0x21#8 :: modRM md n rm :: bs) i k := by
  unfold movFromDr at h
  rw [← Reg.toBits_ofBits rm]
  split_ifs at h with h4 h5 <;> cases h
  · subst h4
    exact .of_operand_none rfl bs rfl
  · subst h5
    exact .of_operand_none rfl bs rfl

theorem movToDr_spells {md : BitVec 2} {n rm : BitVec 3} {i : Instr} {k : Nat} (bs : List Byte)
    (h : movToDr md n (Reg.ofBits rm) = .instr i k) : Spells (0x0F#8 :: 0x23#8 :: modRM md n rm :: bs) i k := by
  unfold movToDr at h
  rw [← Reg.toBits_ofBits rm]
  split_ifs at h with h4 h5 <;> cases h
  · subst h4
    exact .of_operand_none rfl bs rfl
  · subst h5
    exact .of_operand_none rfl bs rfl

/-! ### Memory forms (R111, R119, R120) -/

/-- A memory form is spelled by its opcode, its ModR/M byte and the bytes of its operand. -/
theorem memoryForm_spells {mk : MemOperand → Instr} {op : Byte} {md : BitVec 2} {n rm : BitVec 3} {bs : List Byte}
    {i : Instr} {k : Nat}
    (hmk : ∀ m, (mk m).operand = some m ∧ (mk m).length = 3 + m.size ∧ encode (mk m) = encodeM op n m)
    (h : memoryForm mk md rm bs = .instr i k) : Spells (0x0F#8 :: op :: modRM md n rm :: bs) i k := by
  obtain ⟨m, rest, rfl, rfl, rfl, rfl, hw, rfl⟩ := memoryForm_some h
  obtain ⟨ho, hl, he⟩ := hmk m
  refine ⟨?_, hl.symm, rest, ?_⟩
  · intro m' hm'
    rw [ho] at hm'
    cases hm'
    exact hw
  · rw [he]
    rfl

theorem prefetchForm_spells {md : BitVec 2} {n rm : BitVec 3} {bs : List Byte} {i : Instr} {k : Nat}
    (h : prefetchForm md n rm bs = .instr i k) : Spells (0x0F#8 :: 0x18#8 :: modRM md n rm :: bs) i k := by
  unfold prefetchForm at h
  split_ifs at h with h0 h1 h2 h3
  · subst h0; exact memoryForm_spells (fun _ => ⟨rfl, rfl, rfl⟩) h
  · subst h1; exact memoryForm_spells (fun _ => ⟨rfl, rfl, rfl⟩) h
  · subst h2; exact memoryForm_spells (fun _ => ⟨rfl, rfl, rfl⟩) h
  · subst h3; exact memoryForm_spells (fun _ => ⟨rfl, rfl, rfl⟩) h

/-- With `mod` = 11b the fences, else the memory forms. -/
theorem groupAE_spells {md : BitVec 2} {n rm : BitVec 3} {bs : List Byte} {i : Instr} {k : Nat}
    (h : groupAE md n rm bs = .instr i k) : Spells (0x0F#8 :: 0xAE#8 :: modRM md n rm :: bs) i k := by
  unfold groupAE at h
  split_ifs at h with hmd hs hl hm h0 h1 h7
  · cases h; obtain ⟨rfl, rfl⟩ := hs; subst hmd; exact .of_operand_none rfl bs rfl
  · cases h; obtain ⟨rfl, rfl⟩ := hl; subst hmd; exact .of_operand_none rfl bs rfl
  · cases h; obtain ⟨rfl, rfl⟩ := hm; subst hmd; exact .of_operand_none rfl bs rfl
  · subst h0; exact memoryForm_spells (fun _ => ⟨rfl, rfl, rfl⟩) h
  · subst h1; exact memoryForm_spells (fun _ => ⟨rfl, rfl, rfl⟩) h
  · subst h7; exact memoryForm_spells (fun _ => ⟨rfl, rfl, rfl⟩) h

theorem movnti_spells {md : BitVec 2} {n rm : BitVec 3} {bs : List Byte} {i : Instr} {k : Nat}
    (h : memoryForm (fun m => .movnti m (Reg.ofBits n)) md rm bs = .instr i k) :
    Spells (0x0F#8 :: 0xC3#8 :: modRM md n rm :: bs) i k :=
  memoryForm_spells (fun _ => ⟨rfl, rfl, by rw [encode, Reg.toBits_ofBits]⟩) h

/-! ### The opcodes -/

theorem decodeModRM_spells {op : Byte} {md : BitVec 2} {n rm : BitVec 3} {bs : List Byte} {i : Instr} {k : Nat}
    (h : decodeModRM op md n rm bs = .instr i k) : Spells (0x0F#8 :: op :: modRM md n rm :: bs) i k := by
  unfold decodeModRM at h
  split_ifs at h with h20 h22 h21 h23 hAE h18 hC3 h01
  · cases h; subst h20; exact movFromCr_spells md n rm bs
  · cases h; subst h22; exact movToCr_spells md n rm bs
  · subst h21; exact movFromDr_spells bs h
  · subst h23; exact movToDr_spells bs h
  · subst hAE; exact groupAE_spells h
  · subst h18; exact prefetchForm_spells h
  · subst hC3; exact movnti_spells h

theorem decodeEscape_spells {bs : List Byte} {i : Instr} {k : Nat} (h : decodeEscape bs = .instr i k) :
    Spells (0x0F#8 :: bs) i k := by
  cases bs with
  | nil => cases h
  | cons op rest =>
    simp only [decodeEscape] at h
    split_ifs at h with h06 h31 h33 hA2 hm
    · cases h; subst h06; exact .of_operand_none rfl rest rfl
    · cases h; subst h31; exact .of_operand_none rfl rest rfl
    · cases h; subst h33; exact .of_operand_none rfl rest rfl
    · cases h; subst hA2; exact .of_operand_none rfl rest rfl
    · cases rest with
      | nil => cases h
      | cons b bs => simpa only [modRM_fields] using decodeModRM_spells h

/-- The x87 class: a register form is two bytes, a memory form has an operand (R116). -/
theorem decodeX87_spells {op : BitVec 3} {bs : List Byte} {i : Instr} {k : Nat} (h : decodeX87 op bs = .instr i k) :
    Spells ((0x1B#5 ++ op : Byte) :: bs) i k := by
  cases bs with
  | nil => cases h
  | cons b bs =>
    simp only [decodeX87] at h
    rw [← modRM_fields b]
    split_ifs at h with hmd
    · cases h
      rw [hmd]
      exact .of_operand_none rfl bs rfl
    · split at h
      · cases h
      · next m hm =>
        cases h
        obtain ⟨hmd', hrm, hw, rest, rfl⟩ := takeOperand_some hm
        refine ⟨?_, rfl, rest, ?_⟩
        · intro m' hm'
          cases hm'
          exact hw hmd
        · rw [← hmd', ← hrm]
          rfl

theorem decodeF3_spells {bs : List Byte} {i : Instr} {k : Nat} (h : decodeF3 bs = .instr i k) :
    Spells (0xF3#8 :: bs) i k := by
  cases bs with
  | nil => cases h
  | cons b bs =>
    simp only [decodeF3] at h
    split_ifs at h with hb
    cases h
    subst hb
    exact .of_operand_none rfl bs rfl

theorem decodeRow_spells {bs : List Byte} {i : Instr} {k : Nat} (h : decodeRow bs = .instr i k) : Spells bs i k := by
  cases bs with
  | nil => cases h
  | cons b rest =>
    simp only [decodeRow] at h
    split_ifs at h with h0F h9B hF3 hx87
    · subst h0F; exact decodeEscape_spells h
    · cases h; subst h9B; exact .of_operand_none rfl rest rfl
    · subst hF3; exact decodeF3_spells h
    · rw [← x87Byte_of_fields b hx87]
      exact decodeX87_spells h

/-! ### Lengths (10_state.md R71) -/

/-- The encoding of an instruction has its length: memory forms by the size of their operand, the others byte by byte. -/
theorem encode_length (i : Instr) : (encode i).length = i.length := by
  cases i with
  | x87 op ext o => exact (Laws.EncodedLength.x87 op ext o).1
  | fxsave m | fxrstor m | prefetchnta m | prefetcht0 m | prefetcht1 m | prefetcht2 m | clflush m =>
    exact Laws.EncodedLength.encodeM_length _ _ m
  | movnti m g => exact Laws.EncodedLength.encodeM_length _ _ m
  | _ => rfl

/-- Settles O2: what is read as an instruction was read as a row, and each row is spelled by the encoder's bytes. -/
theorem encodeOfDecode : Obligations.EncodeOfDecode := by
  intro bs i n h
  obtain ⟨hw, rfl, rest, rfl⟩ := decodeRow_spells (decodeRow_of_decode h)
  refine ⟨hw, rfl, ?_, ?_⟩
  · rw [List.length_append, encode_length]
    omega
  · exact List.take_left' (encode_length i)

end Sys2Proof
end

section
/-! The state over one step: what every instruction keeps, who writes a control register, the invariant, and the reserved
bits (10_state.md sections 2, 7, 8 and 9). -/

namespace Sys2Proof.Machine

/-! ### What every instruction keeps, whatever it ends in (10_state.md R65, R66) -/

/-- The parameters, the arrivals, the privilege level and the system flags stand, and memory keeps its form. -/
def InstrKeeps (s t : State) : Prop :=
  t.params = s.params ∧ t.cpl = s.cpl ∧ t.arrivals = s.arrivals ∧ s.SystemFlagsKept t.eflags ∧ MemoryKept s t

theorem InstrKeeps.raise (s : State) (e : Exc) : InstrKeeps s (s.raise e) :=
  ⟨rfl, rfl, rfl, s.kept_refl, .of_eq rfl⟩

theorem Raises.keeps {s t : State} (h : Raises s t) : InstrKeeps s t := by
  obtain ⟨e, rfl, -⟩ := h
  exact .raise s e

theorem PageFaults.keeps {op : Option DataAccess} {s t : State} (h : PageFaults op s t) : InstrKeeps s t := by
  obtain ⟨pf, -, -, rfl, -⟩ := h
  exact ⟨rfl, rfl, rfl, s.kept_refl, .of_eq rfl⟩

theorem Completes.keeps {s t : State} (h : Completes s t) : InstrKeeps s t := h.2

theorem Plain.keeps {op : Option DataAccess} {s t : State} (h : Plain op s t) : InstrKeeps s t := by
  rcases h with h | h | ⟨h, -⟩
  · exact h.keeps
  · exact h.keeps
  · exact h.keeps

/-- The report of an x87 error writes the record of the exception and of the error only, over the instruction it follows. -/
theorem ReportsError.keeps {i : Instr} {s t : State} (h : ReportsError i s t) : InstrKeeps s t := by
  obtain ⟨-, -, rfl | ⟨u, hu, -, -, rfl⟩⟩ := h
  · exact ⟨rfl, rfl, rfl, s.kept_refl, .of_eq rfl⟩
  · exact hu.keeps

theorem exec_keeps {i : Instr} {s t : State} (h : exec i s = .next t) : InstrKeeps s t := by
  rcases exec_cases h with h | h | h | ⟨h, -⟩
  · exact h.keeps
  · exact h.keeps
  · exact h.keeps
  · exact h.keeps

theorem execUnlisted_keeps {c : ClassInfo} {bs : List Byte} {s t : State} (h : execUnlisted c bs s = .next t) :
    InstrKeeps s t := by
  rcases execUnlisted_cases h with h | ⟨rfl, -⟩
  · exact h.keeps
  · exact .raise s _

theorem runInstr_keeps {s t : State} (h : runInstr s = .next t) : InstrKeeps s t := by
  rcases runInstr_cases h with ⟨i, -, h⟩ | ⟨c, bs, -, h⟩ | h
  · exact exec_keeps h
  · exact execUnlisted_keeps h
  · exact h.keeps

/-- Settles O15: `InstrKeeps` holds of the table's instructions and of the classes without a row. -/
theorem execKeepsPrivilege : Obligations.ExecKeepsPrivilege := by
  rintro s t (⟨i, h⟩ | ⟨c, bs, h⟩)
  · obtain ⟨hp, hc, ha, hf, -⟩ := exec_keeps h
    exact ⟨hc, hp, ha, hf⟩
  · obtain ⟨hp, hc, ha, hf, -⟩ := execUnlisted_keeps h
    exact ⟨hc, hp, ha, hf⟩

/-! ### MOV to CR0 and the mode (40_mov_cr.md R146, 10_state.md R68) -/

/-- A MOV to CR0 that has a next state raises #GP(0), or puts the value into CR0. -/
theorem execMovCr0R32_next {r : Reg} {s t : State} (h : execMovCr0R32 r s = .next t) :
    t = s.raise (.gp 0#32) ∨ t = ({ s with cr0 := s.reg r } : State).freeStatus.advance 3 := by
  unfold execMovCr0R32 finishMovToCr at h
  dsimp only at h
  split_ifs at h <;> cases h
  · exact .inl rfl
  · exact .inl rfl
  · exact .inr rfl

/-- Settles O27: the written value is CR0, and the write keeps VM. -/
theorem modeFollowsPe : Obligations.ModeFollowsPe := by
  intro md r s t _ h hn
  rcases execMovCr0R32_next h with rfl | rfl
  · cases hn
  · have hpe : (({ s with cr0 := s.reg r } : State).freeStatus.advance 3).pe = (s.reg r).getLsbD 0 := rfl
    have hvm : (({ s with cr0 := s.reg r } : State).freeStatus.advance 3).vm = s.eflags.getLsbD 17 :=
      vmOf_of_kept (s := s) s.freeStatus_kept
    unfold State.mode
    rw [hpe, hvm]

/-! ### Delivery and task switch (60_exceptions.md R245, R246; 41_ts_clts.md R170) -/

/-- A delivery is a transfer that clears the record of the exception, and then sets TS if it goes by a task switch. -/
theorem State.deliver_eq (s : State) (e : Exc) :
    ∃ tr, s.deliver e = { s.transfer tr with raised := none, draws := s.draws + 1 } ∨
      s.deliver e = ({ s.transfer tr with raised := none, draws := s.draws + 1 } : State).setTs := by
  refine ⟨Config.deliver e s.pc s.draws, ?_⟩
  unfold State.deliver
  dsimp only
  split_ifs
  · exact .inr rfl
  · exact .inl rfl

/-- Settles O7: the step is the delivery, and a transfer names none of these fields. -/
theorem deliveryKeepsControlRegisters : Obligations.DeliveryKeepsControlRegisters := by
  intro s e h
  refine ⟨s.deliver e, step_raised h, ?_⟩
  obtain ⟨tr, ht | ht⟩ := s.deliver_eq e <;> rw [ht]
  · exact ⟨rfl, .inl rfl, rfl, rfl, rfl, rfl, rfl, rfl, rfl, rfl⟩
  · exact ⟨rfl, .inr rfl, rfl, rfl, rfl, rfl, rfl, rfl, rfl, rfl⟩

/-! ### The control registers over a step (10_state.md R63) -/

/-- How a step that is no delivery and no task switch leaves CR0, CR2, CR3 and CR4: as they stood; with another CR2, by a page
fault; or written by the instruction at `pc`. -/
inductive ControlStep (s t : State) : Prop
  | same (h : SameControl s t)
  | pageFault (ht : t.raised = some .pf) (h0 : t.cr0 = s.cr0) (h3 : t.cr3 = s.cr3) (h4 : t.cr4 = s.cr4)
  | written (i : Instr) (hf : s.fetch = .instr i) (h : ControlWritten i s t)

theorem SameControl.raise (s : State) (e : Exc) : SameControl s (s.raise e) := ⟨rfl, rfl, rfl, rfl⟩

theorem Raises.sameControl {s t : State} (h : Raises s t) : SameControl s t := by
  obtain ⟨e, rfl, -⟩ := h
  exact .raise s e

theorem ReportsError.sameControl {i : Instr} {s t : State} (h : ReportsError i s t) : SameControl s t := by
  obtain ⟨-, -, rfl | ⟨u, -, hu, -, rfl⟩⟩ := h
  · exact ⟨rfl, rfl, rfl, rfl⟩
  · exact hu

theorem PageFaults.controlStep {op : Option DataAccess} {s t : State} (h : PageFaults op s t) : ControlStep s t := by
  obtain ⟨pf, -, -, rfl, -⟩ := h
  exact .pageFault rfl rfl rfl rfl

theorem Plain.controlStep {op : Option DataAccess} {s t : State} (h : Plain op s t) : ControlStep s t := by
  rcases h with h | h | ⟨-, h⟩
  · exact .same h.sameControl
  · exact h.controlStep
  · exact .same h

theorem exec_controlStep {i : Instr} {s t : State} (hf : s.fetch = .instr i) (h : exec i s = .next t) :
    ControlStep s t := by
  rcases exec_cases h with h | h | h | ⟨-, h | h⟩
  · exact .same h.sameControl
  · exact h.controlStep
  · exact .same h.sameControl
  · exact .same h
  · exact .written i hf h

theorem runInstr_controlStep {s t : State} (h : runInstr s = .next t) : ControlStep s t := by
  rcases runInstr_plain h with ⟨i, hf, h⟩ | ⟨op, h⟩ | rfl
  · exact exec_controlStep hf h
  · exact h.controlStep
  · exact .same (.raise s _)

/-- Consuming an arrival first changes no register and not what is fetched. -/
theorem ControlStep.of_arrivals {s t : State} {q : List (Option Event)} (h : ControlStep { s with arrivals := q } t) :
    ControlStep s t := by
  cases h with
  | same h => exact .same h
  | pageFault ht h0 h3 h4 => exact .pageFault ht h0 h3 h4
  | written i hf h => exact .written i (s.fetch_arrivals q ▸ hf) h

/-- What a delivery or a task switch does to the control registers: at most TS is set (60_exceptions.md R246). -/
def AtMostSetsTs (s t : State) : Prop :=
  (t.cr0 = s.cr0 ∨ t.cr0 = s.cr0 ||| 0x00000008#32) ∧ t.cr2 = s.cr2 ∧ t.cr3 = s.cr3 ∧ t.cr4 = s.cr4

theorem State.deliver_atMostSetsTs (s : State) (e : Exc) : AtMostSetsTs s (s.deliver e) := by
  obtain ⟨tr, ht | ht⟩ := s.deliver_eq e <;> rw [ht]
  · exact ⟨.inl rfl, rfl, rfl, rfl⟩
  · exact ⟨.inr rfl, rfl, rfl, rfl⟩

/-- Everything a step can do to the control registers. -/
theorem step_control {s t : State} (h : step s = .next t) :
    ((s.raised ≠ none ∨ ∃ rest, s.arrivals = some .taskSwitch :: rest) ∧ AtMostSetsTs s t) ∨
      (s.raised = none ∧ ControlStep s t) := by
  rcases step_cases h with ⟨e, he, rfl⟩ | ⟨hn, rest, -, h⟩ | ⟨-, rest, ha, rfl⟩ | ⟨hn, rest, -, -, rfl⟩ |
    ⟨hn, rest, -, rfl⟩ | ⟨hn, rest, b, -, rfl⟩
  · exact .inl ⟨.inl (by simp [he]), s.deliver_atMostSetsTs e⟩
  · exact .inr ⟨hn, (runInstr_controlStep h).of_arrivals⟩
  · exact .inl ⟨.inr ⟨rest, ha⟩, .inr rfl, rfl, rfl, rfl⟩
  · exact .inr ⟨hn, .same ⟨rfl, rfl, rfl, rfl⟩⟩
  · exact .inr ⟨hn, .same ⟨rfl, rfl, rfl, rfl⟩⟩
  · exact .inr ⟨hn, .same ⟨rfl, rfl, rfl, rfl⟩⟩

/-- Settles O13: every way a step can treat the control registers, against the list of writers. -/
theorem controlRegisterWriters : Obligations.ControlRegisterWriters := by
  intro s t h
  rcases step_control h with ⟨who, -, h2, h3, h4⟩ | ⟨hn, hc⟩
  · exact ⟨fun _ => who.imp_right .inl, fun h => absurd h2 h, fun h => absurd h3 h, fun h => absurd h4 h⟩
  · cases hc with
    | same hc =>
      obtain ⟨h0, h2, h3, h4⟩ := hc
      exact ⟨fun h => absurd h0 h, fun h => absurd h2 h, fun h => absurd h3 h, fun h => absurd h4 h⟩
    | pageFault ht h0 h3 h4 =>
      exact ⟨fun h => absurd h0 h, fun _ => ⟨hn, .inl ht⟩, fun h => absurd h3 h, fun h => absurd h4 h⟩
    | written i hf hw =>
      obtain ⟨-, ⟨rfl, -, h2, h3, h4⟩ | ⟨md, r, rfl, -, -, -, h2, h3, h4⟩ | ⟨md, r, rfl, -, h0, h3, h4⟩ |
        ⟨md, r, rfl, -, -, h0, h2, h4⟩ | ⟨md, r, rfl, -, -, h0, h2, h3⟩⟩ := hw
      · exact ⟨fun _ => .inr (.inr (.inl hf)), fun h => absurd h2 h, fun h => absurd h3 h, fun h => absurd h4 h⟩
      · exact ⟨fun _ => .inr (.inr (.inr ⟨md, r, hf⟩)), fun h => absurd h2 h, fun h => absurd h3 h,
          fun h => absurd h4 h⟩
      · exact ⟨fun h => absurd h0 h, fun _ => ⟨hn, .inr ⟨md, r, hf⟩⟩, fun h => absurd h3 h, fun h => absurd h4 h⟩
      · exact ⟨fun h => absurd h0 h, fun h => absurd h2 h, fun _ => ⟨hn, md, r, hf⟩, fun h => absurd h4 h⟩
      · exact ⟨fun h => absurd h0 h, fun h => absurd h2 h, fun h => absurd h3 h, fun _ => ⟨hn, md, r, hf⟩⟩

/-! ### What else a step keeps -/

/-- The parameters stand, memory stays canonical (20_memory.md R80), and CPL 3 in virtual-8086 mode stays so (40_mov_cr.md
R141). -/
structure StepKeeps (s t : State) : Prop where
  params : t.params = s.params
  memory : Memory.wf s.mem → Memory.wf t.mem
  v86 : (s.vm = true → s.cpl = 3#2) → t.vm = true → t.cpl = 3#2

theorem InstrKeeps.stepKeeps {s t : State} (h : InstrKeeps s t) : StepKeeps s t := by
  obtain ⟨hp, hc, -, hf, hm, -⟩ := h
  exact ⟨hp, hm, fun hv ht => hc.trans (hv ((vmOf_of_kept hf).symm.trans ht))⟩

/-- In virtual-8086 mode a transfer leaves CPL 3. -/
theorem State.transfer_stepKeeps (s : State) (tr : Transfer) : StepKeeps s (s.transfer tr) :=
  ⟨rfl, s.transfer_wf tr, fun _ hv => if_pos hv⟩

theorem State.deliver_stepKeeps (s : State) (e : Exc) : StepKeeps s (s.deliver e) := by
  obtain ⟨tr, ht | ht⟩ := s.deliver_eq e <;> rw [ht]
  · exact ⟨rfl, (s.transfer_stepKeeps tr).memory, (s.transfer_stepKeeps tr).v86⟩
  · exact ⟨rfl, (s.transfer_stepKeeps tr).memory, (s.transfer_stepKeeps tr).v86⟩

theorem step_keeps {s t : State} (h : step s = .next t) : StepKeeps s t := by
  rcases step_cases h with ⟨e, -, rfl⟩ | ⟨-, rest, -, h⟩ | ⟨-, rest, -, rfl⟩ | ⟨-, rest, -, -, rfl⟩ |
    ⟨-, rest, -, rfl⟩ | ⟨-, rest, b, -, rfl⟩
  · exact s.deliver_stepKeeps e
  · obtain ⟨hp, hm, hv⟩ := (runInstr_keeps h).stepKeeps
    exact ⟨hp, hm, hv⟩
  · obtain ⟨hp, hm, hv⟩ := ({ s with arrivals := rest } : State).transfer_stepKeeps (Config.taskSwitch s.draws)
    exact ⟨hp, hm, hv⟩
  · exact ⟨rfl, id, id⟩
  · exact ⟨rfl, id, id⟩
  · exact ⟨rfl, id, id⟩

/-! ### The invariant (10_state.md R31, 92_eei_decisions.md D3, D4, D8) -/

/-- What the invariant asks of the value in CR0. -/
def Cr0Sound (p : Params) (v : Word) : Prop :=
  (etHardwired p = true → v.getLsbD 4 = true) ∧ (v.getLsbD 31 = true → v.getLsbD 0 = true) ∧
    (v.getLsbD 29 = true → v.getLsbD 30 = true)

theorem State.inv_iff (s : State) :
    s.Inv ↔ Memory.wf s.mem ∧ Cr0Sound s.params s.cr0 ∧ (s.vm = true → s.cpl = 3#2) := by
  simp only [State.Inv, Cr0Sound, State.pg, State.pe, State.nw, State.cd, and_assoc]

theorem resetSound_iff (p : Params) : ResetSound p ↔ Cr0Sound p p.resetCr0 := Iff.rfl

/-- The constraint does not look at TS. -/
theorem Cr0Sound.of_but_ts {p : Params} {v w : Word} (h : Cr0Sound p v)
    (hw : w = v ||| 0x00000008#32 ∨ w = v &&& ~~~0x00000008#32) : Cr0Sound p w := by
  unfold Cr0Sound at h ⊢
  rcases hw with rfl | rfl
  · simpa using h
  · simpa using h

/-- A value is permitted exactly if it sets PG only with PE and NW only with CD (D4, D8). -/
theorem cr0ValueForbidden_eq_false {v : Word} :
    cr0ValueForbidden v = false ↔
      (v.getLsbD 31 = true → v.getLsbD 0 = true) ∧ (v.getLsbD 29 = true → v.getLsbD 30 = true) := by
  unfold cr0ValueForbidden
  generalize v.getLsbD 31 = pg, v.getLsbD 0 = pe, v.getLsbD 29 = nw, v.getLsbD 30 = cd
  revert pg pe nw cd
  decide

/-- ET reads as 1 where it is hardwired, so a value that keeps the reserved bits as read has it set (R31, R62). -/
theorem Cr0Sound.of_written {s : State} {v : Word} (hf : cr0ValueForbidden v = false)
    (hr : v &&& rsvd0 s.params = s.readCr0 &&& rsvd0 s.params) : Cr0Sound s.params v := by
  refine ⟨fun he => ?_, cr0ValueForbidden_eq_false.mp hf⟩
  have hbit := congrArg (fun w : Word => w.getLsbD 4) hr
  simpa [rsvd0, State.readCr0, he] using hbit

theorem ControlWritten.cr0Sound {i : Instr} {s t : State} (h : ControlWritten i s t) (hs : Cr0Sound s.params s.cr0) :
    Cr0Sound s.params t.cr0 := by
  obtain ⟨-, ⟨-, h0, -⟩ | ⟨_, r, -, h0, hf, hr, -⟩ | ⟨_, r, -, -, h0, -⟩ | ⟨_, r, -, -, -, h0, -⟩ |
    ⟨_, r, -, -, -, h0, -⟩⟩ := h <;> rw [h0]
  · exact hs.of_but_ts (.inr rfl)
  · exact .of_written hf hr
  · exact hs
  · exact hs
  · exact hs

theorem step_cr0Sound {s t : State} (h : step s = .next t) (hs : Cr0Sound s.params s.cr0) :
    Cr0Sound s.params t.cr0 := by
  rcases step_control h with ⟨-, h0 | h0, -⟩ | ⟨-, ⟨h0, -⟩ | ⟨-, h0, -⟩ | ⟨i, -, hw⟩⟩
  · rwa [h0]
  · exact hs.of_but_ts (.inl h0)
  · rwa [h0]
  · rwa [h0]
  · exact hw.cr0Sound hs

/-- Settles O11: what a step keeps, with the constraint on CR0. -/
theorem stepKeepsInv : Obligations.StepKeepsInv := by
  intro s t hi h
  obtain ⟨hm, h0, hv⟩ := s.inv_iff.mp hi
  obtain ⟨kp, km, kv⟩ := step_keeps h
  exact t.inv_iff.mpr ⟨km hm, kp ▸ step_cr0Sound h h0, kv hv⟩

/-! ### The reserved bits (10_state.md R36, R44, R57, R62) -/

/-- Where the invariant holds CR0 reads as it stands. -/
theorem State.readCr0_eq {s : State} (h : Cr0Sound s.params s.cr0) : s.readCr0 = s.cr0 := by
  unfold State.readCr0
  split_ifs with he
  · have hbit : ∀ i < 32, (0x00000010#32).getLsbD i = true → i = 4 := by decide
    refine BitVec.eq_of_getLsbD_eq fun i hi => ?_
    cases hb : (0x00000010#32).getLsbD i
    · simp [hb]
    · simp [hbit i hi hb, h.1 he]
  · rfl

/-- TS is no reserved bit. -/
theorem and_rsvd0_of_but_ts (p : Params) {v w : Word} (hw : w = v ||| 0x00000008#32 ∨ w = v &&& ~~~0x00000008#32) :
    w &&& rsvd0 p = v &&& rsvd0 p := by
  have hset : 0x00000008#32 &&& rsvd0 p = 0#32 := by unfold rsvd0; split_ifs <;> rfl
  have hclear : ~~~0x00000008#32 &&& rsvd0 p = rsvd0 p := by unfold rsvd0; split_ifs <;> rfl
  rcases hw with rfl | rfl
  · rw [BitVec.and_or_distrib_right, hset, BitVec.or_zero]
  · rw [BitVec.and_assoc, hclear]

/-- The reserved bits of CR0, CR3 (in the layout of the first state) and CR4 stand. -/
def ReservedKept (s t : State) : Prop :=
  t.cr0 &&& rsvd0 s.params = s.cr0 &&& rsvd0 s.params ∧ t.cr3 &&& s.rsvd3 = s.cr3 &&& s.rsvd3 ∧
    t.cr4 &&& rsvd4 s.params = s.cr4 &&& rsvd4 s.params

theorem ReservedKept.of_eq {s t : State} (h0 : t.cr0 = s.cr0) (h3 : t.cr3 = s.cr3) (h4 : t.cr4 = s.cr4) :
    ReservedKept s t := by
  unfold ReservedKept
  rw [h0, h3, h4]
  exact ⟨rfl, rfl, rfl⟩

/-- No permitted write changes a reserved bit (R62, D5). -/
theorem ControlWritten.reservedKept {i : Instr} {s t : State} (h : ControlWritten i s t) (hs : Cr0Sound s.params s.cr0) :
    ReservedKept s t := by
  obtain ⟨-, ⟨-, h0, -, h3, h4⟩ | ⟨_, r, -, h0, -, hr, -, h3, h4⟩ | ⟨_, r, -, -, h0, h3, h4⟩ |
    ⟨_, r, -, h3, hr, h0, -, h4⟩ | ⟨_, r, -, h4, hr, h0, -, h3⟩⟩ := h
  · exact ⟨and_rsvd0_of_but_ts _ (.inr h0), by rw [h3], by rw [h4]⟩
  · exact ⟨by rw [h0, hr, State.readCr0_eq hs], by rw [h3], by rw [h4]⟩
  · exact .of_eq h0 h3 h4
  · exact ⟨by rw [h0], by rw [h3, hr], by rw [h4]⟩
  · exact ⟨by rw [h0], by rw [h3], by rw [h4, hr]⟩

theorem step_reservedKept {s t : State} (h : step s = .next t) (hs : Cr0Sound s.params s.cr0) : ReservedKept s t := by
  rcases step_control h with ⟨-, h0 | h0, -, h3, h4⟩ | ⟨-, ⟨h0, -, h3, h4⟩ | ⟨-, h0, h3, h4⟩ | ⟨i, -, hw⟩⟩
  · exact .of_eq h0 h3 h4
  · exact ⟨and_rsvd0_of_but_ts _ (.inl h0), by rw [h3], by rw [h4]⟩
  · exact .of_eq h0 h3 h4
  · exact .of_eq h0 h3 h4
  · exact hw.reservedKept hs

/-- Settles O12: the reserved bits by the writers of the control registers, the parameters by what every step keeps. -/
theorem reservedBitsConstant : Obligations.ReservedBitsConstant := by
  intro s t hi h
  obtain ⟨-, h0, -⟩ := s.inv_iff.mp hi
  exact ⟨(step_keeps h).params, step_reservedKept h h0⟩

/-! ### Reset (10_state.md R76) -/

/-- Settles O9: each field is the one `resetOf` names, and the default CR0 has PE clear. -/
theorem resetState : Obligations.ResetState :=
  ⟨fun _ => ⟨rfl, rfl, rfl, rfl, rfl⟩, rfl, rfl, rfl, rfl, rfl⟩

/-- Reset leaves VM clear. -/
theorem State.resetOf_vm (p : Params) : (State.resetOf p).vm = false := by
  show vmOf 0x00000002#32 = false
  decide

/-- Settles O10: reset lists no memory, is not in virtual-8086 mode, and takes CR0 from the parameters. -/
theorem invAtReset : Obligations.InvAtReset := by
  refine ⟨by unfold ResetSound; decide, fun p hp => ?_⟩
  refine (State.inv_iff _).mpr ⟨State.resetOf_mem_wf p, (resetSound_iff p).mp hp, fun hv => ?_⟩
  rw [State.resetOf_vm] at hv
  cases hv

end Sys2Proof.Machine
end

section
/-! Paging, its formulas, and the width of a physical address (20_memory.md sections 1 and 3). -/

namespace Sys2Proof.Machine

/-! ### Translation with paging active (R81, R86, R87) -/

theorem State.pagingActive_iff (s : State) :
    s.pagingActive = true ↔ s.cr0.getLsbD 31 = true ∧ s.cr0.getLsbD 0 = true :=
  Bool.and_eq_true_iff

/-- No page found: the page fault, with the address the translation gave for it. -/
theorem State.translate_absent {s : State} {k : AccessKind} {a : Word} (h : s.pagingActive = true)
    (hp : (Config.translate (s.translateRequest k a) s.mem).page = none) :
    s.translate k a = .error (Config.translate (s.translateRequest k a) s.mem).pfAddr := by
  simp only [State.translate, h, hp, if_true]

/-- A page found: its address in the width in force, unless WP forbids the write. -/
theorem State.translate_present {s : State} {k : AccessKind} {a : Word} {pg : Page} (h : s.pagingActive = true)
    (hp : (Config.translate (s.translateRequest k a) s.mem).page = some pg) :
    s.translate k a =
      if s.writeForbidden k pg then .error (Config.translate (s.translateRequest k a) s.mem).pfAddr
      else .ok (s.clipPhys pg.phys) := by
  simp only [State.translate, h, hp, if_true]

/-- An address of 36 bits fits with PAE set, and is cut to 32 with PAE clear (R83). -/
theorem State.clipPhys_eq (s : State) (p : BitVec 36) :
    s.clipPhys p = if s.pae then p.toNat else p.toNat % 2 ^ 32 := by
  unfold State.clipPhys State.physAddrBits
  split_ifs
  · exact Nat.mod_eq_of_lt p.isLt
  · rfl

/-- Settles O52: the translation without paging, with no page found, and with a page found. -/
theorem pagingOffIsIdentity : Obligations.PagingOffIsIdentity := by
  refine fun s k a => ⟨s.pagingActive_iff, fun h => State.translate_off h k a, fun h => ⟨rfl, rfl, ?_⟩⟩
  cases hp : (Config.translate (s.translateRequest k a) s.mem).page with
  | none => exact .inl ⟨_, State.translate_absent h hp⟩
  | some pg =>
    rw [State.translate_present h hp]
    cases s.writeForbidden k pg
    · exact .inr ⟨pg, rfl, congrArg Except.ok (s.clipPhys_eq pg.phys)⟩
    · exact .inl ⟨_, rfl⟩

/-- At supervisor level WP forbids exactly the write to a read-only user page (R87). -/
theorem State.writeForbidden_iff {s : State} (hc : s.cpl ≠ 3#2) (pg : Page) :
    s.writeForbidden .write pg = true ↔ s.wp = true ∧ pg.user = true ∧ pg.readOnly = true := by
  simp [State.writeForbidden, hc, and_assoc]

/-- Settles O53: a write faults where no page is found, and at a page exactly if it is forbidden. -/
theorem writeProtectRule : Obligations.WriteProtectRule := by
  refine fun s a h hc => ⟨State.writeForbidden_iff hc, ?_⟩
  cases hp : (Config.translate (s.translateRequest .write a) s.mem).page with
  | none => exact ⟨_, State.translate_absent h hp⟩
  | some pg =>
    show (∃ pf, s.translate .write a = .error pf) ↔ _
    rw [State.translate_present h hp, ← State.writeForbidden_iff hc pg]
    cases s.writeForbidden .write pg <;> simp

/-! ### The page-directory base and the width of a physical address (R82, R83) -/

theorem and_highBits_eq_append (w : Word) : w &&& 0xFFFFF000#32 = w.extractLsb' 12 20 ++ 0#12 := by
  have hbit : ∀ i < 32, (0xFFFFF000#32).getLsbD i = !decide (i < 12) := by decide
  refine BitVec.eq_of_getLsbD_eq fun i hi => ?_
  rw [BitVec.getLsbD_and, hbit i hi, BitVec.getLsbD_append, BitVec.getLsbD_extractLsb']
  by_cases h : i < 12
  · simp [h]
  · simp [h, show i - 12 < 20 by omega, show 12 + (i - 12) = i by omega]

/-- A step keeps memory canonical and changes no byte beyond the width in force. -/
theorem step_memoryKept {s t : State} (h : step s = .next t) : MemoryKept s t := by
  rcases step_cases h with ⟨e, -, rfl⟩ | ⟨-, rest, -, h⟩ | ⟨-, rest, -, rfl⟩ | ⟨-, rest, -, -, rfl⟩ |
    ⟨-, rest, -, rfl⟩ | ⟨-, rest, b, -, rfl⟩
  · obtain ⟨tr, ht | ht⟩ := s.deliver_eq e <;> rw [ht] <;> exact .of_transfer s tr
  · obtain ⟨-, -, -, -, hm⟩ := runInstr_keeps h
    exact hm
  · exact .of_transfer { s with arrivals := rest } _
  · exact .of_eq rfl
  · exact .of_eq rfl
  · exact .of_eq rfl

theorem State.two_pow_physAddrBits (s : State) : 2 ^ s.physAddrBits = if s.pae then 2 ^ 36 else 2 ^ 32 := by
  unfold State.physAddrBits
  split_ifs <;> rfl

/-- Settles O56: the bound is the width in force, which translation, access, transfer and step all respect. -/
theorem pageDirectoryBase : Obligations.PageDirectoryBase := by
  intro s
  refine ⟨fun hp => ?_, ?_⟩
  · have hb : s.tableBase = s.cr3.extractLsb' 12 20 ++ 0#12 := by
      rw [State.tableBase, hp, ← and_highBits_eq_append]; rfl
    refine ⟨hb, ?_⟩
    rw [hb, BitVec.toNat_append]
    simp [Nat.shiftLeft_eq]
  · rw [← s.two_pow_physAddrBits]
    exact ⟨fun k a p => State.translate_lt_bits, fun k b n a ps h => (State.access_ok h).2,
      fun tr => (MemoryKept.of_transfer s tr).2, fun t p h => (step_memoryKept h).2 p⟩

/-! ### Caching (R95, R97) -/

/-- Settles O57: each formula at the flags it tests. -/
theorem cacheFormulas : Obligations.CacheFormulas := by
  refine fun s => ⟨by simp [State.cachingEnabled], fun h hp => ?_, fun h hp => ?_, fun h => ?_, fun hg hd hc => ?_,
    fun hg hd hc => ?_⟩
  · simp [State.cachePolicy, h, writePolicy, hp]
  · rcases hp with hp | hp | hp <;> simp [State.cachePolicy, h, writePolicy, hp]
  · rcases h with h | h <;> simp [State.pdCaching, State.pdAttrUsed, h]
  · simp [State.pdCaching, State.pdAttrUsed, hg, hd, hc]
  · simp [State.pdCaching, State.pdAttrUsed, hg, hd, hc]

end Sys2Proof.Machine
end

section
/-! Instructions that reach their operand, and the alignment check (20_memory.md section 2). -/

namespace Sys2Proof.Machine

/-! ### CLFLUSH and MOVNTI where their bytes are within reach (R81, R86, R92) -/

/-- Settles O43: the access answers, and nothing comes of it. -/
theorem clflushCompletes : Obligations.ClflushCompletes := by
  intro m s ps h
  have ha : s.access .read 1 1 (s.effAddr m) = .ok ps := State.access_of_reaches (d := ⟨m, .read, 1, 1⟩) h
  simp only [exec, execClflush, ha]
  rfl

theorem exec_movnti_of_reaches {m : MemOperand} {g : Reg} {s : State} {ps : List Nat}
    (h : s.Reaches (s.dataAccess (.movnti m g)) ps) :
    exec (.movnti m g) s =
      .next { s with mem := s.memAfter (ps.zip (leBytes 4 (s.reg g).toNat)), pc := s.pc + BitVec.ofNat 32 (3 + m.size) } := by
  have ha : s.access .write 4 4 (s.effAddr m) = .ok ps := State.access_of_reaches (d := ⟨m, .write, 4, 4⟩) h
  simp only [exec, execMovnti, ha]
  rfl

/-! ### The alignment check (R92) -/

theorem State.alignmentCheckActive_iff (s : State) :
    s.alignmentCheckActive = true ↔
      s.am = true ∧ s.ac = true ∧ s.cpl = 3#2 ∧ (s.mode = .protectedMode ∨ s.mode = .v86Mode) := by
  simp [State.alignmentCheckActive, and_assoc]

/-- An active alignment check stops an access off its boundary, before any translation. -/
theorem State.access_misaligned {s : State} {b : Nat} {a : Word} (h : s.alignmentCheckActive = true)
    (ha : a.toNat % b ≠ 0) (k : AccessKind) (n : Nat) : s.access k b n a = .stop (s.raise (.ac 0#32)) := by
  simp [State.access, h, ha]

theorem Raises.ac_active {s t : State} {c : Word} (h : Raises s t) (ht : t.raised = some (.ac c)) :
    s.alignmentCheckActive = true := by
  obtain ⟨e, rfl, -, -, -, -, hac⟩ := h
  exact hac c (Option.some.inj ht)

theorem Plain.ac_active {op : Option DataAccess} {s t : State} {c : Word} (h : Plain op s t) (hs : s.raised = none)
    (ht : t.raised = some (.ac c)) : s.alignmentCheckActive = true := by
  rcases h with h | ⟨_, _, _, rfl, -⟩ | ⟨⟨hr, -⟩, -⟩
  · exact h.ac_active ht
  · cases ht
  · rw [hr, hs] at ht; cases ht

theorem exec_ac_active {i : Instr} {s t : State} {c : Word} (h : exec i s = .next t) (hs : s.raised = none)
    (ht : t.raised = some (.ac c)) : s.alignmentCheckActive = true := by
  rcases exec_cases h with h | ⟨_, _, _, rfl, -⟩ | ⟨-, -, rfl | ⟨_, -, -, -, rfl⟩⟩ | ⟨⟨hr, -⟩, -⟩
  · exact h.ac_active ht
  · cases ht
  · cases ht
  · cases ht
  · rw [hr, hs] at ht; cases ht

theorem runInstr_ac_active {s t : State} {c : Word} (h : runInstr s = .next t) (hs : s.raised = none)
    (ht : t.raised = some (.ac c)) : s.alignmentCheckActive = true := by
  rcases runInstr_plain h with ⟨i, -, h⟩ | ⟨op, h⟩ | rfl
  · exact exec_ac_active h hs ht
  · exact h.ac_active hs ht
  · rw [State.raiseSimd_eq] at ht
    cases ho : s.osxmmexcpt <;> simp [ho] at ht

/-- No delivery and no arrival raises the alignment check; an instruction does under its condition only. -/
theorem step_ac_active {s t : State} {c : Word} (hs : s.raised = none) (h : step s = .next t)
    (ht : t.raised = some (.ac c)) : s.alignmentCheckActive = true := by
  rcases step_cases h with ⟨e, he, -⟩ | ⟨-, rest, -, h⟩ | ⟨-, rest, -, rfl⟩ | ⟨-, rest, -, -, rfl⟩ |
    ⟨-, rest, -, rfl⟩ | ⟨-, rest, b, -, rfl⟩
  · rw [hs] at he; cases he
  · exact runInstr_ac_active (s := { s with arrivals := rest }) h hs ht
  · exact absurd (hs.symm.trans ht) (by simp)
  · cases ht
  · exact absurd (hs.symm.trans ht) (by simp)
  · exact absurd (hs.symm.trans ht) (by simp)

/-- Four bytes stored from an address that is a multiple of 4 do not wrap, and each is where it was stored. -/
theorem State.read_stored_word {s : State} {a w : Word} (ha : a.toNat % 4 = 0) {k : Nat} (hk : k < 4)
    (hr : s.isRam (a.toNat + k) = true) :
    Memory.read (s.memAfter (((linearBytes a 4).map BitVec.toNat).zip (leBytes 4 w.toNat))) (a.toNat + k) =
      w.extractLsb' (8 * k) 8 := by
  refine State.read_memAfter_ram hr ?_ (List.mem_iff_getElem.mpr ⟨k, by simpa using hk, ?_⟩)
  · rw [List.map_fst_zip (by simp)]
    exact linearBytes_nodup a (by decide)
  · have hlt := a.isLt
    simp only [List.getElem_zip, leBytes_extract w k hk, linearBytes_eq_map, List.getElem_map, List.getElem_range,
      BitVec.toNat_add, BitVec.toNat_ofNat, Prod.mk.injEq, and_true]
    omega

/-- Settles O55: an alignment check comes of an access that makes it, and MOVNTI makes it on a boundary of 4. -/
theorem alignmentCheckOnlyWhenActive : Obligations.AlignmentCheckOnlyWhenActive := by
  refine ⟨fun s t c hs h ht => s.alignmentCheckActive_iff.mp (step_ac_active hs h ht), fun m g s ham hac hcpl hmode => ?_⟩
  have hact := s.alignmentCheckActive_iff.mpr ⟨ham, hac, hcpl, hmode⟩
  refine ⟨fun hoff => ?_, fun hon hp => ?_⟩
  · simp only [exec, execMovnti, State.access_misaligned hact hoff]
    rfl
  · have hreach : s.Reaches (s.dataAccess (.movnti m g)) ((linearBytes (s.effAddr m) 4).map BitVec.toNat) := by
      refine And.intro (fun _ => hon) ?_
      rw [hp]; rfl
    exact ⟨_, exec_movnti_of_reaches hreach, fun k hk hr => State.read_stored_word hon hk hr⟩

/-! ### An x87 instruction (42_fpu_simd_gating.md R181) -/

/-- Past its gate, with an FPU and no pending error, an x87 instruction commits its effect at the bytes it reaches. -/
theorem exec_x87_of_reaches {op ext : BitVec 3} {o : RmOperand} {s : State} {ps : List Nat}
    (hg : s.GateOpen (.x87 op ext o)) (h : s.Reaches (s.dataAccess (.x87 op ext o)) ps) :
    exec (.x87 op ext o) s = .next (s.numericCommit ps .x87 (Instr.length (.x87 op ext o))
      (Config.numericEffect (encode (.x87 op ext o)) s.draws)) := by
  obtain ⟨hem, hts, hfpu, herr⟩ := hg
  simp only [exec, execX87, hem, hts, hfpu, Bool.or_self, Bool.false_eq_true, if_false, State.reportFpuError_none herr,
    State.numeric, State.numericAccess_of_reaches (m := rmOperand o) h]

/-- Settles O33: the gate, then the commit of the effect; a register form reaches no byte. -/
theorem x87GateAndResult : Obligations.X87GateAndResult := by
  refine fun op ext o s => ⟨fun h => ?_, fun hem hts hfpu herr ps hps => ?_⟩
  · simp only [exec, execX87, Bool.or_eq_true, h, if_true]
    rfl
  · obtain ⟨f, hf, regs, hregs, hc⟩ := s.numericCommit_eq ps .x87 (Instr.length (.x87 op ext o))
      (Config.numericEffect (encode (.x87 op ext o)) s.draws)
    refine ⟨(Config.numericEffect (encode (.x87 op ext o)) s.draws).fpu, regs, f, _,
      (exec_x87_of_reaches ⟨hem, hts, hfpu, herr⟩ hps).trans ?_, hf, hregs, ?_, s.stored_memAfter _⟩
    · rw [hc, herr]; rfl
    · rintro rm rfl
      have hnil : ps = [] := hps
      rw [hnil]; rfl

end Sys2Proof.Machine
end

section
/-! What follows an instruction does not change how it is read, and an instruction placed for the fetch is what the step runs
(30_encoding.md section 1, 20_memory.md R81, R89). -/

namespace Sys2Proof

/-! ### The bytes of an instruction decode to it, whatever follows them -/

/-- A row of the `0F op modrm` register forms, read from its fields. -/
theorem decode_encodeRR {op : Byte} {md : BitVec 2} {n : BitVec 3} {r : Reg} {rest : List Byte} {d : Decoded}
    (h : decodeModRM op md n r.toBits rest = d) (hd : d ≠ .unlisted) (h1 : needsModRM op = true)
    (h2 : op ∉ [0x06#8, 0x31#8, 0x33#8, 0xA2#8]) : decode (encodeRR op md n r ++ rest) = d := by
  simp only [List.mem_cons, List.not_mem_nil, or_false, not_or] at h2
  obtain ⟨ha, hb, hc, he⟩ := h2
  exact decode_of_decodeRow ((decodeRow_encodeRR op md n r rest h1 ha hb hc he).trans h) hd

/-- A row of the `0F op modrm` memory forms, read from its fields. -/
theorem decode_encodeM {op : Byte} {n : BitVec 3} {m : MemOperand} {rest : List Byte} {mk : MemOperand → Instr}
    (hm : m.WellFormed) (h : decodeModRM op m.md n m.rm (m.tail ++ rest) = memoryForm mk m.md m.rm (m.tail ++ rest))
    (h1 : needsModRM op = true) (h2 : op ∉ [0x06#8, 0x31#8, 0x33#8, 0xA2#8]) :
    decode (encodeM op n m ++ rest) = .instr (mk m) (3 + m.size) := by
  simp only [List.mem_cons, List.not_mem_nil, or_false, not_or] at h2
  obtain ⟨ha, hb, hc, he⟩ := h2
  refine decode_of_decodeRow ?_ (by simp)
  rw [decodeRow_encodeM op n m rest h1 ha hb hc he, h, memoryForm_tail mk m hm rest]

/-- An x87 instruction, register or memory form, read from its first byte and its ModR/M byte (R116). -/
theorem decode_encode_x87 {op ext : BitVec 3} {o : RmOperand} (h : (Instr.x87 op ext o).WellFormed) (rest : List Byte) :
    decode (encode (.x87 op ext o) ++ rest) = .instr (.x87 op ext o) (Instr.length (.x87 op ext o)) := by
  obtain ⟨h5, h3, hesc, hwait, hf3, -⟩ := x87Byte_fields op
  refine decode_of_decodeRow ?_ (by simp)
  cases o with
  | reg rm =>
    simp only [encode, List.cons_append, List.nil_append, decodeRow, hesc, hwait, hf3, h5, h3, if_false, if_true,
      decodeX87, modField_modRM, regField_modRM, rmField_modRM, Instr.length]
  | mem m =>
    have hm : m.WellFormed := h m rfl
    simp only [encode, List.cons_append, decodeRow, hesc, hwait, hf3, h5, h3, if_false, if_true, decodeX87,
      modField_modRM, regField_modRM, rmField_modRM, hm.1, takeOperand_tail m hm, Instr.length]

theorem decode_encode {i : Instr} (h : i.WellFormed) (rest : List Byte) :
    decode (encode i ++ rest) = .instr i i.length := by
  cases i
  case clts | wait | rdtsc | rdpmc | cpuid | pause | sfence | lfence | mfence => rfl
  case x87 => exact decode_encode_x87 h rest
  case fxsave m | fxrstor m | clflush m | prefetchnta m | prefetcht0 m | prefetcht1 m | prefetcht2 m =>
    have hm : m.WellFormed := h m rfl
    exact decode_encodeM hm (by simp [decodeModRM, groupAE, prefetchForm, hm.1]) (by decide) (by decide)
  case movnti m g =>
    exact decode_encodeM (mk := fun m => .movnti m g) (h m rfl) (by simp [decodeModRM]) (by decide) (by decide)
  -- what is left are the register forms of R112, R113 and R118
  all_goals
    exact decode_encodeRR (by simp [decodeModRM, movFromCr, movToCr, movFromDr, movToDr, Instr.length]) (by simp)
      (by decide) (by decide)

/-- An instruction that is read is read again, whatever follows its bytes. -/
theorem decode_append {bs : List Byte} {i : Instr} {n : Nat} (h : decode bs = .instr i n) (rest : List Byte) :
    decode (bs ++ rest) = .instr i n := by
  obtain ⟨hwf, rfl, -, htake⟩ := encodeOfDecode bs i n h
  rw [← List.take_append_drop i.length bs, htake, List.append_assoc]
  exact decode_encode hwf _

theorem decode_of_decodeTableWord {nbits w : Nat} {i : Instr} (h : decodeTableWord nbits w = some i) :
    ∃ n, decode (paddedTableBytes nbits w) = .instr i n := by
  unfold decodeTableWord at h
  split at h
  · next n hd => cases h; exact ⟨n, hd⟩
  · cases h

end Sys2Proof

namespace Sys2Proof.Machine

/-! ### Code placed for the fetch -/

/-- With paging off code is placed at the linear addresses from `pc` on (R81). -/
theorem State.placeCode_off {s : State} (h : s.pagingActive = false) (code : List Byte) :
    s.placeCode code = s.writeBytes (((linearBytes s.pc code.length).map BitVec.toNat).zip code) := by
  simp only [State.placeCode, State.translate_off h, List.filterMap_eq_map', List.zip_map_left]
  rfl

/-- With paging off the addresses of a fetch are the linear ones. -/
theorem State.translateList_off {s : State} (h : s.pagingActive = false) (k : AccessKind) (as : List Word) :
    s.translateList k as = .ok (as.map BitVec.toNat) := by
  induction as with
  | nil => rfl
  | cons a as ih => simp only [State.translateList, State.translate_off h, ih, List.map_cons]

/-- Code placed where there is memory is what the fetch reads first. -/
theorem State.fetchBytes_placeCode {s : State} {code : List Byte} (hp : s.pagingActive = false)
    (hl : code.length ≤ maxInstrBytes) (hr : ∀ a ∈ linearBytes s.pc code.length, s.isRam a.toNat = true) :
    ((s.placeCode code).fetchBytes (linearBytes s.pc maxInstrBytes)).1.take code.length = code := by
  rw [State.placeCode_off hp, State.fetchBytes_take hl (State.translateList_off (s := s.writeBytes _) hp _ _)]
  refine State.readByte_stored (s := s) (by simp) ?_ (s.stored_memAfter _) fun p hm => ?_
  · exact linearBytes_nodup _ (hl.trans (by decide))
  · obtain ⟨a, ha, rfl⟩ := List.mem_map.mp hm
    exact ⟨hr a ha, hr a ha⟩

/-- An instruction placed where there is memory is fetched. -/
theorem State.fetch_placeCode {s : State} {code : List Byte} {i : Instr} {n : Nat} (hp : s.pagingActive = false)
    (hl : code.length ≤ maxInstrBytes) (hr : ∀ a ∈ linearBytes s.pc code.length, s.isRam a.toNat = true)
    (hd : decode code = .instr i n) : (s.placeCode code).fetch = .instr i := by
  have hbytes := State.fetchBytes_placeCode hp hl hr
  have hdec : decode ((s.placeCode code).fetchBytes (linearBytes s.pc maxInstrBytes)).1 = .instr i n := by
    rw [← List.take_append_drop code.length ((s.placeCode code).fetchBytes (linearBytes s.pc maxInstrBytes)).1, hbytes]
    exact decode_append hd _
  show fetchedOf ((s.placeCode code).fetchBytes (linearBytes s.pc maxInstrBytes)).1 _ = .instr i
  simp only [fetchedOf, hdec]

/-- Settles O6: the placed bytes are fetched, and what follows them does not change what is read. -/
theorem placedWordRuns : Obligations.PlacedWordRuns := by
  intro s nbits w i hp hn hr hw
  obtain ⟨n, hd⟩ := decode_of_decodeTableWord hw
  have hl := paddedTableBytes_length hn w
  have hf : (s.withFetchWord nbits w).fetch = .instr i :=
    State.fetch_placeCode hp (by rw [hl]; decide) (by rw [hl]; exact hr) hd
  exact (step_runs rfl rfl).trans (runInstr_instr hf)

end Sys2Proof.Machine
end

section
/-! The forms the spec has refused (30_encoding.md R118, R125; 40_mov_cr.md R140), and the words it writes out as examples
(30_encoding.md R121). -/

namespace Sys2Proof

/-! ### Prefix bytes and the rows (R110, R125) -/

/-- No prefix byte begins a row but the F3 of PAUSE, and none is PAUSE's second byte. -/
theorem isPrefixByte_row {p : Byte} (hp : isPrefixByte p = true) :
    p ≠ 0x0F#8 ∧ p ≠ 0x9B#8 ∧ p.extractLsb' 3 5 ≠ 0x1B#5 ∧ p ≠ 0x90#8 := by
  revert p; decide

/-- Bytes that begin with a prefix byte are no row, unless they are PAUSE or the F3 is all there is. -/
theorem decodeRow_of_isPrefixByte {p : Byte} {bs : List Byte} (hp : isPrefixByte p = true)
    (hF3 : p = 0xF3#8 → decodeF3 bs = .unlisted) : decodeRow (p :: bs) = .unlisted := by
  obtain ⟨h0F, h9B, hx87, -⟩ := isPrefixByte_row hp
  by_cases h : p = 0xF3#8
  · subst h; exact hF3 rfl
  · simp only [decodeRow, h0F, h9B, h, hx87, if_false]

theorem decode_of_decodeRow_unlisted {bs : List Byte} (h : decodeRow bs = .unlisted) : decode bs = decodePrefixed bs := by
  rw [decode, h]

/-- A row after prefix bytes does not begin with 90h: neither a row nor a prefix byte does. -/
theorem prefixed_row_cons {ps bs : List Byte} {i : Instr} {n : Nat} (hps : ∀ p ∈ ps, isPrefixByte p = true)
    (hrow : decodeRow bs = .instr i n) : ∃ b rest, ps ++ bs = b :: rest ∧ b ≠ 0x90#8 := by
  cases ps with
  | nil =>
    cases bs with
    | nil => cases hrow
    | cons b rest => exact ⟨b, rest, rfl, by rintro rfl; cases hrow⟩
  | cons p ps => exact ⟨p, ps ++ bs, rfl, (isPrefixByte_row (hps p List.mem_cons_self)).2.2.2⟩

/-- A row after one or more prefix bytes is no row: PAUSE has its F3 in its own bytes. -/
theorem decodeRow_prefixed_row {p : Byte} {ps bs : List Byte} {i : Instr} {n : Nat}
    (hps : ∀ q ∈ p :: ps, isPrefixByte q = true) (hrow : decodeRow bs = .instr i n) :
    decodeRow (p :: (ps ++ bs)) = .unlisted := by
  obtain ⟨hp, hps⟩ := List.forall_mem_cons.mp hps
  obtain ⟨b, rest, he, hb⟩ := prefixed_row_cons hps hrow
  exact decodeRow_of_isPrefixByte hp fun _ => by rw [he, decodeF3, if_neg hb]

/-- After the prefix bytes the row itself is read. -/
theorem decodeAfterPrefixes_prefixed_row {ps bs : List Byte} {i : Instr} {n : Nat}
    (hps : ∀ p ∈ ps, isPrefixByte p = true) (hrow : decodeRow bs = .instr i n) :
    decodeAfterPrefixes (ps ++ bs) = .instr i n := by
  induction ps with
  | nil =>
    cases bs with
    | nil => cases hrow
    | cons b rest => rw [List.nil_append, decodeAfterPrefixes, hrow]
  | cons p ps ih =>
    obtain ⟨hp, hps'⟩ := List.forall_mem_cons.mp hps
    simp only [List.cons_append, decodeAfterPrefixes, decodeRow_prefixed_row hps hrow, hp, if_true, ih hps']

/-- A prefixed form of a row is refused (D31). -/
theorem decode_prefixed_row {p : Byte} {ps bs : List Byte} {i : Instr} {n : Nat}
    (hps : ∀ q ∈ p :: ps, isPrefixByte q = true) (hrow : decodeRow bs = .instr i n) :
    decode (p :: (ps ++ bs)) = .refused .prefixedForm := by
  obtain ⟨hp, hps'⟩ := List.forall_mem_cons.mp hps
  rw [decode_of_decodeRow_unlisted (decodeRow_prefixed_row hps hrow)]
  simp only [decodePrefixed, hp, if_true, decodeAfterPrefixes_prefixed_row hps' hrow]

/-- Past a prefix byte that belongs to no opcode nothing is an instruction, nor left to `insn_class` (U21). -/
theorem decode_of_not_isOpcodePrefix {p : Byte} (bs : List Byte) (hp : isPrefixByte p = true)
    (ho : isOpcodePrefix p = false) :
    decode (p :: bs) = .truncated ∨ ∃ why, decode (p :: bs) = .refused why := by
  have hrow : decodeRow (p :: bs) = .unlisted :=
    decodeRow_of_isPrefixByte hp fun h => absurd ho (by rw [h]; decide)
  simp only [decode_of_decodeRow_unlisted hrow, decodePrefixed, hp, ho, if_true, Bool.false_and, Bool.false_eq_true, if_false]
  cases decodeAfterPrefixes bs with
  | truncated => exact .inl rfl
  | instr _ _ | unlisted => exact .inr ⟨_, rfl⟩
  | refused why => exact .inr ⟨why, rfl⟩

/-! ### Opcodes refused by name (R118, U20) -/

theorem decode_otherDebugRegister {op b : Byte} (rest : List Byte) (hop : op = 0x21#8 ∨ op = 0x23#8)
    (h4 : regField b ≠ 4#3) (h5 : regField b ≠ 5#3) :
    decode (0x0F#8 :: op :: b :: rest) = .refused .otherDebugRegister := by
  refine decode_of_decodeRow ?_ (by simp)
  rcases hop with rfl | rfl
  · simp [decodeRow, decodeEscape, needsModRM, decodeModRM, movFromDr, h4, h5]
  · simp [decodeRow, decodeEscape, needsModRM, decodeModRM, movToDr, h4, h5]

theorem decode_machineStatusWord {b : Byte} (rest : List Byte) (h : regField b = 4#3 ∨ regField b = 6#3) :
    decode (0x0F#8 :: 0x01#8 :: b :: rest) = .refused .machineStatusWord := by
  refine decode_of_decodeRow ?_ (by simp)
  simp [decodeRow, decodeEscape, needsModRM, decodeModRM, h]

/-- Settles O4: no row begins with a prefix byte but PAUSE, so a prefixed row is read only past its prefixes, and refused there. -/
theorem excludedFormsRefused : Obligations.ExcludedFormsRefused := by
  refine ⟨fun ps i rest hne hps hwf => ?_, fun p bs hp hno => ?_, fun op b rest hop hb => ?_, fun b rest hb => ?_⟩
  · cases ps with
    | nil => exact absurd rfl hne
    | cons p ps => exact decode_prefixed_row hps (decodeRow_of_decode (decode_encode hwf rest))
  · exact decode_of_not_isOpcodePrefix bs hp (by simpa [isOpcodePrefix, and_assoc] using hno)
  · simp only [List.mem_cons, List.not_mem_nil, or_false, not_or] at hop hb
    obtain ⟨h4, h5⟩ := hb
    exact decode_otherDebugRegister rest hop h4 h5
  · exact decode_machineStatusWord rest (by simpa using hb)

/-! ### The spec's own examples (R121; log 13, 14) -/

/-- The bytes of an example of R121 are no row, whatever follows them: their opcode is none of the table's, and the 66 of PXOR
belongs to it. -/
theorem decode_classExamples (rest : List Byte) : ∀ e ∈ classExamples, decode (e.1 ++ rest) = .unlisted := by
  simp only [classExamples, pxorBytes, List.forall_mem_cons, List.cons_append, List.nil_append]
  exact ⟨rfl, rfl, rfl, by simp⟩

theorem unlistedBytes_classExamples (rest : List Byte) : ∀ e ∈ classExamples, unlistedBytes (e.1 ++ rest) = some e.1 := by
  have h : ∀ e ∈ classExamples, unlistedBytes e.1 = some e.1 := by decide
  intro e he
  obtain ⟨-, -, -, hmore⟩ := unlistedBytes_spec (h e he)
  exact hmore rest

theorem classify_classExamples : ∀ e ∈ classExamples, classify e.1 = ⟨e.2, none⟩ := by decide

/-- Settles O3: the ten words read row by row, and the three examples of R121 by what is said of each. -/
theorem specExamplesDecode : Obligations.SpecExamplesDecode :=
  ⟨by decide, fun rest => ⟨fun e he =>
    ⟨decode_classExamples rest e he, unlistedBytes_classExamples rest e he, classify_classExamples e he⟩, rfl⟩⟩

end Sys2Proof

namespace Sys2Proof.Machine

/-! ### MOVNTI (R120; log 23) -/

/-- The bytes a word is stored as, least significant first (20_memory.md R90). -/
theorem leBytes_four (w : Word) : leBytes 4 w.toNat = [0, 8, 16, 24].map fun i => w.extractLsb' i 8 :=
  List.ext_getElem rfl fun k hk _ => by
    have h4 : k < 4 := by simpa using hk
    rw [leBytes_extract w k h4]
    interval_cases k <;> rfl

/-- Settles O42: MOVNTI stores the four bytes of its register where its access reaches. -/
theorem movntiStores : Obligations.MovntiStores := by
  intro m g s ps h
  refine ⟨_, exec_movnti_of_reaches h, ?_⟩
  rw [leBytes_four]
  exact s.stored_memAfter _

end Sys2Proof.Machine
end

section
/-! MOV to and from a control register: the privilege check, the value checks, and what a completed one writes
(40_mov_cr.md R141 to R156). -/

namespace Sys2Proof.Machine

/-! ### The checks, as the rules state them (R141, R146, R152) -/

/-- `priv_ok` is real-address mode, or level 0 of protected mode (R141). -/
theorem State.privOk_iff (s : State) :
    s.privOk = true ↔ s.mode = .realMode ∨ (s.mode = .protectedMode ∧ s.cpl = 0#2) := by
  unfold State.privOk
  cases s.mode <;> simp

/-- The two pairs of flags no value of CR0 may have: PG without PE (D4), NW without CD (D8). -/
theorem cr0ValueForbidden_iff (v : Word) :
    cr0ValueForbidden v = true ↔
      (v.getLsbD 31 = true ∧ v.getLsbD 0 = false) ∨ (v.getLsbD 30 = false ∧ v.getLsbD 29 = true) := by
  simp [cr0ValueForbidden]

@[simp] theorem changesReserved_iff (m o v : Word) : changesReserved m o v = true ↔ v &&& m ≠ o &&& m :=
  bne_iff_ne

/-! ### Without privilege (R141, R155; D1) -/

/-- Where `priv_ok` fails an instruction that tests it first raises #GP(0), whatever it would do otherwise. -/
theorem gp_of_not_privOk {s : State} (h : s.privOk = false) (k : Host.Outcome State Fault Refusal) :
    (if !s.privOk then .next (s.raise (.gp 0#32)) else k) = .next (s.raise (.gp 0#32)) := by
  rw [h]
  rfl

theorem moveFromCr_of_not_privOk {s : State} (h : s.privOk = false) (r : Reg) (v : Word) :
    moveFromCr r v s = .next (s.raise (.gp 0#32)) := by
  simp [moveFromCr, h]

theorem execClts_of_not_privOk {s : State} (h : s.privOk = false) : execClts s = .next (s.raise (.gp 0#32)) := by
  simp [execClts, h]

/-- Settles O18: `priv_ok` by the mode, and the check each of the nine instructions makes first. -/
theorem privilegeViolation : Obligations.PrivilegeViolation := by
  refine fun md r s => ⟨s.privOk_iff, fun h => ?_⟩
  simp only [List.forall_mem_cons]
  exact ⟨moveFromCr_of_not_privOk h r _, moveFromCr_of_not_privOk h r _, moveFromCr_of_not_privOk h r _,
    moveFromCr_of_not_privOk h r _, gp_of_not_privOk h _, gp_of_not_privOk h _, gp_of_not_privOk h _,
    gp_of_not_privOk h _, execClts_of_not_privOk h, List.forall_mem_nil _⟩

/-- Settles O19: each of the eight instructions is `reservedCr`. -/
theorem reservedCrNumberRaisesUd : Obligations.ReservedCrNumberRaisesUd := by
  intro md r s
  simp only [List.forall_mem_cons]
  exact ⟨rfl, rfl, rfl, rfl, rfl, rfl, rfl, rfl, List.forall_mem_nil _⟩

theorem Plain.sameControl_or_pageFaults {op : Option DataAccess} {s t : State} (h : Plain op s t) :
    SameControl s t ∨ PageFaults op s t := by
  rcases h with h | h | ⟨-, h⟩
  · exact .inl h.sameControl
  · exact .inr h
  · exact .inl h

/-- Whoever writes a control register has `priv_ok`; without it only a page fault is left to change one. -/
theorem exec_sameControl_or_pageFaults {i : Instr} {s t : State} (hp : s.privOk = false) (h : exec i s = .next t) :
    SameControl s t ∨ PageFaults (s.dataAccess i) s t := by
  rcases exec_cases h with h | h | h | ⟨-, h | ⟨hw, -⟩⟩
  · exact .inl h.sameControl
  · exact .inr h
  · exact .inl h.sameControl
  · exact .inl h
  · rw [hp] at hw
    cases hw

theorem State.Executes.sameControl_or_pageFaults {s t : State} (h : s.Executes t) (hp : s.privOk = false) :
    SameControl s t ∨ ∃ op, PageFaults op s t := by
  rcases h with ⟨i, h⟩ | ⟨c, bs, h⟩
  · exact (exec_sameControl_or_pageFaults hp h).imp_right fun h => ⟨_, h⟩
  · rcases execUnlisted_cases h with h | ⟨rfl, -⟩
    · exact h.sameControl_or_pageFaults.imp_right fun h => ⟨_, h⟩
    · exact .inl (.raise s _)

/-- Settles O16: the control registers stand, or a page fault wrote CR2. -/
theorem unprivilegedCannotWrite : Obligations.UnprivilegedCannotWrite := by
  intro s t hp _ h
  rcases h.sameControl_or_pageFaults hp with ⟨h0, h2, h3, h4⟩ | ⟨_, _, _, _, rfl, -⟩
  · exact ⟨h0, h3, h4, .inl h2⟩
  · exact ⟨rfl, rfl, rfl, .inr rfl⟩

/-! ### Reads (R142 to R145, R153) -/

theorem moveFromCr_of_privOk {s : State} (h : s.privOk = true) (r : Reg) (v : Word) :
    moveFromCr r v s = .next ((s.setReg r v).freeStatus.advance 3) :=
  if_pos h

/-- ET reads as 1 where it is hardwired (10_state.md R31). -/
theorem State.readCr0_et {s : State} (h : etHardwired s.params = true) : s.readCr0.getLsbD 4 = true := by
  simp [State.readCr0, h]

theorem State.readCr0_of_not_etHardwired {s : State} (h : etHardwired s.params = false) : s.readCr0 = s.cr0 := by
  simp [State.readCr0, h]

/-- Settles O17: the four reads are one read, of four values. -/
theorem movFromCrResult : Obligations.MovFromCrResult := by
  intro md r s h
  have read (v : Word) := moveFromCr_of_privOk h r v
  exact ⟨_, _, s.freeStatus_kept, read s.readCr0, read s.cr2, read s.cr3, read s.cr4, State.readCr0_et,
    State.readCr0_of_not_etHardwired⟩

/-! ### Writes that complete (R146 to R149, R153) -/

theorem execMovCr0R32_of_permitted {r : Reg} {s : State} (hp : s.privOk = true)
    (hf : cr0ValueForbidden (s.reg r) = false) (hr : s.reg r &&& rsvd0 s.params = s.readCr0 &&& rsvd0 s.params) :
    execMovCr0R32 r s = finishMovToCr { s with cr0 := s.reg r } := by
  simp [execMovCr0R32, hp, hf, hr]

theorem execMovCr2R32_of_privOk {r : Reg} {s : State} (hp : s.privOk = true) :
    execMovCr2R32 r s = finishMovToCr { s with cr2 := s.reg r } := by
  simp [execMovCr2R32, hp]

theorem execMovCr3R32_of_permitted {r : Reg} {s : State} (hp : s.privOk = true)
    (hr : s.reg r &&& s.rsvd3 = s.cr3 &&& s.rsvd3) : execMovCr3R32 r s = finishMovToCr { s with cr3 := s.reg r } := by
  simp [execMovCr3R32, hp, hr]

theorem execMovCr4R32_of_permitted {r : Reg} {s : State} (hp : s.privOk = true)
    (hr : s.reg r &&& rsvd4 s.params = s.cr4 &&& rsvd4 s.params)
    (hg : cr4Flag s.params (s.reg r) 7 = true → s.pge = true ∨ s.pg = true) :
    execMovCr4R32 r s = finishMovToCr { s with cr4 := s.reg r } := by
  have hduty : (cr4Flag s.params (s.reg r) 7 && !s.pge && !s.pg) = false := by
    cases hv : cr4Flag s.params (s.reg r) 7
    · rfl
    · rcases hg hv with h | h <;> simp [h]
  simp [execMovCr4R32, hp, hr, hduty]

/-- Settles O20: no check of the value stops the write. -/
theorem movToCr0Result : Obligations.MovToCr0Result := by
  intro md r s hp hpg hnw hr
  have hf : cr0ValueForbidden (s.reg r) = false :=
    Bool.eq_false_iff.mpr fun h => ((cr0ValueForbidden_iff _).mp h).elim hpg hnw
  exact ⟨_, _, s.freeStatus_kept, execMovCr0R32_of_permitted hp hf hr⟩

/-- Settles O22: the privilege check is the only one. -/
theorem movToCr2Result : Obligations.MovToCr2Result := fun _ _ s hp =>
  ⟨_, _, s.freeStatus_kept, execMovCr2R32_of_privOk hp⟩

/-- Settles O23: the layout with PAE clear, and the write past its check. -/
theorem movToCr3Result : Obligations.MovToCr3Result := fun _ _ s hp hr =>
  ⟨fun h => by simp [State.rsvd3, h], _, _, s.freeStatus_kept, execMovCr3R32_of_permitted hp hr⟩

/-- Settles O24: the write past both its checks. -/
theorem movToCr4Result : Obligations.MovToCr4Result := fun _ _ s hp hr hg =>
  ⟨_, _, s.freeStatus_kept, execMovCr4R32_of_permitted hp hr hg⟩

/-! ### Writes that stop (R146, R149, R152; D4, D5, D8, D20) -/

/-- A forbidden value raises #GP(0), as the privilege check before it does. -/
theorem execMovCr0R32_of_forbidden {r : Reg} {s : State} (hf : cr0ValueForbidden (s.reg r) = true) :
    execMovCr0R32 r s = .next (s.raise (.gp 0#32)) := by
  cases hp : s.privOk
  · exact gp_of_not_privOk hp _
  · simp [execMovCr0R32, hp, hf]

/-- Settles O21: both pairs of flags are forbidden values. -/
theorem movToCr0ForbiddenValue : Obligations.MovToCr0ForbiddenValue := fun _ r s h =>
  execMovCr0R32_of_forbidden ((cr0ValueForbidden_iff (s.reg r)).mpr h)

theorem execMovCr0R32_of_reserved {r : Reg} {s : State} (hp : s.privOk = true)
    (hf : cr0ValueForbidden (s.reg r) = false) (hr : s.reg r &&& rsvd0 s.params ≠ s.readCr0 &&& rsvd0 s.params) :
    execMovCr0R32 r s = .fault .reservedBitsChanged := by
  simp [execMovCr0R32, hp, hf, hr]

theorem execMovCr3R32_of_reserved {r : Reg} {s : State} (hp : s.privOk = true)
    (hr : s.reg r &&& s.rsvd3 ≠ s.cr3 &&& s.rsvd3) : execMovCr3R32 r s = .fault .reservedBitsChanged := by
  simp [execMovCr3R32, hp, hr]

theorem execMovCr4R32_of_reserved {r : Reg} {s : State} (hp : s.privOk = true)
    (hr : s.reg r &&& rsvd4 s.params ≠ s.cr4 &&& rsvd4 s.params) :
    execMovCr4R32 r s = .fault .reservedBitsChanged := by
  simp [execMovCr4R32, hp, hr]

theorem execMovCr4R32_of_pge_before_pg {r : Reg} {s : State} (hp : s.privOk = true)
    (hr : s.reg r &&& rsvd4 s.params = s.cr4 &&& rsvd4 s.params) (hv : cr4Flag s.params (s.reg r) 7 = true)
    (hge : s.pge = false) (hg : s.pg = false) : execMovCr4R32 r s = .fault .pgeBeforePg := by
  simp [execMovCr4R32, hp, hr, hv, hge, hg]

/-- Settles O25: the four stops, each past the checks before it. -/
theorem softwareDutyFaults : Obligations.SoftwareDutyFaults := fun _ _ _ hp =>
  ⟨execMovCr0R32_of_reserved hp, execMovCr3R32_of_reserved hp, execMovCr4R32_of_reserved hp,
    execMovCr4R32_of_pge_before_pg hp⟩

/-! ### A read after a write (R154, R156) -/

/-- A read that raises nothing has put the value into the register. -/
theorem moveFromCr_reg {r : Reg} {v : Word} {s t : State} (h : moveFromCr r v s = .next t) (hn : t.raised = none) :
    t.reg r = v := by
  unfold moveFromCr at h
  split_ifs at h <;> cases h
  · exact regOf_putReg_same r v s.regs
  · cases hn

/-- CR0 reads as it was written: the write kept ET as it reads (10_state.md R31, R62). -/
theorem execMovCr0R32_readCr0 {r : Reg} {s t : State} (h : execMovCr0R32 r s = .next t) (hn : t.raised = none) :
    t.readCr0 = s.reg r := by
  unfold execMovCr0R32 finishMovToCr at h
  dsimp only at h
  split_ifs at h with h1 h2 h3 <;> cases h
  · cases hn
  · cases hn
  · have hs : Cr0Sound s.params (s.reg r) := .of_written (by simpa using h2) (changesReserved_false h3)
    exact State.readCr0_eq (s := ({ s with cr0 := s.reg r } : State).freeStatus.advance 3) hs

theorem execMovCr2R32_cr2 {r : Reg} {s t : State} (h : execMovCr2R32 r s = .next t) (hn : t.raised = none) :
    t.cr2 = s.reg r := by
  unfold execMovCr2R32 finishMovToCr at h
  split_ifs at h <;> cases h
  · cases hn
  · rfl

theorem execMovCr3R32_cr3 {r : Reg} {s t : State} (h : execMovCr3R32 r s = .next t) (hn : t.raised = none) :
    t.cr3 = s.reg r := by
  unfold execMovCr3R32 finishMovToCr at h
  dsimp only at h
  split_ifs at h <;> cases h
  · cases hn
  · rfl

theorem execMovCr4R32_cr4 {r : Reg} {s t : State} (h : execMovCr4R32 r s = .next t) (hn : t.raised = none) :
    t.cr4 = s.reg r := by
  unfold execMovCr4R32 finishMovToCr at h
  dsimp only at h
  split_ifs at h <;> cases h
  · cases hn
  · rfl

/-- Settles O26: the read gives what the register holds, and the register holds what was written. -/
theorem writeThenReadCr : Obligations.WriteThenReadCr := by
  intro md md' r r' s t u _ hu
  exact ⟨fun hw hr ht => (moveFromCr_reg hr hu).trans (execMovCr0R32_readCr0 hw ht),
    fun hw hr ht => (moveFromCr_reg hr hu).trans (execMovCr2R32_cr2 hw ht),
    fun hw hr ht => (moveFromCr_reg hr hu).trans (execMovCr3R32_cr3 hw ht),
    fun hw hr ht => (moveFromCr_reg hr hu).trans (execMovCr4R32_cr4 hw ht)⟩

end Sys2Proof.Machine
end

section
/-! TS: what CLTS and a task switch do to it, who clears it, and who does not depend on it (41_ts_clts.md R170 to R175). -/

namespace Sys2Proof.Machine

/-! ### CLTS (R173) -/

theorem execClts_of_privOk {s : State} (h : s.privOk = true) :
    execClts s = .next { s with cr0 := s.cr0 &&& 0xFFFFFFF7#32, pc := s.pc + 2#32 } :=
  if_pos h

/-- Settles O28: with `priv_ok` CLTS makes its one write. -/
theorem cltsResult : Obligations.CltsResult := fun _ h => execClts_of_privOk h

/-- The mask of CLTS has bit 3 clear (10_state.md R32). -/
theorem execClts_clears_ts {s : State} (h : s.privOk = true) : ∃ t, execClts s = .next t ∧ t.ts = false :=
  ⟨_, execClts_of_privOk h, by simp [State.ts]⟩

/-! ### A task switch (R170, R171) -/

@[simp] theorem State.setTs_ts (s : State) : s.setTs.ts = true := by
  simp [State.ts]

/-- Settles O30: the step is the task switch, which ends by setting TS, and a transfer names no context. -/
theorem taskSwitchSetsTs : Obligations.TaskSwitchSetsTs := fun _ _ h ha =>
  ⟨_, step_arrival h ha, State.setTs_ts _, rfl, rfl⟩

/-! ### Who clears TS (R172) -/

theorem State.ts_of_cr0_eq {s t : State} (h : t.cr0 = s.cr0) : t.ts = s.ts := by
  unfold State.ts
  rw [h]

/-- No delivery and no task switch clears TS. -/
theorem AtMostSetsTs.ts {s t : State} (h : AtMostSetsTs s t) (hs : s.ts = true) : t.ts = true := by
  obtain ⟨h0 | h0, -⟩ := h
  · exact (State.ts_of_cr0_eq h0).trans hs
  · exact (State.ts_of_cr0_eq (s := s.setTs) h0).trans s.setTs_ts

/-- Of the writers of a control register only those of CR0 change TS. -/
theorem ControlWritten.ts_writer {i : Instr} {s t : State} (h : ControlWritten i s t) (hts : t.ts ≠ s.ts) :
    i = .clts ∨ ∃ md r, i = .movCr0R32 md r := by
  obtain ⟨-, ⟨hi, -⟩ | ⟨md, r, hi, -⟩ | ⟨md, r, -, -, h0, -⟩ | ⟨md, r, -, -, -, h0, -⟩ | ⟨md, r, -, -, -, h0, -⟩⟩ := h
  · exact .inl hi
  · exact .inr ⟨md, r, hi⟩
  · exact absurd (State.ts_of_cr0_eq h0) hts
  · exact absurd (State.ts_of_cr0_eq h0) hts
  · exact absurd (State.ts_of_cr0_eq h0) hts

theorem ControlStep.ts_writer {s t : State} (h : ControlStep s t) (hts : t.ts ≠ s.ts) :
    s.fetch = .instr .clts ∨ ∃ md r, s.fetch = .instr (.movCr0R32 md r) := by
  cases h with
  | same h => exact absurd (State.ts_of_cr0_eq h.1) hts
  | pageFault _ h0 _ _ => exact absurd (State.ts_of_cr0_eq h0) hts
  | written i hf hw =>
    rcases hw.ts_writer hts with rfl | ⟨md, r, rfl⟩
    · exact .inl hf
    · exact .inr ⟨md, r, hf⟩

/-- A step that clears TS runs the instruction at `pc`, which is CLTS or MOV to CR0. -/
theorem step_clears_ts {s t : State} (h : step s = .next t) (hs : s.ts = true) (ht : t.ts = false) :
    s.raised = none ∧ (s.fetch = .instr .clts ∨ ∃ md r, s.fetch = .instr (.movCr0R32 md r)) := by
  rcases step_control h with ⟨-, hset⟩ | ⟨hn, hc⟩
  · rw [hset.ts hs] at ht
    cases ht
  · exact ⟨hn, hc.ts_writer (by simp [hs, ht])⟩

/-- The machine after reset with TS and ET set in CR0, and in EAX the same value without TS. -/
def tsSetState : State := { State.reset.setReg .eax 0x10#32 with cr0 := 0x18#32 }

/-- MOV to CR0 with bit 3 clear clears TS: nothing forbids the value in EAX (40_mov_cr.md R146). -/
theorem execMovCr0R32_clears_ts : ∃ t, execMovCr0R32 .eax tsSetState = .next t ∧ t.ts = false :=
  ⟨_, execMovCr0R32_of_permitted (by decide) (by decide) (by decide), by decide⟩

/-- Settles O29: who clears TS over a step, and that both can. -/
theorem tsClearedBySoftwareOnly : Obligations.TsClearedBySoftwareOnly :=
  ⟨fun _ _ => step_clears_ts, fun _ => execClts_clears_ts,
    3#2, .eax, tsSetState, execMovCr0R32_clears_ts.imp fun _ h => ⟨by decide, h⟩⟩

/-! ### Who does not depend on TS (R175)

What tests no flag of CR0 but PE and PG gives from the state with TS set what it gives from the state itself, with TS
set. -/

section
variable (s : State)

@[simp] theorem State.setTs_pe : s.setTs.pe = s.pe := by simp [State.pe]
@[simp] theorem State.setTs_pg : s.setTs.pg = s.pg := by simp [State.pg]
@[simp] theorem State.setTs_vm : s.setTs.vm = s.vm := rfl
@[simp] theorem State.setTs_mode : s.setTs.mode = s.mode := by
  unfold State.mode
  rw [State.setTs_pe, State.setTs_vm]

@[simp] theorem State.setTs_privOk : s.setTs.privOk = s.privOk := by simp [State.privOk]
@[simp] theorem State.setTs_outsideLevel0 : s.setTs.outsideLevel0 = s.outsideLevel0 := by simp [State.outsideLevel0]
@[simp] theorem State.setTs_reg (r : Reg) : s.setTs.reg r = s.reg r := rfl
@[simp] theorem State.setTs_tsd : s.setTs.tsd = s.tsd := rfl
@[simp] theorem State.setTs_de : s.setTs.de = s.de := rfl
@[simp] theorem State.setTs_pge : s.setTs.pge = s.pge := rfl
@[simp] theorem State.setTs_pce : s.setTs.pce = s.pce := rfl
@[simp] theorem State.setTs_rsvd3 : s.setTs.rsvd3 = s.rsvd3 := rfl
@[simp] theorem State.setTs_drStop : s.setTs.drStop = s.drStop := by simp [State.drStop]

theorem moveFromCr_setTs (r : Reg) (v : Word) :
    moveFromCr r v s.setTs = mapNext State.setTs (moveFromCr r v s) := by
  unfold moveFromCr
  rw [State.setTs_privOk]
  split_ifs <;> rfl

theorem moveFromDr_setTs (n : BitVec 3) (held : Word) (r : Reg) :
    moveFromDr n held r s.setTs = mapNext State.setTs (moveFromDr n held r s) := by
  unfold moveFromDr
  rw [State.setTs_drStop]
  cases s.drStop <;> rfl

theorem execMovDr4R32_setTs (r : Reg) : execMovDr4R32 r s.setTs = mapNext State.setTs (execMovDr4R32 r s) := by
  unfold execMovDr4R32
  rw [State.setTs_drStop]
  cases s.drStop <;> rfl

theorem execMovDr5R32_setTs (r : Reg) : execMovDr5R32 r s.setTs = mapNext State.setTs (execMovDr5R32 r s) := by
  unfold execMovDr5R32
  rw [State.setTs_drStop]
  cases s.drStop <;> rfl

theorem execRdtsc_setTs : execRdtsc s.setTs = mapNext State.setTs (execRdtsc s) := by
  unfold execRdtsc
  rw [State.setTs_tsd, State.setTs_outsideLevel0]
  split_ifs <;> rfl

theorem execRdpmc_setTs : execRdpmc s.setTs = mapNext State.setTs (execRdpmc s) := by
  unfold execRdpmc
  rw [State.setTs_pce, State.setTs_outsideLevel0]
  split_ifs <;> rfl

theorem execMovCr2R32_setTs (r : Reg) : execMovCr2R32 r s.setTs = mapNext State.setTs (execMovCr2R32 r s) := by
  unfold execMovCr2R32
  rw [State.setTs_privOk]
  split_ifs <;> rfl

theorem execMovCr3R32_setTs (r : Reg) : execMovCr3R32 r s.setTs = mapNext State.setTs (execMovCr3R32 r s) := by
  unfold execMovCr3R32
  dsimp only
  rw [State.setTs_reg, State.setTs_privOk, State.setTs_cr3, State.setTs_rsvd3]
  split_ifs <;> rfl

theorem execMovCr4R32_setTs (r : Reg) : execMovCr4R32 r s.setTs = mapNext State.setTs (execMovCr4R32 r s) := by
  unfold execMovCr4R32
  dsimp only
  rw [State.setTs_reg, State.setTs_privOk, State.setTs_params, State.setTs_cr4, State.setTs_pge, State.setTs_pg]
  split_ifs <;> rfl

/-- The instructions outside the gated units and the exempt class, but for FXSAVE and FXRSTOR and those on CR0. CPUID and
the moves that name CR1, CR5, CR6 or CR7 test no flag. -/
theorem exec_setTs {i : Instr} (hc : i.insnClass = .other) (hfx : ∀ m, i ≠ .fxsave m ∧ i ≠ .fxrstor m)
    (hclts : i ≠ .clts) (h0 : ∀ md r, i ≠ .movR32Cr0 md r ∧ i ≠ .movCr0R32 md r) :
    exec i s.setTs = mapNext State.setTs (exec i s) := by
  cases i with
  | movR32Cr0 md r => exact absurd rfl (h0 md r).1
  | movCr0R32 md r => exact absurd rfl (h0 md r).2
  | clts => exact absurd rfl hclts
  | fxsave m => exact absurd rfl (hfx m).1
  | fxrstor m => exact absurd rfl (hfx m).2
  | movR32Cr2 md r => exact moveFromCr_setTs s r _
  | movR32Cr3 md r => exact moveFromCr_setTs s r _
  | movR32Cr4 md r => exact moveFromCr_setTs s r _
  | movCr2R32 md r => exact execMovCr2R32_setTs s r
  | movCr3R32 md r => exact execMovCr3R32_setTs s r
  | movCr4R32 md r => exact execMovCr4R32_setTs s r
  | movR32Dr4 md r => exact moveFromDr_setTs s _ _ r
  | movR32Dr5 md r => exact moveFromDr_setTs s _ _ r
  | movDr4R32 md r => exact execMovDr4R32_setTs s r
  | movDr5R32 md r => exact execMovDr5R32_setTs s r
  | rdtsc => exact execRdtsc_setTs s
  | rdpmc => exact execRdpmc_setTs s
  | cpuid => rfl
  | movR32Cr1 | movR32Cr5 | movR32Cr6 | movR32Cr7 | movCr1R32 | movCr5R32 | movCr6R32 | movCr7R32 => rfl
  | _ => cases hc

end

/-- Settles O40: the outcome from the state with TS set is the outcome with TS set. -/
theorem tsGatesNothingElse : Obligations.TsGatesNothingElse := by
  intro i s t hc hfx hclts h0 ht
  rw [exec_setTs s hc hfx hclts h0, ht]
  rfl

end Sys2Proof.Machine
end

section
/-! WAIT/FWAIT and the x87 class: their gates, and the report of a pending x87 error (42_fpu_simd_gating.md sections 2 and 6). -/

namespace Sys2Proof.Machine

/-! ### WAIT/FWAIT (R182) -/

theorem execWait_of_gated {s : State} (hm : s.mp = true) (ht : s.ts = true) : execWait s = .next (s.raise .nm) :=
  if_pos (by simp [hm, ht])

theorem execWait_past_gate {s : State} (h : ¬ (s.mp = true ∧ s.ts = true)) :
    execWait s = .next (s.reportFpuError true fun s => s.advance 1) :=
  if_neg (by simpa using h)

/-- Settles O35: the gate, and past it with no error to report the advance of `pc`. -/
theorem waitGateAndResult : Obligations.WaitGateAndResult := by
  refine fun s => ⟨fun ⟨hm, ht⟩ => execWait_of_gated hm ht, fun h he => (execWait_past_gate h).trans ?_⟩
  rw [State.reportFpuError_none he]
  rfl

/-! ### An x87 instruction (R181, R194) -/

/-- What an x87 instruction does past its gate, on a processor with an FPU, when no report of an error takes its place. -/
def State.runX87 (op ext : BitVec 3) (o : RmOperand) (s : State) : State :=
  s.numeric (rmOperand o) .x87 (Instr.length (.x87 op ext o)) (Config.numericEffect (encode (.x87 op ext o)) s.draws)

section
variable {op ext : BitVec 3} {o : RmOperand} {s : State}

theorem execX87_of_gated (h : s.em = true ∨ s.ts = true) : execX87 op ext o s = .next (s.raise .nm) :=
  if_pos (by simpa using h)

theorem execX87_of_hasX87_none (he : s.em = false) (ht : s.ts = false) (hx : s.params.hasX87 = .none) :
    execX87 op ext o s = .fault .noFpu := by
  simp [execX87, he, ht, hx]

theorem execX87_past_gate (he : s.em = false) (ht : s.ts = false) (hx : s.params.hasX87 ≠ .none) :
    execX87 op ext o s =
      .next (s.reportFpuError (Config.x87Waits (encode (.x87 op ext o))) (State.runX87 op ext o)) := by
  simp only [execX87, he, ht, hx, Bool.or_self, Bool.false_eq_true, if_false]
  rfl

/-- Where the bytes of its operand are within reach it commits its effect. -/
theorem State.runX87_of_reaches {ps : List Nat} (h : s.Reaches (s.dataAccess (.x87 op ext o)) ps) :
    s.runX87 op ext o = s.numericCommit ps .x87 (Instr.length (.x87 op ext o))
      (Config.numericEffect (encode (.x87 op ext o)) s.draws) := by
  simp only [State.runX87, State.numeric, State.numericAccess_of_reaches (m := rmOperand o) h]

/-- Where they are it advances `pc` and raises nothing of its own. -/
theorem State.runX87_completes {ps : List Nat} (h : s.Reaches (s.dataAccess (.x87 op ext o)) ps) :
    (s.runX87 op ext o).pc = s.pc + BitVec.ofNat 32 (Instr.length (.x87 op ext o)) ∧
      (s.runX87 op ext o).raised = s.raised := by
  rw [State.runX87_of_reaches h]
  exact ⟨rfl, rfl⟩

end

/-- Settles O34: the test for an FPU comes right after the gate. -/
theorem x87WithoutFpu : Obligations.X87WithoutFpu := fun _ _ _ _ => execX87_of_hasX87_none

/-! ### Nothing past the gate raises #NM -/

theorem State.access_stop_raised {s t : State} {k : AccessKind} {b n : Nat} {a : Word} (h : s.access k b n a = .stop t) :
    t.raised = some (.ac 0#32) ∨ t.raised = some .pf := by
  rcases s.access_cases k b n a with ⟨h', -⟩ | ⟨pf, c, -, h', -⟩ | ⟨ps, h', -⟩ <;> rw [h'] at h <;> cases h
  · exact .inl rfl
  · exact .inr rfl

/-- A numeric instruction completes, or its access is stopped. -/
theorem State.numeric_raised (s : State) (m : Option MemOperand) (u : NumericUnit) (len : Nat) (e : NumericEffect) :
    (s.numeric m u len e).raised = s.raised ∨ (s.numeric m u len e).raised = some (.ac 0#32) ∨
      (s.numeric m u len e).raised = some .pf := by
  unfold State.numeric
  split
  · next t h =>
    cases m with
    | none => cases h
    | some m => exact .inr (State.access_stop_raised h)
  · exact .inl rfl

theorem State.runX87_raised_ne_nm {s : State} (h : s.raised = none) (op ext : BitVec 3) (o : RmOperand) :
    (s.runX87 op ext o).raised ≠ some .nm := by
  rcases s.numeric_raised (rmOperand o) .x87 (Instr.length (.x87 op ext o))
    (Config.numericEffect (encode (.x87 op ext o)) s.draws) with hr | hr | hr <;> simp [State.runX87, hr, h]

theorem State.reportFpuError_raised_ne_nm {s : State} {run : State → State} (h : (run s).raised ≠ some .nm) (w : Bool) :
    (s.reportFpuError w run).raised ≠ some .nm := by
  rcases s.reportFpuError_cases w run with he | ⟨-, he⟩ | ⟨-, -, he⟩ <;> rw [he]
  · exact h
  · simp
  · simp

/-- Settles O31: at the gate #NM; past it a fault, or an outcome that is not #NM. -/
theorem x87GateRaisesNm : Obligations.X87GateRaisesNm := by
  refine fun op ext o s hs => ⟨fun ⟨t, ht, hn⟩ => ?_, fun h => ⟨_, execX87_of_gated h, rfl⟩⟩
  by_contra hg
  obtain ⟨he, hts⟩ : s.em = false ∧ s.ts = false := by simpa using hg
  simp only [exec] at ht
  by_cases hx : s.params.hasX87 = .none
  · rw [execX87_of_hasX87_none he hts hx] at ht
    cases ht
  · rw [execX87_past_gate he hts hx] at ht
    cases ht
    exact State.reportFpuError_raised_ne_nm (State.runX87_raised_ne_nm hs op ext o) _ hn

/-- Settles O32: at the gate #NM; past it the report of an error, or the advance of `pc`. -/
theorem waitGateRaisesNm : Obligations.WaitGateRaisesNm := by
  refine fun s hs => ⟨fun ⟨t, ht, hn⟩ => ?_, fun ⟨hm, hts⟩ => ⟨_, execWait_of_gated hm hts, rfl⟩⟩
  by_contra hg
  simp only [exec, execWait_past_gate hg] at ht
  cases ht
  exact State.reportFpuError_raised_ne_nm (by simp [hs]) _ hn

/-! ### The report of a pending error (R192, 60_exceptions.md R239) -/

section
variable {s : State} {w : Bool} {run : State → State}

/-- With NE set the internal mechanism reports it in place of what waits. -/
theorem State.reportFpuError_in_place (hf : s.fpuError = true) (hn : s.ne = true) (hw : w = true) :
    s.reportFpuError w run = s.endFpuError.raise .mf :=
  (State.reportFpuError_internal hf hn w run).trans (if_pos hw)

/-- With NE set what does not wait runs. -/
theorem State.reportFpuError_not_waiting (hf : s.fpuError = true) (hn : s.ne = true) (hw : ¬ w = true) :
    s.reportFpuError w run = run s :=
  (State.reportFpuError_internal hf hn w run).trans (if_neg hw)

/-- With NE clear IGNNE# suppresses the report. -/
theorem State.reportFpuError_suppressed (hf : s.fpuError = true) (hn : s.ne = false) (hi : s.ignne = true)
    (hr : (run s).raised = none) : s.reportFpuError w run = run s :=
  (State.reportFpuError_external hf hn w hr).trans (if_pos hi)

/-- With NE clear the interrupt comes right after what completes, unless IGNNE# suppresses it. -/
theorem State.reportFpuError_after (hf : s.fpuError = true) (hn : s.ne = false) (hi : s.ignne = false)
    (hr : (run s).raised = none) : s.reportFpuError w run = (run s).endFpuError.raise .fpuInterrupt :=
  (State.reportFpuError_external hf hn w hr).trans (if_neg (by simp [hi]))

end

/-- Settles O36: the report of each, by NE, IGNNE# and, with NE set, whether the instruction waits. -/
theorem fpuErrorReported : Obligations.FpuErrorReported := by
  refine fun s hs hf => ⟨fun hg => ?_, fun hts he hx op ext o => ?_⟩
  · have hwait (u : State) (hu : s.reportFpuError true (fun s => s.advance 1) = u) : exec .wait s = .next u :=
      (execWait_past_gate hg).trans (congrArg _ hu)
    exact ⟨fun hn => hwait _ (State.reportFpuError_in_place hf hn rfl),
      fun hn hi => hwait _ (State.reportFpuError_suppressed hf hn hi hs),
      fun hn hi => hwait _ (State.reportFpuError_after hf hn hi hs)⟩
  · have hx87 (u : State) (hu : s.reportFpuError _ (State.runX87 op ext o) = u) : exec (.x87 op ext o) s = .next u :=
      (execX87_past_gate he hts hx).trans (congrArg _ hu)
    refine ⟨fun hn => ?_, fun hn hi ⟨ps, hps⟩ => ?_, fun hn hi ⟨ps, hps⟩ => ?_⟩
    · split
      · next hw => exact hx87 _ (State.reportFpuError_in_place hf hn hw)
      · next hw =>
        rintro ⟨ps, hps⟩
        obtain ⟨hpc, hr⟩ := State.runX87_completes hps
        exact ⟨_, hx87 _ (State.reportFpuError_not_waiting hf hn hw), hpc, hr.trans hs⟩
    · obtain ⟨hpc, hr⟩ := State.runX87_completes hps
      exact ⟨_, hx87 _ (State.reportFpuError_suppressed hf hn hi (hr.trans hs)), hpc, hr.trans hs⟩
    · obtain ⟨hpc, hr⟩ := State.runX87_completes hps
      exact ⟨_, hx87 _ (State.reportFpuError_after hf hn hi (hr.trans hs)), hpc, rfl, rfl⟩

end Sys2Proof.Machine
end

section
/-! The gates of MMX, SSE and SSE2 and what an instruction past them may change; and the exempt instructions, which no
gate tests (42_fpu_simd_gating.md sections 3 and 4). -/

namespace Sys2Proof.Machine

/-! ### A numeric instruction whose bytes are within reach (R186; log 12) -/

/-- Without a memory operand no byte is reached. -/
theorem State.reaches_numericData_none {s : State} {bs : List Byte} {ps : List Nat}
    (h : s.Reaches (s.numericData none bs) ps) : ps = [] := h

/-- So nothing is stored. -/
theorem State.memAfter_of_no_operand {s : State} {m : Option MemOperand} {bs : List Byte} {ps : List Nat}
    (h : s.Reaches (s.numericData m bs) ps) (hm : m = none) (stores : List Byte) :
    s.memAfter (ps.zip stores) = s.mem := by
  subst hm
  rw [State.reaches_numericData_none h]
  rfl

/-! ### MMX (R183) -/

section
variable {m : Option MemOperand} {len : Nat} {e : NumericEffect} {s : State}

theorem execMmx_ud (h : s.em = true ∨ s.params.cpuidMmx = false) : execMmx m len e s = s.raise .ud := by
  rcases h with h | h <;> simp [execMmx, h]

theorem execMmx_nm (he : s.em = false) (hx : s.params.cpuidMmx = true) (ht : s.ts = true) :
    execMmx m len e s = s.raise .nm := by
  simp [execMmx, he, hx, ht]

theorem execMmx_past_gate (he : s.em = false) (hx : s.params.cpuidMmx = true) (ht : s.ts = false) :
    execMmx m len e s = s.numeric m .mmx len e := by
  simp [execMmx, he, hx, ht]

/-! ### SSE and SSE2 (R184, R185) -/

variable {ext u : Bool}

theorem execSse_ud (h : s.osfxsr = false ∨ ext = false ∨ s.em = true) : execSse ext u m len e s = s.raise .ud := by
  rcases h with h | h | h <;> simp [execSse, h]

theorem execSse_nm (ho : s.osfxsr = true) (hx : ext = true) (he : s.em = false) (ht : s.ts = true) :
    execSse ext u m len e s = s.raise .nm := by
  simp [execSse, ho, hx, he, ht]

theorem execSse_past_gate {ps : List Nat} (h : s.SseGateOpen ext) (ha : s.numericAccess m e = .ok ps) :
    execSse ext u m len e s = if u then s.raiseSimd else s.numericCommit ps .simd len e := by
  obtain ⟨ho, hx, he, ht⟩ := h
  simp [execSse, ho, hx, he, ht, ha]

end

theorem execUnlisted_mmx {c : ClassInfo} (h : c.cls = .mmx) (bs : List Byte) (s : State) :
    execUnlisted c bs s = .next (execMmx c.operand bs.length (Config.numericEffect bs s.draws) s) := by
  simp only [execUnlisted, h]

/-- The two classes differ in the extension they need only (D14). -/
theorem execUnlisted_sse {c : ClassInfo} {s : State} {ext : Bool}
    (h : (c.cls = .sse ∧ ext = s.params.cpuidSse) ∨ (c.cls = .sse2 ∧ ext = s.params.cpuidSse2)) (bs : List Byte) :
    execUnlisted c bs s =
      .next (execSse ext (s.simdUnmasked bs) c.operand bs.length (Config.numericEffect bs s.draws) s) := by
  rcases h with ⟨h, rfl⟩ | ⟨h, rfl⟩ <;> simp only [execUnlisted, h]

/-- Settles O37: the gate test by test, then the commit of the effect, which leaves the SSE context and a pending error. -/
theorem mmxGateAndResult : Obligations.MmxGateAndResult := by
  intro c bs s hc
  rw [execUnlisted_mmx hc]
  refine ⟨fun h => congrArg _ (execMmx_ud h), fun he hx ht => congrArg _ (execMmx_nm he hx ht),
    fun he hx ht ps hps => ?_⟩
  obtain ⟨f, hf, regs, hregs, hcommit⟩ :=
    s.numericCommit_eq ps .mmx bs.length (Config.numericEffect bs s.draws)
  refine ⟨(Config.numericEffect bs s.draws).fpu, regs, f, _, congrArg _ ?_, hf, hregs,
    fun hm => State.memAfter_of_no_operand hps hm _, s.stored_memAfter _⟩
  simp only [execMmx_past_gate he hx ht, State.numeric, State.numericAccess_of_reaches hps, hcommit]
  simp

/-! ### #XF (60_exceptions.md R234) -/

/-- Running what is fetched raises #XF only of an SSE or SSE2 instruction on floating-point numbers, past its gate and
with OSXMMEXCPT set. -/
theorem runInstr_xf {s t : State} (h : runInstr s = .next t) (hs : s.raised = none) (ht : t.raised = some .xf) :
    s.osxmmexcpt = true ∧ ∃ c bs, s.fetch = .unlisted c bs ∧ RaisesSimd c bs s t := by
  have hne : s.raised ≠ some .xf := by simp [hs]
  rcases runInstr_cases h with ⟨i, -, hi⟩ | ⟨c, bs, hf, hc⟩ | ⟨pf, -, -, rfl, -⟩
  · exact absurd ht (exec_not_xf hi hne)
  · obtain ⟨hr, ho⟩ := execUnlisted_xf hc hne ht
    exact ⟨ho, c, bs, hf, hr⟩
  · cases ht

theorem State.deliver_raised (s : State) (e : Exc) : (s.deliver e).raised = none := by
  obtain ⟨tr, ht | ht⟩ := s.deliver_eq e
  · rw [ht]
  · rw [ht, State.setTs_raised]

/-- No delivery and no arrival raises #XF. -/
theorem step_xf {s t : State} (h : step s = .next t) (ht : t.raised = some .xf) :
    s.raised = none ∧ ∃ rest, runInstr { s with arrivals := rest } = .next t := by
  rcases step_cases h with ⟨e, -, rfl⟩ | ⟨hs, rest, -, h⟩ | ⟨hs, rest, -, rfl⟩ | ⟨-, rest, -, -, rfl⟩ |
    ⟨hs, rest, -, rfl⟩ | ⟨hs, rest, b, -, rfl⟩
  · rw [State.deliver_raised] at ht
    cases ht
  · exact ⟨hs, rest, h⟩
  · exact absurd (hs.symm.trans ht) (by simp)
  · cases ht
  · exact absurd (hs.symm.trans ht) (by simp)
  · exact absurd (hs.symm.trans ht) (by simp)

/-- Settles O38: the gate test by test, then by the detection of an exception its record or the commit of the effect; and
who raises #XF over a step. -/
theorem sseGateAndResult : Obligations.SseGateAndResult := by
  refine ⟨fun c bs s ext hc => ?_, fun s t h => or_iff_not_imp_left.mpr fun hx => ?_⟩
  · rw [execUnlisted_sse hc]
    refine ⟨fun h => congrArg _ (execSse_ud h), fun ho hx he => ⟨fun ht => congrArg _ (execSse_nm ho hx he ht),
      fun ht ps hps => ?_⟩⟩
    obtain ⟨f, hf, regs, hregs, hcommit⟩ :=
      s.numericCommit_eq ps .simd bs.length (Config.numericEffect bs s.draws)
    refine ⟨(Config.numericEffect bs s.draws).fpu, (Config.numericEffect bs s.draws).sse, regs, f, _, congrArg _ ?_, hf,
      hregs, fun hm => State.memAfter_of_no_operand hps hm _, s.stored_memAfter _⟩
    rw [execSse_past_gate ⟨ho, hx, he, ht⟩ (State.numericAccess_of_reaches hps), hcommit]
    simp [State.simdUnmasked, State.raiseSimd_eq]
  · obtain ⟨hs, rest, hrun⟩ := step_xf h (not_not.mp hx)
    obtain ⟨hox, c, bs, hf, -, hfloat, hgate⟩ := runInstr_xf (s := { s with arrivals := rest }) hrun hs (not_not.mp hx)
    rw [s.fetch_arrivals rest] at hf
    rcases hgate with ⟨hc, ho, hext, he, ht⟩ | ⟨hc, ho, hext, he, ht⟩
    · exact ⟨hox, ho, he, ht, c, bs, hf, hfloat, .inl ⟨hc, hext⟩⟩
    · exact ⟨hox, ho, he, ht, c, bs, hf, hfloat, .inr ⟨hc, hext⟩⟩

/-! ### The exempt instructions (R187) -/

/-- Settles O41: each is `noOperation`. -/
theorem hintsAndFencesAreNoOps : Obligations.HintsAndFencesAreNoOps := by
  intro m s
  simp only [List.forall_mem_cons]
  exact ⟨rfl, ⟨rfl, rfl, rfl, List.forall_mem_nil _⟩, rfl, rfl, rfl, rfl, List.forall_mem_nil _⟩

/-- An exempt instruction only advances `pc`, or is one of the two that access memory. -/
theorem exempt_cases {i : Instr} (h : i.insnClass = .exempt) :
    (∀ s, exec i s = noOperation i.length s) ∨ (∃ m g, i = .movnti m g) ∨ ∃ m, i = .clflush m := by
  cases i with
  | pause | prefetchnta | prefetcht0 | prefetcht1 | prefetcht2 | sfence | lfence | mfence => exact .inl fun _ => rfl
  | movnti m g => exact .inr (.inl ⟨m, g, rfl⟩)
  | clflush m => exact .inr (.inr ⟨m, rfl⟩)
  | _ => cases h

/-- Whatever its access ends in, it has a next state. -/
theorem exec_exempt_next {i : Instr} (h : i.insnClass = .exempt) (s : State) : ∃ t, exec i s = .next t := by
  rcases exempt_cases h with h | ⟨m, g, rfl⟩ | ⟨m, rfl⟩
  · exact ⟨_, h s⟩
  · simp only [exec, execMovnti]
    cases s.access .write 4 4 (s.effAddr m) <;> exact ⟨_, rfl⟩
  · simp only [exec, execClflush]
    cases s.access .read 1 1 (s.effAddr m) <;> exact ⟨_, rfl⟩

/-- Where the bytes of its access are within reach it executes. -/
theorem exec_exempt_of_reaches {i : Instr} (h : i.insnClass = .exempt) {s : State} {ps : List Nat}
    (hps : s.Reaches (s.dataAccess i) ps) :
    ∃ t, exec i s = .next t ∧ t.raised = s.raised ∧ t.pc = s.pc + BitVec.ofNat 32 i.length := by
  rcases exempt_cases h with h | ⟨m, g, rfl⟩ | ⟨m, rfl⟩
  · exact ⟨_, h s, rfl, rfl⟩
  · exact ⟨_, exec_movnti_of_reaches hps, rfl, rfl⟩
  · exact ⟨_, clflushCompletes m s ps hps, rfl, rfl⟩

/-! #### A state and the same state with other gate flags

What tests no gate flag gives from the state with another CR0 and CR4 that differ in gate flags only what it gives from
the state itself, with that CR0 and CR4. -/

/-- The state with other values of CR0 and CR4. -/
def State.withGates (s : State) (a b : Word) : State := { s with cr0 := a, cr4 := b }

/-- Two words that agree outside a mask agree at each bit outside it. -/
theorem getLsbD_of_and_not_eq {v w m : Word} (h : v &&& ~~~m = w &&& ~~~m) (i : Nat) (hi : i < 32)
    (hm : m.getLsbD i = false) : v.getLsbD i = w.getLsbD i := by
  have hbit := congrArg (fun x : Word => x.getLsbD i) h
  simpa only [BitVec.getLsbD_and, BitVec.getLsbD_not, hi, hm, decide_true, Bool.not_false, Bool.and_true] using hbit

section
variable {s : State} {a b : Word}

theorem SameButGates.cr0_bit (h : SameButGates s (s.withGates a b)) (i : Nat) (hi : i < 32)
    (hm : (0x0000000E#32).getLsbD i = false) : a.getLsbD i = s.cr0.getLsbD i :=
  getLsbD_of_and_not_eq h.2.1 i hi hm

theorem SameButGates.cr4_flag (h : SameButGates s (s.withGates a b)) (i : Nat) (hi : i < 32)
    (hm : (0x00000600#32).getLsbD i = false) : cr4Flag s.params b i = cr4Flag s.params s.cr4 i :=
  congrArg _ (getLsbD_of_and_not_eq h.2.2 i hi hm)

theorem SameButGates.pg (h : SameButGates s (s.withGates a b)) : (s.withGates a b).pg = s.pg :=
  h.cr0_bit 31 (by decide) (by decide)
theorem SameButGates.am (h : SameButGates s (s.withGates a b)) : (s.withGates a b).am = s.am :=
  h.cr0_bit 18 (by decide) (by decide)
theorem SameButGates.wp (h : SameButGates s (s.withGates a b)) : (s.withGates a b).wp = s.wp :=
  h.cr0_bit 16 (by decide) (by decide)
theorem SameButGates.pe (h : SameButGates s (s.withGates a b)) : (s.withGates a b).pe = s.pe :=
  h.cr0_bit 0 (by decide) (by decide)
theorem SameButGates.pse (h : SameButGates s (s.withGates a b)) : (s.withGates a b).pse = s.pse :=
  h.cr4_flag 4 (by decide) (by decide)
theorem SameButGates.pae (h : SameButGates s (s.withGates a b)) : (s.withGates a b).pae = s.pae :=
  h.cr4_flag 5 (by decide) (by decide)
theorem SameButGates.pge (h : SameButGates s (s.withGates a b)) : (s.withGates a b).pge = s.pge :=
  h.cr4_flag 7 (by decide) (by decide)

theorem SameButGates.pagingActive (h : SameButGates s (s.withGates a b)) :
    (s.withGates a b).pagingActive = s.pagingActive := by
  rw [State.pagingActive, h.pg, h.pe, State.pagingActive]

theorem SameButGates.mode (h : SameButGates s (s.withGates a b)) : (s.withGates a b).mode = s.mode := by
  unfold State.mode
  rw [h.pe]
  rfl

theorem SameButGates.alignmentCheckActive (h : SameButGates s (s.withGates a b)) :
    (s.withGates a b).alignmentCheckActive = s.alignmentCheckActive := by
  unfold State.alignmentCheckActive
  rw [h.am, h.mode]
  rfl

theorem SameButGates.translate (h : SameButGates s (s.withGates a b)) (k : AccessKind) (l : Word) :
    (s.withGates a b).translate k l = s.translate k l := by
  unfold State.translate State.translateRequest State.writeForbidden State.clipPhys State.physAddrBits
  rw [h.pagingActive, h.pse, h.pae, h.pge, h.wp]
  rfl

theorem SameButGates.translateList (h : SameButGates s (s.withGates a b)) (k : AccessKind) (ls : List Word) :
    (s.withGates a b).translateList k ls = s.translateList k ls := by
  induction ls with
  | nil => rfl
  | cons l ls ih => rw [State.translateList, State.translateList, h.translate, ih]

theorem SameButGates.access (h : SameButGates s (s.withGates a b)) (k : AccessKind) (boundary n : Nat) (l : Word) :
    (s.withGates a b).access k boundary n l = (s.access k boundary n l).mapStop (·.withGates a b) := by
  unfold State.access
  rw [h.alignmentCheckActive, h.pagingActive, h.translateList]
  split_ifs
  · rfl
  · cases s.translateList k (linearBytes l n) <;> rfl
  · rfl

theorem exec_exempt_withGates {i : Instr} (hi : i.insnClass = .exempt) (h : SameButGates s (s.withGates a b)) :
    exec i (s.withGates a b) = mapNext (·.withGates a b) (exec i s) := by
  have heff (m : MemOperand) : (s.withGates a b).effAddr m = s.effAddr m := rfl
  rcases exempt_cases hi with hi | ⟨m, g, rfl⟩ | ⟨m, rfl⟩
  · rw [hi, hi]
    rfl
  · simp only [exec, execMovnti, heff, h.access]
    cases s.access .write 4 4 (s.effAddr m) <;> rfl
  · simp only [exec, execClflush, heff, h.access]
    cases s.access .read 1 1 (s.effAddr m) <;> rfl

end

/-- Settles O39: the outcome from the other state is the outcome with its CR0 and CR4; and what is within reach executes. -/
theorem exemptInstructionsUngated : Obligations.ExemptInstructionsUngated := by
  intro i s t hi ⟨ht, h0, h4⟩
  obtain ⟨s', hs'⟩ := exec_exempt_next hi s
  refine ⟨⟨s', hs', ?_⟩, fun ps hps => exec_exempt_of_reaches hi hps⟩
  calc exec i t = exec i (s.withGates t.cr0 t.cr4) := congrArg (exec i) ht
    _ = mapNext (·.withGates t.cr0 t.cr4) (exec i s) := exec_exempt_withGates hi ⟨rfl, h0, h4⟩
    _ = .next (s'.withGates t.cr0 t.cr4) := by rw [hs']; rfl

end Sys2Proof.Machine
end

section
/-! The FXSAVE image and the round trip of FXSAVE and FXRSTOR (42_fpu_simd_gating.md section 5; layout log 10). -/

namespace Sys2Proof.Machine

/-! ### Reading the image (R190, R191) -/

/-- Of pieces of equal size laid end to end, number `i` stands at `i` times that size. -/
theorem drop_flatMap_range {g : Nat → List Byte} {size : Nat} (hg : ∀ j, (g j).length = size) {i n : Nat} (hi : i < n)
    (rest : List Byte) : ∃ more, ((List.range n).flatMap g ++ rest).drop (size * i) = g i ++ more := by
  have hlen : ((List.range i).flatMap g).length = size * i := by
    simp [List.length_flatMap, hg, Nat.mul_comm]
  obtain ⟨k, rfl⟩ : ∃ k, n = i + (1 + k) := ⟨n - i - 1, by omega⟩
  rw [List.range_add, List.flatMap_append, List.append_assoc, List.drop_left' hlen, List.range_add]
  exact ⟨((List.range k).map (i + 1 + ·)).flatMap g ++ rest, by simp⟩

theorem imageNat_drop (img : List Byte) (k n : Nat) : imageNat img k n = imageNat (img.drop k) 0 n := by
  simp [imageNat]

/-- The number at the head of piece `i`, of `size` bytes, after `k` bytes of other things. -/
theorem imageNat_piece {a : List Byte} {g : Nat → List Byte} {k size i n w : Nat} (ha : a.length = k)
    (hg : ∀ j, (g j).length = size) (hi : i < n) (rest : List Byte) :
    ∃ more, imageNat (a ++ ((List.range n).flatMap g ++ rest)) (k + size * i) w = imageNat (g i ++ more) 0 w := by
  obtain ⟨more, hm⟩ := drop_flatMap_range hg hi rest
  refine ⟨more, ?_⟩
  rw [imageNat_skip (by omega), ha, Nat.add_sub_cancel_left, imageNat_drop, hm]

/-- What stands before the data registers: the environment, MXCSR or open bytes in its place, and four open bytes. -/
def State.fxHead (s : State) : List Byte :=
  fpuHeader s.fpu s.draws ++
    ((if s.osfxsr then leBytes 4 s.sse.mxcsr.toNat else openBytes s.draws 24 4) ++ openBytes s.draws 28 4)

/-- What stands from the XMM registers on. -/
def State.fxTail (s : State) : List Byte :=
  (if s.osfxsr then sseData s.sse else openBytes s.draws 160 128) ++ openBytes s.draws 288 224

theorem State.fxImage_eq (s : State) : s.fxImage = s.fxHead ++ (fpuData s.fpu s.draws ++ s.fxTail) := by
  simp only [State.fxImage, State.fxHead, State.fxTail, List.append_assoc]

@[simp] theorem State.fxHead_length (s : State) : s.fxHead.length = 32 := by
  unfold State.fxHead
  cases s.osfxsr <;> simp

/-- The x87 and MMX context read back from an image: each field of the header, and the data registers. -/
theorem fpuOfImage_fxImage (s : State) : fpuOfImage s.fxImage = s.fpu := by
  have hst : (Vector.ofFn fun i : Fin 8 => BitVec.ofNat 80 (imageNat s.fxImage (32 + 16 * i.val) 10)) = s.fpu.st := by
    refine Vector.ext fun i hi => ?_
    obtain ⟨more, hm⟩ := imageNat_piece (size := 16) (w := 10) s.fxHead_length
      (g := fun i => leBytes 10 (s.fpu.st.toList.getD i 0#80).toNat ++ openBytes s.draws (42 + 16 * i) 6)
      (fun j => by simp) hi s.fxTail
    rw [Vector.getElem_ofFn, State.fxImage_eq, fpuData, hm, List.append_assoc, image_field _ _ (by decide)]
    simp [hi]
  unfold fpuOfImage
  rw [hst]
  simp [State.fxImage, fpuHeader, imageNat_skip, image_field]

/-- With OSFXSR set so are MXCSR and the XMM registers. -/
theorem sseOfImage_fxImage {s : State} (h : s.osfxsr = true) : sseOfImage s.fxImage = s.sse := by
  have hxmm : (Vector.ofFn fun i : Fin 8 => BitVec.ofNat 128 (imageNat s.fxImage (160 + 16 * i.val) 16)) = s.sse.xmm := by
    refine Vector.ext fun i hi => ?_
    have hhead : (s.fxHead ++ fpuData s.fpu s.draws).length = 160 := by simp
    obtain ⟨more, hm⟩ := imageNat_piece (size := 16) (w := 16) hhead
      (g := fun i => leBytes 16 (s.sse.xmm.toList.getD i 0#128).toNat) (fun j => by simp) hi (openBytes s.draws 288 224)
    rw [Vector.getElem_ofFn, State.fxImage_eq, State.fxTail, if_pos h, sseData, ← List.append_assoc, hm,
      image_field _ _ (by decide)]
    simp [hi]
  unfold sseOfImage
  rw [hxmm]
  simp [State.fxImage, h, imageNat_skip, image_field]

/-- Byte `j` of a run of open bytes. -/
theorem openBytes_getElem? (draw k : Nat) {j n : Nat} (h : j < n) :
    (openBytes draw k n)[j]? = some (Config.freeByte (k + j) draw) := by
  simp [openBytes, h]

/-- A run of open bytes inside an image, after `k` bytes. -/
theorem openBytes_getElem?_append {a : List Byte} {k n j : Nat} (draw : Nat) (ha : a.length = k) (rest : List Byte)
    (hl : k ≤ j) (hu : j < k + n) :
    (a ++ (openBytes draw k n ++ rest))[j]? = some (Config.freeByte j draw) := by
  rw [List.getElem?_append_right (by omega), List.getElem?_append_left (by rw [openBytes_length]; omega), ha,
    openBytes_getElem? draw k (by omega), Nat.add_sub_cancel' hl]

/-- With OSFXSR clear the bytes of MXCSR and of the XMM registers are open (U30). -/
theorem State.fxImage_open {s : State} (h : s.osfxsr = false) {k : Nat} (hk : 24 ≤ k ∧ k < 28 ∨ 160 ≤ k ∧ k < 288) :
    s.fxImage[k]? = some (Config.freeByte k s.draws) := by
  rcases hk with ⟨hl, hu⟩ | ⟨hl, hu⟩
  · simp only [State.fxImage, h, Bool.false_eq_true, if_false]
    exact openBytes_getElem?_append s.draws (by simp) _ hl hu
  · rw [State.fxImage_eq, State.fxTail, h, ← List.append_assoc]
    exact openBytes_getElem?_append s.draws (by simp) _ hl hu

/-! ### FXSAVE and FXRSTOR where their bytes are within reach (R81, R86, R92) -/

theorem exec_fxsave_of_reaches {m : MemOperand} {s : State} {ps : List Nat} (hg : s.fxGated = false)
    (h : s.Reaches (s.dataAccess (.fxsave m)) ps) :
    exec (.fxsave m) s =
      .next { s with mem := s.memAfter (ps.zip s.fxImage), draws := s.draws + 1,
                     pc := s.pc + BitVec.ofNat 32 (3 + m.size) } := by
  have ha : s.access .write s.params.fxAlign fxSize (s.effAddr m) = .ok ps :=
    State.access_of_reaches (d := ⟨m, .write, s.params.fxAlign, fxSize⟩) h
  simp only [exec, execFxsave, hg, ha]
  rfl

theorem exec_fxrstor_of_reaches {m : MemOperand} {s : State} {ps : List Nat} (hg : s.fxGated = false)
    (h : s.Reaches (s.dataAccess (.fxrstor m)) ps) :
    exec (.fxrstor m) s = .next (((s.restoreImage (s.readBytes ps)).drawn).advance (3 + m.size)) := by
  have ha : s.access .read s.params.fxAlign fxSize (s.effAddr m) = .ok ps :=
    State.access_of_reaches (d := ⟨m, .read, s.params.fxAlign, fxSize⟩) h
  simp only [exec, execFxrstor, hg, ha, Bool.false_eq_true, if_false]

/-- Settles O44: the store of the image, and what is read back from it. -/
theorem fxsaveResult : Obligations.FxsaveResult := by
  intro m s ps hg h
  have hlen : ps.length = 512 := State.Reaches.length (d := ⟨m, .write, s.params.fxAlign, fxSize⟩) h
  exact ⟨⟨_, exec_fxsave_of_reaches hg h, s.stored_memAfter _⟩, hlen, s.fxImage_length, fpuOfImage_fxImage s,
    sseOfImage_fxImage, fun ho k hk => State.fxImage_open ho hk⟩

/-- Settles O45: the restore from the bytes read, each by `readByte`. -/
theorem fxrstorResult : Obligations.FxrstorResult := fun _ _ _ => exec_fxrstor_of_reaches

/-! ### The round trip -/

/-- What completes without an exception was not gated. -/
theorem fxGated_of_exec_fxsave {m : MemOperand} {s t : State} (h : exec (.fxsave m) s = .next t) (ht : t.raised = none) :
    s.fxGated = false := by
  by_contra hg
  simp only [exec, execFxsave, eq_true_of_ne_false hg, if_true] at h
  cases h
  cases ht

theorem fxGated_of_exec_fxrstor {m : MemOperand} {s t : State} (h : exec (.fxrstor m) s = .next t)
    (ht : t.raised = none) : s.fxGated = false := by
  by_contra hg
  simp only [exec, execFxrstor, eq_true_of_ne_false hg, if_true] at h
  cases h
  cases ht

/-- Settles O46: the image is read back as it was stored, and the contexts from it. -/
theorem fxrstorRestoresSaved : Obligations.FxrstorRestoresSaved := by
  intro m m' s t s' t' ps _ hsave ht hps hmem hps' _ hnodup hram hrestore ht'
  rw [exec_fxsave_of_reaches (fxGated_of_exec_fxsave hsave ht) hps] at hsave
  rw [exec_fxrstor_of_reaches (fxGated_of_exec_fxrstor hrestore ht') hps'] at hrestore
  cases hsave
  cases hrestore
  have hlen : ps.length = s.fxImage.length :=
    (State.Reaches.length (d := ⟨m, .write, s.params.fxAlign, fxSize⟩) hps).trans s.fxImage_length.symm
  have hread : s'.readBytes ps = s.fxImage :=
    State.readByte_stored hlen hnodup (hmem ▸ s.stored_memAfter (ps.zip s.fxImage)) hram
  simp only [hread, State.advance_fpu, State.advance_sse, State.drawn_fpu, State.drawn_sse, State.restoreImage_fpu,
    State.restoreImage_sse]
  exact ⟨fpuOfImage_fxImage s, fun ho ho' => (if_pos ho').trans (sseOfImage_fxImage ho), fun ho' => if_neg (by simp [ho'])⟩

end Sys2Proof.Machine
end

section
/-! What CR4 gates, and CPUID (43_cr4_gated.md). -/

namespace Sys2Proof.Machine

/-! ### The counters (R210, R211; D18, D30) -/

section
variable {s : State} {c : Bool}

/-- The gate of both, `c` of TSD or of PCE: it shuts outside real-address mode and level 0. -/
theorem State.counter_shut (hc : c = true) (hm : s.mode ≠ .realMode) (hl : s.cpl ≠ 0#2) :
    (c && s.outsideLevel0) = true := by
  simp [State.outsideLevel0, hc, hm, hl]

theorem State.counter_open (h : c = false ∨ s.mode = .realMode ∨ s.cpl = 0#2) : ¬ (c && s.outsideLevel0) = true := by
  rcases h with h | h | h <;> simp [State.outsideLevel0, h]

end

/-- A count is the two halves that go to EDX and EAX. -/
theorem exists_count_halves (v : BitVec 64) : ∃ hi lo : Word, v = hi ++ lo :=
  ⟨v.extractLsb' 32 32, v.extractLsb' 0 32,
    (BitVec.extractLsb'_eq_self.symm.trans
      (BitVec.extractLsb'_append_extractLsb'_eq_extractLsb' (start₁ := 0) (len₁ := 32) (len₂ := 32) rfl).symm)⟩

theorem State.setEdxEax_append (s : State) (hi lo : Word) :
    s.setEdxEax (hi ++ lo) = { s with regs := putReg .eax lo (putReg .edx hi s.regs) } := by
  rw [State.setEdxEax, BitVec.extractLsb'_append_eq_left, BitVec.extractLsb'_append_eq_right]
  rfl

/-- Settles O48: the gate on TSD, and the count in its two halves. -/
theorem rdtscGateAndResult : Obligations.RdtscGateAndResult := by
  refine fun s => ⟨fun ht hm hl => if_pos (State.counter_shut ht hm hl), fun h => ?_⟩
  obtain ⟨hi, lo, hv⟩ := exists_count_halves (Config.freeTsc s.draws)
  refine ⟨hi, lo, (if_neg (State.counter_open h)).trans ?_⟩
  rw [hv, State.setEdxEax_append]
  rfl

/-- Settles O49: the gate on PCE, and the count in its two halves. -/
theorem rdpmcGateAndResult : Obligations.RdpmcGateAndResult := by
  refine fun s => ⟨fun hp hm hl => if_pos (State.counter_shut (congrArg not hp) hm hl), fun h => ?_⟩
  obtain ⟨hi, lo, hv⟩ := exists_count_halves (Config.freePmc (s.reg .ecx) s.draws)
  refine ⟨hi, lo, (if_neg (State.counter_open (h.imp_left (congrArg not)))).trans ?_⟩
  rw [hv, State.setEdxEax_append]
  rfl

/-! ### DR4 and DR5 (R212, R213; log 15) -/

theorem State.drStop_of_de {s : State} (h : s.de = true) : s.drStop = some .ud := if_pos h

theorem State.drStop_of_not_privOk {s : State} (hd : s.de = false) (hg : s.params.drGate = true) (hp : s.privOk = false) :
    s.drStop = some (.gp 0#32) := by
  simp [State.drStop, hd, hg, hp]

theorem State.drStop_of_open {s : State} (hd : s.de = false) (h : s.params.drGate = false ∨ s.privOk = true) :
    s.drStop = none := by
  rcases h with h | h <;> simp [State.drStop, hd, h]

/-- Where the checks of an access to DR4 or DR5 stop it, nothing but the exception comes of it. -/
theorem exec_dr_of_drStop {s : State} {e : Exc} (h : s.drStop = some e) (md : BitVec 2) (r : Reg) :
    ∀ i ∈ [Instr.movR32Dr4 md r, .movR32Dr5 md r, .movDr4R32 md r, .movDr5R32 md r], exec i s = .next (s.raise e) := by
  simp [exec, execMovR32Dr4, execMovR32Dr5, execMovDr4R32, execMovDr5R32, moveFromDr, h]

theorem moveFromDr_of_drStop_none {s : State} (h : s.drStop = none) (n : BitVec 3) (held : Word) (r : Reg) :
    moveFromDr n held r s =
      .next { s with regs := putReg r (Config.debugRead n held s.draws) s.regs, draws := s.draws + 1, pc := s.pc + 3#32 } := by
  rw [moveFromDr, h]
  rfl

theorem execMovDr4R32_of_drStop_none {s : State} (h : s.drStop = none) (r : Reg) :
    execMovDr4R32 r s = .next { s with dr4 := Config.debugImage 4#3 s.dr4 (s.reg r), pc := s.pc + 3#32 } := by
  rw [execMovDr4R32, h]
  rfl

theorem execMovDr5R32_of_drStop_none {s : State} (h : s.drStop = none) (r : Reg) :
    execMovDr5R32 r s = .next { s with dr5 := Config.debugImage 5#3 s.dr5 (s.reg r), pc := s.pc + 3#32 } := by
  rw [execMovDr5R32, h]
  rfl

/-- Settles O50: which check stops the access, and the four accesses where none does. -/
theorem debugRegisterAccess : Obligations.DebugRegisterAccess := by
  refine fun md r s => ⟨fun hd => exec_dr_of_drStop (State.drStop_of_de hd) md r,
    fun hd hg hp => exec_dr_of_drStop (State.drStop_of_not_privOk hd hg hp) md r, fun hd h => ?_⟩
  have hopen := State.drStop_of_open hd h
  exact ⟨⟨_, moveFromDr_of_drStop_none hopen _ _ r⟩, ⟨_, moveFromDr_of_drStop_none hopen _ _ r⟩,
    ⟨_, execMovDr4R32_of_drStop_none hopen r⟩, ⟨_, execMovDr5R32_of_drStop_none hopen r⟩⟩

/-! ### CPUID (R214; 93 G5; log 17) -/

/-- A word whose bits under a mask were cleared to take those of another word shows the other's bits there. -/
theorem getLsbD_or_of_mask {m : Word} {i : Nat} (hm : m.getLsbD i = true) (v w : Word) :
    ((v &&& ~~~m) ||| w).getLsbD i = w.getLsbD i := by
  simp [hm]

theorem featureBit_getLsbD (b : Bool) {i : Nat} (hi : i < 32) (k : Nat) :
    (featureBit b i).getLsbD k = (b && decide (i = k)) := by
  cases b
  · exact BitVec.getLsbD_zero
  · exact (BitVec.getLsbD_twoPow i k).trans (by rw [decide_eq_true hi])

/-- A word that shows `features` under the mask has each parameter in the bit that is named for it. -/
theorem parameters_of_features {p : Params} {d : Word}
    (hd : ∀ i, featureMask.getLsbD i = true → d.getLsbD i = (features p).getLsbD i) :
    d.getLsbD 1 = p.cr4Present.getLsbD 0 ∧ d.getLsbD 25 = p.cpuidSse ∧
    d.getLsbD 2 = p.cr4Present.getLsbD 3 ∧ d.getLsbD 3 = p.cr4Present.getLsbD 4 ∧
    d.getLsbD 4 = p.cr4Present.getLsbD 2 ∧ d.getLsbD 6 = p.cr4Present.getLsbD 5 ∧
    d.getLsbD 7 = p.cr4Present.getLsbD 6 ∧ d.getLsbD 13 = p.cr4Present.getLsbD 7 ∧
    d.getLsbD 23 = p.cpuidMmx ∧ d.getLsbD 24 = p.cr4Present.getLsbD 9 ∧ d.getLsbD 26 = p.cpuidSse2 := by
  rw [hd 1 rfl, hd 25 rfl, hd 2 rfl, hd 3 rfl, hd 4 rfl, hd 6 rfl, hd 7 rfl, hd 13 rfl, hd 23 rfl, hd 24 rfl, hd 26 rfl]
  simp [features, featureBit_getLsbD, -BitVec.getLsbD_eq_getElem]

/-- With function 1 each bit of `featureMask` shows that of `features`. -/
theorem State.cpuidAnswer_edx_bit {s : State} (h : s.reg .eax = 1#32) {i : Nat} (hm : featureMask.getLsbD i = true) :
    s.cpuidAnswer.edx.getLsbD i = (features s.params).getLsbD i := by
  rw [State.cpuidAnswer, if_pos h]
  exact getLsbD_or_of_mask hm _ _

/-- With function 1 the field of the family holds the family. -/
theorem State.cpuidAnswer_family {s : State} (h : s.reg .eax = 1#32) :
    s.cpuidAnswer.eax.extractLsb' 8 4 = (Proc.signature s.params.proc).extractLsb' 8 4 := by
  have hin : familyMask.extractLsb' 8 4 = BitVec.allOnes 4 := rfl
  have hout : (~~~familyMask).extractLsb' 8 4 = 0#4 := rfl
  rw [State.cpuidAnswer, if_pos h, BitVec.extractLsb'_or, BitVec.extractLsb'_and, BitVec.extractLsb'_and, hin, hout,
    BitVec.and_zero, BitVec.zero_or, BitVec.and_allOnes]

/-- The rule that tells PCE from the family and the bit of MMX is `pceByFamily` (93 G5). -/
theorem pceByFamily_eq (p : Params) :
    (decide (6 ≤ ((Proc.signature p.proc).extractLsb' 8 4).toNat) ||
      (((Proc.signature p.proc).extractLsb' 8 4).toNat == 5 && p.cpuidMmx)) = pceByFamily p := by
  unfold pceByFamily
  cases p.proc <;> rfl

/-- On a processor 93 G5 can describe, an answer with the family and the bits of `features` tells `cr4_present`. -/
theorem flagsFromCpuid_eq {p : Params} {a d : Word} (ht : CpuidTells p)
    (ha : a.extractLsb' 8 4 = (Proc.signature p.proc).extractLsb' 8 4)
    (hd : ∀ i, featureMask.getLsbD i = true → d.getLsbD i = (features p).getLsbD i) :
    flagsFromCpuid a d = (List.range 11).map p.cr4Present.getLsbD := by
  obtain ⟨hpvi, hosx, hpce⟩ := ht
  obtain ⟨h1, h25, h2, h3, h4, h6, h7, h13, h23, h24, -⟩ := parameters_of_features hd
  simp only [flagsFromCpuid, ha, h1, h25, h2, h3, h4, h6, h7, h13, h23, h24, pceByFamily_eq, ← hpce, ← hosx]
  rw [show List.range 11 = [0, 1, 2, 3, 4, 5, 6, 7, 8, 9, 10] from rfl]
  simp only [List.map_cons, List.map_nil, hpvi]

theorem execCpuid_eq (s : State) :
    execCpuid s = .next { s with
      regs := ⟨s.cpuidAnswer.eax, s.cpuidAnswer.ecx, s.cpuidAnswer.edx, s.cpuidAnswer.ebx,
        s.regs.esp, s.regs.ebp, s.regs.esi, s.regs.edi⟩,
      draws := s.draws + 1, pc := s.pc + 2#32 } := rfl

/-- Settles O51: the answer goes to the four registers; with function 1 its masked bits are the parameters. -/
theorem cpuidResult : Obligations.CpuidResult := by
  refine fun s => ⟨_, _, _, _, execCpuid_eq s, fun h => ?_⟩
  have hd : ∀ i, featureMask.getLsbD i = true → s.cpuidAnswer.edx.getLsbD i = (features s.params).getLsbD i :=
    fun _ => State.cpuidAnswer_edx_bit h
  have ha := State.cpuidAnswer_family h
  have htells (ht : CpuidTells s.params) (i : Nat) (hi : i < 11) :
      (flagsFromCpuid s.cpuidAnswer.eax s.cpuidAnswer.edx)[i]? = some (s.params.cr4Present.getLsbD i) := by
    rw [flagsFromCpuid_eq ht ha hd, List.getElem?_map, List.getElem?_range hi, Option.map_some]
  obtain ⟨h1, h25, h2, h3, h4, h6, h7, h13, h23, h24, h26⟩ := parameters_of_features hd
  exact ⟨h1, h25, h2, h3, h4, h6, h7, h13, h23, h24, h26, ha, htells⟩

end Sys2Proof.Machine
end

section
/-! What an instruction that ends in an exception leaves, where a page fault comes from, and the machine check
(60_exceptions.md sections 1 and 4). -/

namespace Sys2Proof.Machine

/-! ### The machine check (R237) -/

/-- Settles O59: the step takes the event, which tests MCE. -/
theorem machineCheckEnabledByMce : Obligations.MachineCheckEnabledByMce := fun _ _ hs ha =>
  ⟨fun hm => (step_arrival hs ha).trans (if_pos hm),
    fun hm => (step_arrival hs ha).trans (if_neg (ne_true_of_eq_false hm))⟩

/-! ### An instruction that ends in an exception (R245, D11) -/

/-- Of `s` nothing has changed in `t` but the record of `e`, CR2 by a page fault, and the pending error by the report of
it. -/
def EndsIn (e : Exc) (s t : State) : Prop :=
  t = { s with raised := some e, cr2 := t.cr2, fpuError := t.fpuError } ∧
    (e ≠ .pf → t.cr2 = s.cr2) ∧ (e ≠ .mf → t.fpuError = s.fpuError)

theorem EndsIn.raise (s : State) (e : Exc) : EndsIn e s (s.raise e) :=
  ⟨rfl, fun _ => rfl, fun _ => rfl⟩

theorem EndsIn.raisePageFault (s : State) (pf : Word) : EndsIn .pf s (s.raisePageFault pf) :=
  ⟨rfl, fun h => absurd rfl h, fun _ => rfl⟩

theorem EndsIn.reportInPlace (s : State) : EndsIn .mf s (s.endFpuError.raise .mf) :=
  ⟨rfl, fun _ => rfl, fun h => absurd rfl h⟩

section
variable {op : Option DataAccess} {e : Exc} {s t : State}

theorem EndsIn.of_eq_raise {e' : Exc} (h : t = s.raise e') (ht : t.raised = some e) : EndsIn e s t := by
  subst h
  cases ht
  exact .raise s e

theorem Raises.endsIn (h : Raises s t) (ht : t.raised = some e) : EndsIn e s t := by
  obtain ⟨_, h, -⟩ := h
  exact .of_eq_raise h ht

theorem PageFaults.endsIn (h : PageFaults op s t) (ht : t.raised = some e) : EndsIn e s t := by
  obtain ⟨pf, -, -, rfl, -⟩ := h
  cases ht
  exact .raisePageFault s pf

/-- Of the two reports of an x87 error, that in place of the instruction. -/
theorem ReportsError.endsIn {i : Instr} (h : ReportsError i s t) (ht : t.raised = some e) (he : e ≠ .fpuInterrupt) :
    EndsIn e s t := by
  obtain ⟨-, -, rfl | ⟨u, -, -, -, rfl⟩⟩ := h
  · cases ht
    exact .reportInPlace s
  · cases ht
    exact absurd rfl he

/-- What completes ends in no exception. -/
theorem Completes.raised_ne_some (h : Completes s t) (hs : s.raised = none) : t.raised ≠ some e := by
  obtain ⟨hr, -⟩ := h
  simp [hr, hs]

theorem exec_endsIn {i : Instr} (h : exec i s = .next t) (hs : s.raised = none) (ht : t.raised = some e)
    (he : e ≠ .fpuInterrupt) : EndsIn e s t := by
  rcases exec_cases h with h | h | h | ⟨h, -⟩
  · exact h.endsIn ht
  · exact h.endsIn ht
  · exact h.endsIn ht he
  · exact absurd ht (h.raised_ne_some hs)

theorem execUnlisted_endsIn {c : ClassInfo} {bs : List Byte} (h : execUnlisted c bs s = .next t) (hs : s.raised = none)
    (ht : t.raised = some e) : EndsIn e s t := by
  rcases execUnlisted_cases h with (h | h | ⟨h, -⟩) | ⟨h, -⟩
  · exact h.endsIn ht
  · exact h.endsIn ht
  · exact absurd ht (h.raised_ne_some hs)
  · exact .of_eq_raise h ht

end

/-- Settles O14: `EndsIn` holds of the table's instructions and of the classes without a row. -/
theorem exceptionsArePrecise : Obligations.ExceptionsArePrecise := by
  rintro s t e hs (⟨i, h⟩ | ⟨c, bs, h⟩) ht he
  · exact exec_endsIn h hs ht he
  · exact execUnlisted_endsIn h hs ht

/-! ### Where a page fault comes from (R236, 20_memory.md R88) -/

/-- The data access the instruction at `pc` makes, one of the table or of a class without a row. -/
def State.OwnAccess (s : State) (d : DataAccess) : Prop :=
  (∃ i, s.fetch = .instr i ∧ s.dataAccess i = some d) ∨
    ∃ c bs, s.fetch = .unlisted c bs ∧ s.numericData c.operand bs = some d

/-- With paging active, CR2 of `t` is what the translation answers, in `s`, of a byte of the fetch at `pc` or of the data
access of the instruction there. -/
def PageFaultOfOwnByte (s t : State) : Prop :=
  s.pagingActive = true ∧
    ((∃ a ∈ linearBytes s.pc maxInstrBytes, s.translate .fetch a = .error t.cr2) ∨
      ∃ d, s.OwnAccess d ∧ ∃ a ∈ linearBytes (s.effAddr d.operand) d.width, s.translate d.kind a = .error t.cr2)

section
variable {op : Option DataAccess} {s t : State}

theorem PageFaults.ofOwnByte (h : PageFaults op s t) (hop : ∀ d, op = some d → s.OwnAccess d) :
    PageFaultOfOwnByte s t := by
  obtain ⟨pf, k, a, rfl, htr, ⟨rfl, ha⟩ | ⟨d, hd, rfl, ha⟩⟩ := h
  · exact ⟨State.translate_error htr, .inl ⟨a, ha, htr⟩⟩
  · exact ⟨State.translate_error htr, .inr ⟨d, hop d hd, a, ha, htr⟩⟩

theorem Raises.raised_ne_pf (h : Raises s t) : t.raised ≠ some .pf := by
  obtain ⟨e, rfl, he, -⟩ := h
  simpa using he

theorem ReportsError.raised_ne_pf {i : Instr} (h : ReportsError i s t) : t.raised ≠ some .pf := by
  obtain ⟨-, -, rfl | ⟨u, -, -, -, rfl⟩⟩ := h <;> simp

theorem State.raiseSimd_raised_ne_pf (s : State) : s.raiseSimd.raised ≠ some .pf := by
  rw [State.raiseSimd_eq]
  cases s.osxmmexcpt <;> simp

theorem exec_pageFaults {i : Instr} (h : exec i s = .next t) (hs : s.raised = none) (ht : t.raised = some .pf) :
    PageFaults (s.dataAccess i) s t := by
  rcases exec_cases h with h | h | h | ⟨h, -⟩
  · exact absurd ht h.raised_ne_pf
  · exact h
  · exact absurd ht h.raised_ne_pf
  · exact absurd ht (h.raised_ne_some hs)

theorem execUnlisted_pageFaults {c : ClassInfo} {bs : List Byte} (h : execUnlisted c bs s = .next t)
    (hs : s.raised = none) (ht : t.raised = some .pf) : PageFaults (s.numericData c.operand bs) s t := by
  rcases execUnlisted_cases h with (h | h | ⟨h, -⟩) | ⟨rfl, -⟩
  · exact absurd ht h.raised_ne_pf
  · exact h
  · exact absurd ht (h.raised_ne_some hs)
  · exact absurd ht s.raiseSimd_raised_ne_pf

theorem runInstr_pageFault (h : runInstr s = .next t) (hs : s.raised = none) (ht : t.raised = some .pf) :
    PageFaultOfOwnByte s t := by
  rcases runInstr_cases h with ⟨i, hf, h⟩ | ⟨c, bs, hf, h⟩ | h
  · exact (exec_pageFaults h hs ht).ofOwnByte fun d hd => .inl ⟨i, hf, hd⟩
  · exact (execUnlisted_pageFaults h hs ht).ofOwnByte fun d hd => .inr ⟨c, bs, hf, hd⟩
  · exact h.ofOwnByte fun d hd => by cases hd

/-- Consuming an arrival first changes neither the accesses nor their translation. -/
theorem PageFaultOfOwnByte.of_arrivals {q : List (Option Event)} (h : PageFaultOfOwnByte { s with arrivals := q } t) :
    PageFaultOfOwnByte s t := by
  unfold PageFaultOfOwnByte State.OwnAccess at h
  rw [State.fetch_arrivals] at h
  exact h

/-- No delivery raises an exception, and of the arrivals only the machine check does. -/
theorem runInstr_of_step_raised {e : Exc} (h : step s = .next t) (hs : s.raised = none) (ht : t.raised = some e)
    (he : e ≠ .mc) : ∃ rest, runInstr { s with arrivals := rest } = .next t := by
  rcases step_cases h with ⟨e', hr, -⟩ | ⟨-, rest, -, h⟩ | ⟨-, rest, -, rfl⟩ | ⟨-, rest, -, -, rfl⟩ |
    ⟨-, rest, -, rfl⟩ | ⟨-, rest, b, -, rfl⟩
  · exact absurd (hs.symm.trans hr) (by simp)
  · exact ⟨rest, h⟩
  · exact absurd (hs.symm.trans ht) (by simp)
  · cases ht
    exact absurd rfl he
  · exact absurd (hs.symm.trans ht) (by simp)
  · exact absurd (hs.symm.trans ht) (by simp)

theorem step_pageFault (h : step s = .next t) (hs : s.raised = none) (ht : t.raised = some .pf) :
    PageFaultOfOwnByte s t := by
  obtain ⟨rest, h⟩ := runInstr_of_step_raised h hs ht (by simp)
  exact (runInstr_pageFault (s := { s with arrivals := rest }) h hs ht).of_arrivals

end

/-! ### An instruction of the table past its gate ends as its data access does (R86, R245) -/

section
variable {s : State} {i : Instr} {d : DataAccess}

/-- The access of a numeric instruction is the one its effect names. -/
theorem State.numericAccess_of_numericData {m : Option MemOperand} {bs : List Byte} (h : s.numericData m bs = some d) :
    s.numericAccess m (Config.numericEffect bs s.draws) =
      s.access d.kind d.boundary d.width (s.effAddr d.operand) := by
  cases m with
  | none => cases h
  | some m => cases h; rfl

theorem State.access_of_pageFault (hal : s.Aligned d) (hp : s.pagingActive = true) {pf : Word}
    (h : s.translateList d.kind (linearBytes (s.effAddr d.operand) d.width) = .error pf) :
    s.access d.kind d.boundary d.width (s.effAddr d.operand) = .stop (s.raisePageFault pf) := by
  have hac : ¬ (s.alignmentCheckActive && (s.effAddr d.operand).toNat % d.boundary != 0) = true := by
    simpa [State.Aligned] using hal
  simp only [State.access, if_neg hac, if_pos hp, h]

theorem State.reaches_of_translateList (hal : s.Aligned d) (hp : s.pagingActive = true) {ps : List Nat}
    (h : s.translateList d.kind (linearBytes (s.effAddr d.operand) d.width) = .ok ps) : s.Reaches (some d) ps :=
  ⟨hal, (if_pos hp).mpr h⟩

/-- Where the access stops, so does the instruction, in the state the access gives. -/
theorem exec_of_access_stop (hd : s.dataAccess i = some d) (hg : s.GateOpen i) {u : State}
    (ha : s.access d.kind d.boundary d.width (s.effAddr d.operand) = .stop u) : exec i s = .next u := by
  cases i with
  | movnti m g => cases hd; simp only [exec, execMovnti, ha]
  | clflush m => cases hd; simp only [exec, execClflush, ha]
  | fxsave m =>
    have hgate : s.fxGated = false := hg
    cases hd
    simp only [exec, execFxsave, hgate, Bool.false_eq_true, if_false, ha]
  | fxrstor m =>
    have hgate : s.fxGated = false := hg
    cases hd
    simp only [exec, execFxrstor, hgate, Bool.false_eq_true, if_false, ha]
  | x87 op ext o =>
    obtain ⟨he, ht, hx, herr⟩ := hg
    have hna := (State.numericAccess_of_numericData (m := rmOperand o) hd).trans ha
    simp only [exec, execX87_past_gate he ht hx, State.reportFpuError_none herr, State.runX87, State.numeric, hna]
  | _ => cases hd

/-- Where the bytes of the access are within reach the instruction completes. -/
theorem exec_of_reaches (hd : s.dataAccess i = some d) (hg : s.GateOpen i) {ps : List Nat}
    (h : s.Reaches (s.dataAccess i) ps) :
    ∃ t, exec i s = .next t ∧ t.raised = s.raised ∧ t.pc = s.pc + BitVec.ofNat 32 i.length := by
  cases i with
  | movnti | clflush => exact exec_exempt_of_reaches rfl h
  | fxsave m => exact ⟨_, exec_fxsave_of_reaches hg h, rfl, rfl⟩
  | fxrstor m => exact ⟨_, exec_fxrstor_of_reaches hg h, rfl, rfl⟩
  | x87 op ext o => exact ⟨_, exec_x87_of_reaches hg h, rfl, rfl⟩
  | _ => cases hd

end

/-- Settles O54: the page faults of a step come from its own accesses; and an instruction past its gate ends as its access
does. -/
theorem pageFaultLoadsCr2 : Obligations.PageFaultLoadsCr2 := by
  refine ⟨fun s t hs h => or_iff_not_imp_left.mpr fun ht => step_pageFault h hs (not_not.mp ht),
    fun s i d hd hg hal hp => ?_⟩
  split
  · next pf h => exact exec_of_access_stop hd hg (State.access_of_pageFault hal hp h)
  · next ps h => exact exec_of_reaches hd hg (hd ▸ State.reaches_of_translateList hal hp h)

end Sys2Proof.Machine
end

section
/-! Every well-formed instruction is read back from its bytes, a page fault on the first byte of the fetch, and the gate of
FXSAVE and FXRSTOR. -/

namespace Sys2Proof

/-- Settles O1: each row of the table is read from the bytes that spell it, whatever follows them. -/
theorem decodeOfEncode : Obligations.DecodeOfEncode := by
  intro i rest hwf
  rw [encode_length]
  exact decode_encode hwf rest

end Sys2Proof

namespace Sys2Proof.Machine

/-! ### A page fault on the first byte of the fetch (60_exceptions.md R236) -/

/-- A fetch whose first byte faults has no byte to decode, so the fault is what stands at `pc`. -/
theorem State.fetch_of_pageFault {s : State} {pf : Word} (h : s.translate .fetch s.pc = .error pf) :
    s.fetch = .pageFault pf := by
  have hbytes : s.fetchBytes (linearBytes s.pc maxInstrBytes) = ([], some pf) := by
    simp only [maxInstrBytes, linearBytes, State.fetchBytes, h]
  rw [State.fetch, hbytes]
  rfl

/-- Settles O8: the translation of `pc` answers an address, or the fetch at `pc` is the fault and running it raises it. -/
theorem fetchPageFault : Obligations.FetchPageFault := by
  intro s hr ha
  cases h : s.translate .fetch s.pc with
  | ok p => exact .inl ⟨p, rfl⟩
  | error pf =>
    refine .inr ⟨pf, rfl, ?_⟩
    rw [step_runs hr ha, runInstr, State.fetch_of_pageFault h]
    rfl

/-! ### The gate of FXSAVE and FXRSTOR (D36, log 11) -/

theorem State.fxGated_iff {s : State} : s.fxGated = true ↔ s.params.fxGate = true ∧ (s.ts = true ∨ s.em = true) := by
  rw [State.fxGated, Bool.and_eq_true, Bool.or_eq_true]

/-- Settles O47: the gate stands before the access in both meanings. -/
theorem fxGateRaisesNm : Obligations.FxGateRaisesNm := by
  intro m s hp hte
  have hg : s.fxGated = true := State.fxGated_iff.mpr ⟨hp, hte⟩
  exact ⟨if_pos hg, if_pos hg⟩

end Sys2Proof.Machine
end
